-- ==== Sys2Proof/Word.lean ====
section
/-! DEFINITION. The bit vectors of OWID: bytes, 32-bit register words, device addresses and records (00_scope.md R6, R9;
10_state.md R32). -/

namespace Sys2Proof

/-- A byte: the unit of the bus, of the CRC and of the record buffer (R9). -/
abbrev Byte := BitVec 8

/-- A register word of the host register block (R33). -/
abbrev Word := BitVec 32

/-- A DeviceAddress, and the working buffer `ROM[0..7]`: `ADDR_BYTES` = 8 bytes, byte k in bits [8k+7:8k], the packing of
ROMLO and ROMHI (R39). Search position p (1..64) is bit p - 1 (R86). -/
abbrev Address := BitVec 64

/-- A manufacturing record: `REC_LEN` = 32 bytes (R6, R42). -/
abbrev Record := Vector Byte 32

end Sys2Proof
end

