-- ==== Sys2Proof/Syntax.lean ====
section
/-! DEFINITION. The commands of OWID: one constructor per row of spec/opcode_table.json (30_encoding.md R112, R113). -/

namespace Sys2Proof

/-- A command (R112) with its operand (R113). -/
inductive Instr where
  /-- OWRESET: bus reset and presence detect (R137). -/
  | owreset
  /-- OWWBIT: write one bit (R138). -/
  | owwbit (bit : Bool)
  /-- OWRBIT: read one bit (R139). -/
  | owrbit
  /-- OWWBYTE: write one byte, LSB first (R140). -/
  | owwbyte (v : Byte)
  /-- OWRBYTE: read one byte, LSB first (R141). -/
  | owrbyte
  /-- CRC8: fold one byte into the CRC register (R162). -/
  | crc8 (v : Byte)
  /-- SRCHINIT: reset SearchState (R171). -/
  | srchinit
  /-- SRCHNEXT: find the next device (R178). -/
  | srchnext
  /-- ENUM: enumerate into the device table (R183). -/
  | enum
  /-- MEMRD: dual-read the record of device-table entry `idx` (R200). -/
  | memrd (idx : Nat)
  /-- DECODE: decode the record buffer (R227). -/
  | decode
  /-- IDENTIFY: enumerate, read, decode, aggregate (R236). -/
  | identify
deriving DecidableEq, Repr

end Sys2Proof
end

