-- ==== Sys2Proof/WellFormed.lean ====
section
/-! DEFINITION. Which commands a command word can hold (30_encoding.md R113, R114, R117). A bit and a byte operand have no
illegal value (60_exceptions.md R267); MEMRD's index field is 3 bits wide. -/

namespace Sys2Proof

/-- The command can be encoded: MEMRD's index is 0..7 (R113, R117 "memrd i with i ∈ 0..7"). -/
def Instr.wf : Instr → Bool
  | .owreset => true
  | .owwbit _ => true
  | .owrbit => true
  | .owwbyte _ => true
  | .owrbyte => true
  | .crc8 _ => true
  | .srchinit => true
  | .srchnext => true
  | .enum => true
  | .memrd idx => decide (idx ≤ 7)
  | .decode => true
  | .identify => true

end Sys2Proof
end

