-- ==== Sys2Proof/Decode.lean ====
section
/-! DEFINITION. Decoding of command words (30_encoding.md R110–R116, R120), total on all words and all byte strings and
rejecting by name, and the encoder (R114, R117). -/

namespace Sys2Proof

/-! ## Fields of format C (R111) -/

/-- OPC = `w[7:0]` (R111). -/
def fieldOpc (w : Word) : Byte := w.extractLsb' 0 8
/-- ARG8 = `w[15:8]` (R111). -/
def fieldArg8 (w : Word) : Byte := w.extractLsb' 8 8
/-- RSV = `w[31:16]` (R111). -/
def fieldRsv (w : Word) : BitVec 16 := w.extractLsb' 16 16

/-- OWWBIT's operand `w[8]` (R113). -/
def operandBit (w : Word) : Bool := w.getLsbD 8
/-- The operand `w[15:8]` of OWWBYTE and CRC8 (R113). -/
def operandByte (w : Word) : Byte := fieldArg8 w
/-- MEMRD's operand `w[10:8]`, a number 0..7 (R113). -/
def operandIndex (w : Word) : Nat := (w.extractLsb' 8 3).toNat

/-! ## The opcode table (R112, R114) -/

/-- One row of the table of R114, with the operand assembly of R113. -/
structure OpRow where
  mask : Word
  pattern : Word
  build : Word → Instr

/-- The table of R114, row for row. -/
def opTable : List OpRow :=
  [ { mask := 0xFFFFFFFF#32, pattern := 0x00000001#32, build := fun _ => .owreset },
    { mask := 0xFFFFFEFF#32, pattern := 0x00000002#32, build := fun w => .owwbit (operandBit w) },
    { mask := 0xFFFFFFFF#32, pattern := 0x00000003#32, build := fun _ => .owrbit },
    { mask := 0xFFFF00FF#32, pattern := 0x00000004#32, build := fun w => .owwbyte (operandByte w) },
    { mask := 0xFFFFFFFF#32, pattern := 0x00000005#32, build := fun _ => .owrbyte },
    { mask := 0xFFFF00FF#32, pattern := 0x00000006#32, build := fun w => .crc8 (operandByte w) },
    { mask := 0xFFFFFFFF#32, pattern := 0x00000010#32, build := fun _ => .srchinit },
    { mask := 0xFFFFFFFF#32, pattern := 0x00000011#32, build := fun _ => .srchnext },
    { mask := 0xFFFFFFFF#32, pattern := 0x00000012#32, build := fun _ => .enum },
    { mask := 0xFFFFF8FF#32, pattern := 0x00000020#32, build := fun w => .memrd (operandIndex w) },
    { mask := 0xFFFFFFFF#32, pattern := 0x00000030#32, build := fun _ => .decode },
    { mask := 0xFFFFFFFF#32, pattern := 0x00000031#32, build := fun _ => .identify } ]

/-- The row matches the word: `(w & mask) == match` (R120). -/
def rowMatches (w : Word) (r : OpRow) : Bool := (w &&& r.mask) == r.pattern

/-- `Decode(w)` of R120: the first row that matches gives the command; a word no row matches is illegal (R115). -/
def decodeWord (w : Word) : Option Instr := (opTable.find? (rowMatches w)).map (fun r => r.build w)

/-! ## Rejections by name (R115) -/

/-- Why bytes are no command: R115's three kinds of illegal word, or too few bytes for the one instruction length of R110. -/
inductive DecodeError where
  /-- `w[31:16] ≠ 0`. -/
  | reservedHigh
  /-- OPC is not in the table of R112. -/
  | unassignedOpcode
  /-- A bit of ARG8 that the command's row marks "must be 0" is set. -/
  | reservedArg
  /-- Fewer than the 4 bytes of a command word. [log 19, DESIGN CHOICE] -/
  | truncated
deriving DecidableEq, Repr

/-- The OPC values R112 assigns. -/
def opcAssigned (o : Byte) : Bool := opTable.any (fun r => fieldOpc r.pattern == o)

/-- The kind of an illegal word (R115). -/
def illegalKind (w : Word) : DecodeError :=
  if opcAssigned (fieldOpc w) then
    if fieldRsv w == 0#16 then .reservedArg else .reservedHigh
  else .unassignedOpcode

/-- A command word from the four bytes a host writes, lowest address first: little-endian lanes (20_memory.md R82). -/
def wordOfBytes (b0 b1 b2 b3 : Byte) : Word := b3 ++ b2 ++ b1 ++ b0

/-- Decode the command at the head of a byte string, rejecting by name; on success the rest of the bytes stays. -/
def decodeBytes : List Byte → Except DecodeError (Instr × List Byte)
  | b0 :: b1 :: b2 :: b3 :: rest =>
    match decodeWord (wordOfBytes b0 b1 b2 b3) with
    | some i => .ok (i, rest)
    | none => .error (illegalKind (wordOfBytes b0 b1 b2 b3))
  | _ => .error .truncated

/-! ## The encoder (R114, R117) -/

/-- The word of a command, from the patterns of R114 and the assembler table of R117. -/
def encode : Instr → Word
  | .owreset => 0x00000001#32
  | .owwbit bit => 0x00000002#32 ||| ((BitVec.ofBool bit).setWidth 32 <<< 8)
  | .owrbit => 0x00000003#32
  | .owwbyte v => 0x00000004#32 ||| (v.setWidth 32 <<< 8)
  | .owrbyte => 0x00000005#32
  | .crc8 v => 0x00000006#32 ||| (v.setWidth 32 <<< 8)
  | .srchinit => 0x00000010#32
  | .srchnext => 0x00000011#32
  | .enum => 0x00000012#32
  | .memrd idx => 0x00000020#32 ||| (BitVec.ofNat 32 idx <<< 8)
  | .decode => 0x00000030#32
  | .identify => 0x00000031#32

/-- Byte k of a word, lane k of R82. -/
def wordByte (w : Word) (k : Nat) : Byte := w.extractLsb' (8 * k) 8

/-- The four bytes of a command word as a host stores them, lowest address first (R82). -/
def encodeBytes (i : Instr) : List Byte :=
  [wordByte (encode i) 0, wordByte (encode i) 1, wordByte (encode i) 2, wordByte (encode i) 3]

/-- The 32-bit command word of the `nbits` low bits of `w`, every bit above them 0. -/
def tableWord (nbits w : Nat) : Word := BitVec.ofNat 32 (w % 2 ^ nbits)

/-- The command the decoder reads from the word of `nbits` bits `w` (bit 0 the least significant bit of the one 32-bit
word): its bytes are laid out as R82 stores them and given to `decodeBytes`. -/
def decodeTableWord (nbits w : Nat) : Option Instr :=
  let x := tableWord nbits w
  match decodeBytes [wordByte x 0, wordByte x 1, wordByte x 2, wordByte x 3] with
  | .ok (i, _) => some i
  | .error _ => none

end Sys2Proof
end

