-- ==== Sys2Proof/Config.lean ====
section
/-! DEFINITION. What is fixed for an instance (00_scope.md R6, R7, R8; 40_bit_protocol.md R134; 70_reset_and_hazards.md
R294) and the free values: what the bus oracle answers (20_memory.md R96) and what a register read returns while BUSY = 1
(70_reset_and_hazards.md R296). -/

namespace Sys2Proof

/-- One event of the bus history H (R95). -/
inductive BusEvent where
  /-- `Reset(p)`: a `BusReset` that returned the presence bit `p`. -/
  | reset (p : Bool)
  /-- `Write(b)`: a `BusWriteSlot(b)`. -/
  | write (b : Bool)
  /-- `Read(b)`: a `BusReadSlot` that returned `b`. -/
  | read (b : Bool)
deriving DecidableEq, Repr

/-! ## Fixed parameters (R6, R8) -/

/-- `ADDR_BITS`: the bit positions a search pass walks, numbered 1..64 (R6). -/
abbrev Config.addrBits : Nat := 64
/-- `CAP`: device-table capacity (R6). -/
abbrev Config.cap : Nat := 5
/-- `REC_LEN`: manufacturing-record length in bytes (R6). -/
abbrev Config.recLen : Nat := 32
/-- `REC_OFF`: the device memory offset the record is read from (R6). -/
abbrev Config.recOff : BitVec 16 := 0x0000#16
/-- `MAX_ATTEMPTS`: two-pass read attempts before ReadVerifyMismatch (R6). -/
abbrev Config.maxAttempts : Nat := 10
/-- `FAMILY_LIMIT`: a search position p is in the family byte iff p < 9 (R6). -/
abbrev Config.familyLimit : Nat := 9

/-! ## Open parameters (R7) -/

/-- The slot durations in microseconds (R7, R134). -/
structure Timing where
  /-- `T_RSTL`: the assertion interval of a reset. -/
  rstl : Nat
  /-- `T_PDS`: the presence-detect window. -/
  pds : Nat
  /-- `T_RSTH`: the recovery after the presence sample. -/
  rsth : Nat
  /-- `T_W1L`: the low pulse of a written 1. -/
  w1l : Nat
  /-- `T_REC1`: the rest of the slot of a written 1. -/
  rec1 : Nat
  /-- `T_W0L`: the low pulse of a written 0. -/
  w0l : Nat
  /-- `T_REC0`: the rest of the slot of a written 0. -/
  rec0 : Nat
  /-- `T_RL`: the low pulse of a read slot. -/
  rl : Nat
  /-- `T_MSR`: from the release to the sample point of a read slot. -/
  msr : Nat
  /-- `T_RREC`: the rest of a read slot. -/
  rrec : Nat
deriving DecidableEq, Repr

/-- The constraints R134 puts on every legal configuration: each duration at least 1 µs, a short pulse for a written 1 and
for a read, and one slot length `T_SLOT` for the three slots. -/
def Timing.wf (t : Timing) : Bool :=
  decide (1 ≤ t.rstl ∧ 1 ≤ t.pds ∧ 1 ≤ t.rsth ∧ 1 ≤ t.w1l ∧ 1 ≤ t.rec1 ∧ 1 ≤ t.w0l ∧ 1 ≤ t.rec0 ∧
    1 ≤ t.rl ∧ 1 ≤ t.msr ∧ 1 ≤ t.rrec ∧ t.w1l < t.w0l ∧ t.rl < t.w0l ∧
    t.w1l + t.rec1 = t.w0l + t.rec0 ∧ t.w0l + t.rec0 = t.rl + t.msr + t.rrec)

/-- The three command bytes the block puts on the bus (R7): `CMD_SEARCH_ROM`, `CMD_MATCH_ROM`, `CMD_READ_MEM`. -/
structure RomCommands where
  searchRom : Byte
  matchRom : Byte
  readMem : Byte
deriving DecidableEq, Repr

/-- An entry of `BOARD_CATALOG` (R7): the name prefix, the role code and the board id. -/
structure BoardEntry where
  name : List Byte
  role : Byte
  boardId : Byte
deriving DecidableEq, Repr

/-- An entry of `VENDOR_CATALOG` (R7): the name prefix and the vendor id. -/
structure VendorEntry where
  name : List Byte
  vendorId : Byte
deriving DecidableEq, Repr

/-- A catalog prefix is non-empty, has no 0x20 byte and is at most `limit` bytes long (R7). -/
def catalogNameWf (limit : Nat) (name : List Byte) : Bool :=
  !name.isEmpty && decide (name.length ≤ limit) && name.all (· != 0x20#8)

/-- Everything fixed for one built instance (R7, R294). The model takes each parameter as an argument: it stands in the
state (`State.cfg`) because the step has no other argument, and no step writes it. [log 1, DEDUCED] -/
structure Config where
  /-- `FAMILIES`: the three supported family bytes, without repeats. -/
  families : List Byte
  /-- The ROM command bytes. -/
  cmds : RomCommands
  /-- `BOARD_CATALOG`, in table order. -/
  boardCatalog : List BoardEntry
  /-- `VENDOR_CATALOG`, in table order. -/
  vendorCatalog : List VendorEntry
  /-- `DEFAULT_SERIAL`. -/
  defaultSerial : Word
  /-- `DEFAULT_REVISION`. -/
  defaultRevision : Word
  /-- `NOMORE_RESETS_STATE`: whether the "no more devices" call resets SearchState (R179). -/
  noMoreResetsState : Bool
  /-- The slot durations. -/
  timing : Timing
  /-- `CLK_PER_US`: clock cycles per microsecond (R270). -/
  clkPerUs : Nat
  /-- `BASE`: the address of the register block (R81, R90). -/
  base : Nat
deriving DecidableEq, Repr

/-- A legal configuration (R7, R134): three distinct families, well-formed catalogs, legal timing, a clock; and a BASE that is a
multiple of 4, which no rule states. [log 20, DESIGN CHOICE] -/
def Config.wf (c : Config) : Bool :=
  decide (c.families.length = 3) && decide c.families.Nodup &&
  c.boardCatalog.all (fun e => catalogNameWf 12 e.name) &&
  c.vendorCatalog.all (fun e => catalogNameWf 10 e.name) &&
  c.timing.wf && decide (1 ≤ c.clkPerUs) && decide (c.base % 4 = 0)

/-! ## Free values -/

/-- The level of DQ at a sample that no environment of the state fixes (R96, I17): any bit. It is applied to the number of
samples taken so far and to the bus history, so that no two samples are tied to each other. [log 3, DEDUCED] -/
opaque Config.freeSample : Nat → List BusEvent → Bool

/-- What a register read returns while BUSY = 1, but for STATUS.BUSY and STATUS.OVR (R296, I10): any word. It is applied to
the number of such reads so far and to the offset read. [log 5, DEDUCED] -/
opaque Config.freeRead : Nat → Nat → Word

/-- `BOARD_CATALOG` of the instance after reset: OPEN, the spec gives no value (D33). -/
opaque Config.openBoardCatalog : List BoardEntry
/-- `VENDOR_CATALOG` of the instance after reset: OPEN, the spec gives no value (D33). -/
opaque Config.openVendorCatalog : List VendorEntry
/-- `DEFAULT_SERIAL` of the instance after reset: OPEN (D38). -/
opaque Config.openDefaultSerial : Word
/-- `DEFAULT_REVISION` of the instance after reset: OPEN (D38). -/
opaque Config.openDefaultRevision : Word
/-- `CLK_PER_US` of the instance after reset, less one: OPEN (D13). -/
opaque Config.openClk : Nat
/-- `BASE` of the instance after reset, divided by 4: OPEN (D2). -/
opaque Config.openBase : Nat

/-! ## The instance that reset starts from -/

/-- The default slot durations of R7 [general knowledge in the spec, I3]. -/
def Timing.default : Timing :=
  { rstl := 480, pds := 70, rsth := 410, w1l := 6, rec1 := 64, w0l := 60, rec0 := 10, rl := 6, msr := 9, rrec := 55 }

/-- The default ROM command bytes of R7 [general knowledge in the spec, I5]. -/
def RomCommands.default : RomCommands :=
  { searchRom := 0xF0#8, matchRom := 0x55#8, readMem := 0xF0#8 }

/-- The instance of `State.reset`: R7's defaults where it gives one, an open constant where it gives none. [log 2,
PRESUMED] -/
def Config.built : Config :=
  { families := [0x2D#8, 0x23#8, 0x43#8]
    cmds := RomCommands.default
    boardCatalog := Config.openBoardCatalog.filter (fun e => catalogNameWf 12 e.name)
    vendorCatalog := Config.openVendorCatalog.filter (fun e => catalogNameWf 10 e.name)
    defaultSerial := Config.openDefaultSerial
    defaultRevision := Config.openDefaultRevision
    noMoreResetsState := false
    timing := Timing.default
    clkPerUs := Config.openClk + 1
    base := 4 * Config.openBase }

end Sys2Proof
end

