-- ==== Sys2Proof/Machine/State.lean ====
section
/-! DEFINITION. The state of OWID (10_state.md R32, R50–R52; 20_memory.md R95), the inputs the outside world gives it
(60_exceptions.md R275; 70_reset_and_hazards.md R291), the reasons a step can stop, and the state after reset
(70_reset_and_hazards.md R290). -/

namespace Sys2Proof.Machine

/-! ## Error codes -/

/-- The error codes of R260, by their names there. Code 0xE is reserved and never written, so it has no name. [log 15,
DEDUCED] -/
inductive ErrCode where
  /-- 0x0 `E_NONE`. -/
  | eNone
  /-- 0x1 `E_BUS_RESET_TIMEOUT`. -/
  | eBusResetTimeout
  /-- 0x2 `E_BUS_IDLE_DURING_SEARCH`. -/
  | eBusIdleDuringSearch
  /-- 0x3 `E_SEARCH_NO_RESPONSE`. -/
  | eSearchNoResponse
  /-- 0x4 `E_CHECKSUM_MISMATCH`. -/
  | eChecksumMismatch
  /-- 0x5 `E_ZERO_ADDRESS`. -/
  | eZeroAddress
  /-- 0x6 `E_READ_VERIFY_MISMATCH`. -/
  | eReadVerifyMismatch
  /-- 0x7 `E_UNSUPPORTED_FAMILY`. -/
  | eUnsupportedFamily
  /-- 0x8 `E_UNKNOWN_BOARD_NAME`. -/
  | eUnknownBoardName
  /-- 0x9 `E_UNKNOWN_VENDOR_NAME`. -/
  | eUnknownVendorName
  /-- 0xA `E_UNKNOWN_BOARD_ROLE`. -/
  | eUnknownBoardRole
  /-- 0xB `E_NO_DEVICE_DECODED`. -/
  | eNoDeviceDecoded
  /-- 0xC `E_ILLEGAL_COMMAND`. -/
  | eIllegalCommand
  /-- 0xD `E_BAD_OPERAND`. -/
  | eBadOperand
  /-- 0xF `E_NOT_PROCESSED`: only in DEVERR, never in ERR. -/
  | eNotProcessed
deriving DecidableEq, Repr

/-! ## The bus port -/

/-- Where a device of the ideal-device environment is in its protocol (R97). -/
inductive DevPhase where
  /-- Off the bus until the next reset. -/
  | inactive
  /-- After a reset: the bits of the ROM command byte received so far, first bit first. -/
  | awaitRom (bits : List Bool)
  /-- Taking part in a search at position `pos` (1..64), `reads` of its two reads answered. -/
  | searching (pos : Nat) (reads : Nat)
  /-- Match-address: `n` address bits received, all equal to its own so far. -/
  | matching (n : Nat)
  /-- Selected: the bits of the memory command byte received so far. -/
  | awaitMem (bits : List Bool)
  /-- Read-memory: the bits of the 2-byte offset received so far. -/
  | awaitOffset (bits : List Bool)
  /-- Sending its memory: `n` is the number of the next bit, counted from bit 0 of memory byte 0. -/
  | sending (n : Nat)
deriving DecidableEq, Repr

/-- A device of the ideal-device environment (R97): its address, its memory from offset 0, its phase. -/
structure Device where
  addr : Address
  mem : List Byte
  phase : DevPhase
deriving DecidableEq, Repr

/-- What answers the samples of DQ: the environment, not OWID (R3, R96, R97). Statements about OWID alone hold for every
value of it. -/
inductive Line where
  /-- The levels of the samples to come, first first; after the last one a sample is a free value (R96). -/
  | script (levels : List Bool)
  /-- The ideal-device environment (R97) with these devices, which know these command bytes. -/
  | devices (cmds : RomCommands) (attached : List Device)
deriving DecidableEq, Repr

/-- The bus port: the pin, what the bus primitives write (R130–R132), and what answers them. [log 6, DEDUCED] -/
structure Bus where
  /-- `dq_oe`: OWID drives DQ low (R51). -/
  dqOe : Bool
  /-- STATUS.PRESENT: the presence result of the last `BusReset` (R35, R130). -/
  present : Bool
  /-- The bus history H (R95), NEWEST EVENT FIRST. -/
  history : List BusEvent
  /-- The environment of DQ. -/
  line : Line
  /-- The model's own counter of the samples taken: the argument of the free samples. -/
  samples : Nat
deriving DecidableEq, Repr

/-! ## The blocks -/

/-- SearchState (R38): `SS.LD` 0..64, `SS.LFD` 0..8, `SS.LDF`. -/
structure SearchState where
  ld : Nat
  lfd : Nat
  ldf : Bool
deriving DecidableEq, Repr

/-- The source's "(0,0,false)" (R170). -/
def SearchState.init : SearchState := { ld := 0, lfd := 0, ldf := false }

/-- The BoardIdentity of R43. -/
structure Identity where
  role : Byte
  boardId : Byte
  vendorId : Byte
  revCode : Byte
  revId : Byte
  bomRev : Byte
deriving DecidableEq, Repr

/-- All six fields 0 (R227, R290). -/
def Identity.zero : Identity :=
  { role := 0x00#8, boardId := 0x00#8, vendorId := 0x00#8, revCode := 0x00#8, revId := 0x00#8, bomRev := 0x00#8 }

/-- The engine (R52): idle, or running an accepted command. While it runs, the transient state (R50) is what the command
has met on the bus: the bus port as it stood when the command was accepted, and the number of bus primitives done since.
[log 7, DEDUCED] -/
inductive Engine where
  | idle
  | running (cmd : Instr) (start : Bus) (primitives : Nat)
deriving DecidableEq, Repr

/-! ## Inputs -/

/-- One host access to the register block (R10): `width` bytes at `offset` from `BASE`. -/
inductive HostAccess where
  /-- `MemRead(offset, width)`. -/
  | read (offset width : Nat)
  /-- `MemWrite(offset, width, v)`. -/
  | write (offset width : Nat) (v : Word)
deriving DecidableEq, Repr

/-- One turn of the interleaving of the host, the platform's reset input and the engine (R275, R291). [log 8,
DESIGN CHOICE] -/
inductive Turn where
  /-- A host access; a command that it makes OWID accept runs to its completion in the same step (R52, R275). -/
  | access (a : HostAccess)
  /-- A host write of a word to CMD; a command that it makes OWID accept is only started, and later engine steps run it. -/
  | issue (w : Word)
  /-- One engine step: one bus primitive of the running command, or the whole of a command without one (R275). -/
  | engine
  /-- The level of the reset input changes to asserted (true) or released (false) (R291). -/
  | resetPin (asserted : Bool)
deriving DecidableEq, Repr

/-! ## The state -/

/-- The state: one field per item of R32 (`busy` is derived from `engine`, `present` and `dq_oe` stand in `bus`), the bus
history (in `bus`), and the model's own fields, which stand last. [log 6, DEDUCED; log 12, DESIGN CHOICE] -/
structure State where
  /-- The parameters of the instance (R7): no step writes it (R294). -/
  cfg : Config
  /-- `cmd_last` (R34). -/
  cmdLast : Word
  /-- `engine`, and with it `busy` (R35, R52). -/
  engine : Engine
  /-- `done` (R35). -/
  done : Bool
  /-- `found` (R35). -/
  found : Bool
  /-- `ovr` (R35). -/
  ovr : Bool
  /-- `id_valid` (R35). -/
  idValid : Bool
  /-- `defaults` (R35). -/
  defaults : Bool
  /-- `err` (R35). -/
  err : ErrCode
  /-- `data` (R36). -/
  data : Byte
  /-- `crc` (R37). -/
  crc : Byte
  /-- `SS` (R38). -/
  ss : SearchState
  /-- `ROM[0..7]` (R39). -/
  rom : Address
  /-- `count` (R40). -/
  count : Nat
  /-- `full` (R40). -/
  full : Bool
  /-- `DEVTAB[0..4]` (R41). -/
  devtab : Vector Address 5
  /-- `RECBUF[0..31]` (R42). -/
  recbuf : Record
  /-- `ident` (R43). -/
  ident : Identity
  /-- `serial` (R44). -/
  serial : Word
  /-- `revision` (R44). -/
  revision : Word
  /-- `attempts` (R45). -/
  attempts : Nat
  /-- `deverr[0..4]` (R46). -/
  deverr : Vector ErrCode 5
  /-- `missing` (R46): bit 0 CPU, bit 1 Display, bit 2 Carrier. -/
  missing : BitVec 3
  /-- `okcount` (R46). -/
  okcount : Nat
  /-- The bus port: `dq_oe` (R51), `present` (R35), H (R95) and the environment (R96). -/
  bus : Bus
  /-- The reset input is asserted (R291). -/
  inReset : Bool
  /-- The model's own: the word the last host read returned. -/
  readData : Word
  /-- The model's own counter of the reads whose value is free: the argument of the free reads. -/
  freeReads : Nat
  /-- The model's own: the turns of the outside world still to come, first first. -/
  pending : List Turn
deriving DecidableEq, Repr

/-- `busy` = 1 iff `engine ≠ Idle` (R52). -/
def State.busy (s : State) : Bool :=
  match s.engine with
  | .idle => false
  | .running _ _ _ => true

/-! ## Stops -/

/-- The faults of a step. There is none: OWID has no trap, and every error is a code in ERR at a completion, after which the
block goes on (R262, R268). The type is empty, so that no step can answer a fault; this is safe. [log 18, DEDUCED] -/
inductive Fault where
deriving DecidableEq, Repr

/-- The refusals of a step. -/
inductive Refusal where
  /-- Raised by `exec` for an instruction that has no meaning yet; safe, as nothing is then proved about it. -/
  | notModelled (mnemonic : String)
  /-- Raised by a host access that is not an aligned 32-bit one: the spec gives it no meaning, and "a model refuses it"
  (R83, I11, D3); safe, as the host agent then has no step. -/
  | accessNotAlignedWord
  /-- Raised by a host access outside the 256 offsets of the block: it does not reach OWID, or reaches an alias that the
  spec leaves open (R81); safe, as the host agent then has no step. [log 9, DESIGN CHOICE] -/
  | accessOutsideBlock
  /-- Raised by a host program (not by OWID) that branches on a name no earlier `rd` has set (R119); safe. [log 16,
  DESIGN CHOICE] -/
  | hostNameUnset (name : String)
  /-- Raised by a host program (not by OWID) that jumps to a label it does not have (R119); safe. [log 16, DESIGN
  CHOICE] -/
  | hostLabelMissing (label : String)
deriving DecidableEq, Repr

/-! ## Reset -/

/-- The bus port after reset (R290): DQ released, no presence, H empty. The environment is the free oracle. -/
def Bus.reset : Bus := { dqOe := false, present := false, history := [], line := .script [], samples := 0 }

/-- The state after hardware reset (R290): every item of R32 is 0, the engine is idle, DQ is released and H is empty. The
instance is R7's, and no input is pending. [log 2, PRESUMED; log 12, DESIGN CHOICE] -/
def State.reset : State :=
  { cfg := Config.built
    cmdLast := 0x00000000#32
    engine := .idle
    done := false
    found := false
    ovr := false
    idValid := false
    defaults := false
    err := .eNone
    data := 0x00#8
    crc := 0x00#8
    ss := SearchState.init
    rom := 0#64
    count := 0
    full := false
    devtab := Vector.replicate 5 0#64
    recbuf := Vector.replicate 32 0x00#8
    ident := Identity.zero
    serial := 0x00000000#32
    revision := 0x00000000#32
    attempts := 0
    deverr := Vector.replicate 5 .eNone
    missing := 0#3
    okcount := 0
    bus := Bus.reset
    inReset := false
    readData := 0x00000000#32
    freeReads := 0
    pending := [] }

end Sys2Proof.Machine
end

