-- ==== Sys2Proof/Machine/Environment.lean ====
section
/-! DEFINITION. The environment of DQ: what answers a sample (20_memory.md R96) and the ideal-device environment
(20_memory.md R97, 40_bit_protocol.md R142). It is no part of OWID. Helpers on bits, bytes and addresses stand first. -/

namespace Sys2Proof.Machine

/-! ## Bits, bytes, addresses -/

/-- The bits of a byte, least-significant first (R86). -/
def byteBits (v : Byte) : List Bool := (List.range 8).map (fun i => v.getLsbD i)

/-- The number whose bits are these, least-significant first. -/
def natOfBits : List Bool → Nat
  | [] => 0
  | b :: bs => b.toNat + 2 * natOfBits bs

/-- The byte whose bits are these, least-significant first (R86). -/
def byteOfBits (bits : List Bool) : Byte := BitVec.ofNat 8 (natOfBits bits)

/-- Byte k (0..7) of an address (R39). -/
def addrByte (a : Address) (k : Nat) : Byte := a.extractLsb' (8 * k) 8

/-- The 8 bytes of an address in the order 0..7 (R86). -/
def addrBytes (a : Address) : List Byte := (List.range 8).map (addrByte a)

/-- The bit of an address at search position `pos` (1..64): bit (pos-1) mod 8 of byte (pos-1) div 8 (R86). -/
def addrBit (a : Address) (pos : Nat) : Bool := a.getLsbD (pos - 1)

/-- The address with the bit at search position `pos` (1..64) set to `dir` (R175 "ROM[k][j] <- dir"). -/
def setAddrBit (a : Address) (pos : Nat) (dir : Bool) : Address :=
  if dir then a ||| (1#64 <<< (pos - 1)) else a &&& ~~~(1#64 <<< (pos - 1))

/-- The search key of an address: its bits read with position 1 as the most significant (R181). -/
def searchKey (a : Address) : Nat := a.reverse.toNat

/-! ## Ideal devices (R97) -/

/-- The bit with number `n` of a device's memory, bytes ascending and bits LSB first; a byte past the end reads 0xFF,
as 95_test_vectors.md (conventions) says of its devices of 32 bytes. [for a shorter memory: log 4, DESIGN CHOICE] -/
def memBit (mem : List Byte) (n : Nat) : Bool := (mem.getD (n / 8) 0xFF#8).getLsbD (n % 8)

/-- The level at which a device leaves the line in a read slot: false iff it drives DQ low (R97, R142). -/
def deviceLevel (d : Device) : Bool :=
  match d.phase with
  | .searching pos 0 => addrBit d.addr pos
  | .searching pos 1 => !addrBit d.addr pos
  | .sending n => memBit d.mem n
  | _ => true

/-- After the ROM command byte (R97): a search starts at position 1, match-address waits for 64 address bits; with any other
byte the device leaves the bus until the next reset. [log 4, DESIGN CHOICE] -/
def phaseAfterRom (cmds : RomCommands) (bits : List Bool) : DevPhase :=
  if bits.length < 8 then .awaitRom bits
  else if byteOfBits bits == cmds.searchRom then .searching 1 0
  else if byteOfBits bits == cmds.matchRom then .matching 0
  else .inactive

/-- After the memory command byte (R97); with any other byte the device leaves the bus until the next reset. [log 4, DESIGN
CHOICE] -/
def phaseAfterMem (cmds : RomCommands) (bits : List Bool) : DevPhase :=
  if bits.length < 8 then .awaitMem bits
  else if byteOfBits bits == cmds.readMem then .awaitOffset []
  else .inactive

/-- After the bits of the 2-byte offset, low byte first (R97): the device sends from there. -/
def phaseAfterOffset (bits : List Bool) : DevPhase :=
  if bits.length < 16 then .awaitOffset bits else .sending (8 * natOfBits bits)

/-- A device's phase after an event of the bus (R97). An event that R97 gives the phase no meaning for takes the device off the
bus, or leaves its phase. [log 4, DESIGN CHOICE] -/
def phaseAfter (cmds : RomCommands) (d : Device) (e : BusEvent) : DevPhase :=
  match e, d.phase with
  | .reset _, _ => .awaitRom []
  | .write b, .awaitRom bits => phaseAfterRom cmds (bits ++ [b])
  | .write b, .searching pos 2 =>
    if addrBit d.addr pos == b && decide (pos < Config.addrBits) then .searching (pos + 1) 0 else .inactive
  | .write _, .searching _ _ => .inactive
  | .write b, .matching n =>
    if d.addr.getLsbD n == b then (if n + 1 < Config.addrBits then .matching (n + 1) else .awaitMem []) else .inactive
  | .write b, .awaitMem bits => phaseAfterMem cmds (bits ++ [b])
  | .write b, .awaitOffset bits => phaseAfterOffset (bits ++ [b])
  | .read _, .searching pos 0 => .searching pos 1
  | .read _, .searching pos 1 => .searching pos 2
  | .read _, .sending n => .sending (n + 1)
  | _, p => p

/-- A device after an event of the bus. -/
def deviceAfter (cmds : RomCommands) (e : BusEvent) (d : Device) : Device := { d with phase := phaseAfter cmds d e }

/-! ## The line -/

/-- The event needed a sample of DQ (R130–R132: a write slot takes none). -/
def sampled : BusEvent → Bool
  | .reset _ => true
  | .write _ => false
  | .read _ => true

/-- The environment after an event. -/
def lineAfter (e : BusEvent) : Line → Line
  | .script levels => .script (if sampled e then levels.tail else levels)
  | .devices cmds ds => .devices cmds (ds.map (deviceAfter cmds e))

/-- The level sampled in the presence-detect window: the script's next level or a free value (R96); with ideal devices it is
low iff at least one is attached (R97). -/
def presenceLevel (b : Bus) : Bool :=
  match b.line with
  | .script [] => Config.freeSample b.samples b.history
  | .script (l :: _) => l
  | .devices _ ds => ds.isEmpty

/-- The level sampled in a read slot: the script's next level or a free value (R96); with ideal devices the wired-AND of what
they leave on the line (R97, R142). -/
def readLevel (b : Bus) : Bool :=
  match b.line with
  | .script [] => Config.freeSample b.samples b.history
  | .script (l :: _) => l
  | .devices _ ds => ds.all deviceLevel

end Sys2Proof.Machine
end

