-- ==== Sys2Proof/Machine/Ops.lean ====
section
/-! DEFINITION. The shared operations: the bus primitives (40_bit_protocol.md R130–R136), acceptance and completion of a
command (60_exceptions.md R261, R266), which is where every error of OWID goes (it has no trap: R262), and hardware reset
(70_reset_and_hazards.md R290–R292). -/

namespace Sys2Proof.Machine

/-! ## The pin and the history -/

/-- `dq_oe <- 1`: OWID drives DQ low (R51). -/
def driveLow (b : Bus) : Bus := { b with dqOe := true }

/-- `dq_oe <- 0`: OWID releases DQ (R51). -/
def releaseDq (b : Bus) : Bus := { b with dqOe := false }

/-- The presence result an event leaves in STATUS.PRESENT: only `BusReset` writes it (R130). -/
def presentAfter (e : BusEvent) (p : Bool) : Bool :=
  match e with
  | .reset q => q
  | .write _ => p
  | .read _ => p

/-- A bus primitive ends: its event is appended to H (R95), PRESENT is written if it was a reset (R130), and the environment
goes on. -/
def busRecord (e : BusEvent) (b : Bus) : Bus :=
  { b with
    present := presentAfter e b.present
    history := e :: b.history
    line := lineAfter e b.line
    samples := if sampled e then b.samples + 1 else b.samples }

/-! ## The bus primitives (R11) -/

/-- `BusReset() -> p` (R130): p = 1 iff the line is sampled low in the presence-detect window. -/
def busReset (b : Bus) : Bool × Bus :=
  let b1 := releaseDq (driveLow b)
  let p := !presenceLevel b1
  (p, busRecord (.reset p) b1)

/-- `BusWriteSlot(v)` (R131): the line is not sampled. -/
def busWriteSlot (v : Bool) (b : Bus) : Bus := busRecord (.write v) (releaseDq (driveLow b))

/-- `BusReadSlot() -> b` (R132): the level sampled after the release. -/
def busReadSlot (b : Bus) : Bool × Bus :=
  let b1 := releaseDq (driveLow b)
  let v := readLevel b1
  (v, busRecord (.read v) b1)

/-- Write slots for these bits, in this order. -/
def busWriteBits : List Bool → Bus → Bus
  | [], b => b
  | x :: xs, b => busWriteBits xs (busWriteSlot x b)

/-- `n` read slots; the bits in the order read. -/
def busReadBits : Nat → Bus → List Bool × Bus
  | 0, b => ([], b)
  | n + 1, b =>
    let (x, b1) := busReadSlot b
    let (xs, b2) := busReadBits n b1
    (x :: xs, b2)

/-- `WriteByte(v)` (R135): 8 write slots, bit 0 first. -/
def busWriteByte (v : Byte) (b : Bus) : Bus := busWriteBits (byteBits v) b

/-- `ReadByte() -> v` (R136): 8 read slots, the first bit read is bit 0. -/
def busReadByte (b : Bus) : Byte × Bus :=
  let (xs, b1) := busReadBits 8 b
  (byteOfBits xs, b1)

/-- `WriteByte` for each byte, in this order. -/
def busWriteBytes : List Byte → Bus → Bus
  | [], b => b
  | v :: vs, b => busWriteBytes vs (busWriteByte v b)

/-- `n` times `ReadByte`; the bytes in the order read. -/
def busReadBytes : Nat → Bus → List Byte × Bus
  | 0, b => ([], b)
  | n + 1, b =>
    let (v, b1) := busReadByte b
    let (vs, b2) := busReadBytes n b1
    (v :: vs, b2)

theorem busReadBytes_length (n : Nat) (b : Bus) : (busReadBytes n b).1.length = n := by
  induction n generalizing b with
  | zero => rfl
  | succ n ih => simp [busReadBytes, ih]

/-- 32 times `ReadByte`: the n-th byte read is record byte n (R88, R201). -/
def busReadRecord (b : Bus) : Record × Bus :=
  (⟨⟨(busReadBytes Config.recLen b).1⟩, busReadBytes_length _ b⟩, (busReadBytes Config.recLen b).2)

/-- The bus port after these events (oldest first) have taken place on it: each is recorded, with DQ released again. -/
def busReplay : List BusEvent → Bus → Bus
  | [], b => b
  | e :: es, b => busReplay es (busRecord e (releaseDq (driveLow b)))

/-- H in the order of R95: oldest event first. -/
def busHistory (b : Bus) : List BusEvent := b.history.reverse

/-! ## Acceptance and completion -/

/-- The state with this bus port. -/
def setBus (b : Bus) (s : State) : State := { s with bus := b }

/-- `finish(code)` (R261): ERR is the code, the engine is idle (so BUSY = 0), DONE is set. -/
def finish (code : ErrCode) (s : State) : State := { s with err := code, engine := .idle, done := true }

/-- Acceptance of a word that decodes to the command `i` (R261): `cmd_last`, DONE cleared, the engine at the command's start. -/
def acceptCommand (w : Word) (i : Instr) (s : State) : State :=
  { s with cmdLast := w, done := false, engine := .running i s.bus 0 }

/-- Acceptance of an illegal word (R261, R266): it completes at once with `E_ILLEGAL_COMMAND`; BUSY stays 0. -/
def acceptIllegal (w : Word) (s : State) : State :=
  { s with cmdLast := w, err := .eIllegalCommand, done := true }

/-! ## Hardware reset -/

/-- The state of OWID at reset (R290), which abandons a running command (R292). What is not OWID's stays: the instance's
parameters, the environment of DQ, the inputs still to come and the model's own fields. [log 11, DEDUCED] -/
def hardReset (s : State) : State :=
  { State.reset with
    cfg := s.cfg
    bus := { Bus.reset with line := s.bus.line, samples := s.bus.samples }
    inReset := s.inReset
    readData := s.readData
    freeReads := s.freeReads
    pending := s.pending }

/-- The reset input changes to `asserted` (R291): asserting it puts OWID in the reset state, releasing it lets it go on from
there. -/
def resetInput (asserted : Bool) (s : State) : State :=
  if asserted then { hardReset s with inReset := true } else { s with inReset := false }

end Sys2Proof.Machine
end

