-- ==== Sys2Proof/Machine/Flags.lean ====
section
/-! DEFINITION. The status flags and the error code (10_state.md R35, R53; 60_exceptions.md R260, R265): how STATUS, DEVCOUNT's
FULL and IDDIAG's MISSING are laid out and cleared. OWID has no arithmetic flags (R53). -/

namespace Sys2Proof.Machine

/-- The 4-bit numbers of the error codes (R260). -/
def errBits : ErrCode → BitVec 4
  | .eNone => 0x0#4
  | .eBusResetTimeout => 0x1#4
  | .eBusIdleDuringSearch => 0x2#4
  | .eSearchNoResponse => 0x3#4
  | .eChecksumMismatch => 0x4#4
  | .eZeroAddress => 0x5#4
  | .eReadVerifyMismatch => 0x6#4
  | .eUnsupportedFamily => 0x7#4
  | .eUnknownBoardName => 0x8#4
  | .eUnknownVendorName => 0x9#4
  | .eUnknownBoardRole => 0xA#4
  | .eNoDeviceDecoded => 0xB#4
  | .eIllegalCommand => 0xC#4
  | .eBadOperand => 0xD#4
  | .eNotProcessed => 0xF#4

/-- A one-bit field at bit `lo` of a register word. -/
def flagAt (b : Bool) (lo : Nat) : Word := (BitVec.ofBool b).setWidth 32 <<< lo

/-- A field of any width with its lowest bit at bit `lo` of a register word. -/
def fieldAt {w : Nat} (v : BitVec w) (lo : Nat) : Word := v.setWidth 32 <<< lo

/-- The STATUS word (R35): BUSY, DONE, PRESENT, FOUND, OVR, ID_VALID, DEFAULTS and ERR; the reserved bits are 0. -/
def statusWord (s : State) : Word :=
  flagAt s.busy 0 ||| flagAt s.done 1 ||| flagAt s.bus.present 2 ||| flagAt s.found 3 ||| flagAt s.ovr 4 |||
  flagAt s.idValid 5 ||| flagAt s.defaults 6 ||| fieldAt (errBits s.err) 8

/-- The bits of STATUS that are defined while BUSY = 1: BUSY and OVR (R296). -/
def statusDefinedWhileBusy : Word := 0x00000011#32

/-- A host write to STATUS (R35): `done <- done & ~w[1]` and `ovr <- ovr & ~w[4]`; every other bit of w is ignored. -/
def writeStatus (w : Word) (s : State) : State :=
  { s with done := s.done && !w.getLsbD 1, ovr := s.ovr && !w.getLsbD 4 }

/-- OVR is set: a write to CMD or CRC while BUSY = 1 (R295). -/
def setOverrun (s : State) : State := { s with ovr := true }

/-- `reg[FOUND] <- b` (R178, R183, R171). -/
def setFound (b : Bool) (s : State) : State := { s with found := b }

/-- The flag FULL of an enumeration (R184): the table is full and the last pass did not end the search. -/
def fullFlag (n : Nat) (ss : SearchState) : Bool := n == Config.cap && !ss.ldf

/-- MISSING from the roles folded (R46, R236): bit 0 CPU, bit 1 Display, bit 2 Carrier; `(~seen) & 0b111`. -/
def missingFlags (seen : BitVec 3) : BitVec 3 := ~~~seen

end Sys2Proof.Machine
end

