-- ==== Sys2Proof/Machine/Operands.lean ====
section
/-! DEFINITION. What a command's operand names (30_encoding.md R111, R113; 43_memory_read.md R200; 60_exceptions.md R267). A bit
and a byte operand are values as they stand; MEMRD's index names an entry of the device table. -/

namespace Sys2Proof.Machine

/-- The device-table entry an index names: none when `idx >= count`, which is `E_BAD_OPERAND` (R200, R267).
[log 13, DESIGN CHOICE, in states outside the ranges of R32] -/
def deviceOperand (idx : Nat) (s : State) : Option Address :=
  if idx < s.count then s.devtab[idx]? else none

/-- The device's family byte is one of FAMILIES (R200 "if a[0] not in FAMILIES"). -/
def familySupported (cfg : Config) (a : Address) : Bool := cfg.families.contains (addrByte a 0)

end Sys2Proof.Machine
end

