-- ==== Sys2Proof/Machine/BitProtocol.lean ====
section
/-! DEFINITION. BitProtocol: OWRESET, OWWBIT, OWRBIT, OWWBYTE, OWRBYTE (40_bit_protocol.md R137–R141). -/

namespace Sys2Proof.Machine

/-- OWRESET (R137). -/
def execOwreset (s : State) : Host.Outcome State Fault Refusal :=
  let (p, b) := busReset s.bus
  .next (finish (if p then .eNone else .eBusResetTimeout) (setBus b s))

/-- OWWBIT (R138). -/
def execOwwbit (bit : Bool) (s : State) : Host.Outcome State Fault Refusal :=
  .next (finish .eNone (setBus (busWriteSlot bit s.bus) s))

/-- OWRBIT (R139): DATA receives the bit, zero-extended. -/
def execOwrbit (s : State) : Host.Outcome State Fault Refusal :=
  let (v, b) := busReadSlot s.bus
  .next (finish .eNone { setBus b s with data := (BitVec.ofBool v).setWidth 8 })

/-- OWWBYTE (R140). -/
def execOwwbyte (v : Byte) (s : State) : Host.Outcome State Fault Refusal :=
  .next (finish .eNone (setBus (busWriteByte v s.bus) s))

/-- OWRBYTE (R141): DATA receives the byte. -/
def execOwrbyte (s : State) : Host.Outcome State Fault Refusal :=
  let (v, b) := busReadByte s.bus
  .next (finish .eNone { setBus b s with data := v })

end Sys2Proof.Machine
end

