-- ==== Sys2Proof/Machine/MemoryRead.lean ====
section
/-! DEFINITION. MemoryReader: MEMRD (43_memory_read.md R200–R206). -/

namespace Sys2Proof.Machine

/-- The bytes a read pass sends after its reset (R201): the match-address command, the address bytes 0..7, the read-memory
command, the starting offset low byte first (R86, R87). -/
def readPassHeader (cmds : RomCommands) (a : Address) : List Byte :=
  cmds.matchRom :: addrBytes a ++
    [cmds.readMem, Config.recOff.extractLsb' 0 8, Config.recOff.extractLsb' 8 8]

/-- `ReadPass(a)` (R201): none when the reset sees no presence. -/
def readPass (cmds : RomCommands) (a : Address) (b : Bus) : Option Record × Bus :=
  let (p, b1) := busReset b
  if p then
    let (r, b2) := busReadRecord (busWriteBytes (readPassHeader cmds a) b1)
    (some r, b2)
  else (none, b1)

/-- What the attempts of MEMRD answer: the code, ATTEMPTS, the record on success, the bus. -/
structure ReadOut where
  code : ErrCode
  attempts : Nat
  record : Option Record
  bus : Bus
deriving DecidableEq, Repr

/-- The attempts of MEMRD (R200, R202) with `n` left and `att` started: two passes and a comparison each; a reset failure
ends the command without a retry (R204). -/
def readAttempts (cmds : RomCommands) (a : Address) : Nat → Nat → Bus → ReadOut
  | 0, att, b => { code := .eReadVerifyMismatch, attempts := att, record := none, bus := b }
  | n + 1, att, b =>
    match readPass cmds a b with
    | (none, b1) => { code := .eBusResetTimeout, attempts := att + 1, record := none, bus := b1 }
    | (some bufA, b1) =>
      match readPass cmds a b1 with
      | (none, b2) => { code := .eBusResetTimeout, attempts := att + 1, record := none, bus := b2 }
      | (some bufB, b2) =>
        if bufA.toList = bufB.toList then { code := .eNone, attempts := att + 1, record := some bufA, bus := b2 }
        else readAttempts cmds a n (att + 1) b2

/-- MEMRD as a function (R200, R236): its code and the state it leaves. RECBUF is written on success only (R203). -/
def memrdBody (idx : Nat) (s : State) : ErrCode × State :=
  match deviceOperand idx s with
  | none => (.eBadOperand, { s with attempts := 0 })
  | some a =>
    if familySupported s.cfg a then
      let o := readAttempts s.cfg.cmds a Config.maxAttempts 0 s.bus
      (o.code, { s with attempts := o.attempts, recbuf := o.record.getD s.recbuf, bus := o.bus })
    else (.eUnsupportedFamily, { s with attempts := 0 })

/-- MEMRD (R200). -/
def execMemrd (idx : Nat) (s : State) : Host.Outcome State Fault Refusal :=
  let (code, t) := memrdBody idx s
  .next (finish code t)

end Sys2Proof.Machine
end

