-- ==== Sys2Proof/Machine/RomSearch.lean ====
section
/-! DEFINITION. RomSearchEngine and DeviceEnumerator: SRCHINIT, SRCHNEXT, ENUM (42_rom_search.md R170–R185). -/

namespace Sys2Proof.Machine

/-! ## The search pass -/

/-- The local values of a pass (R50, R172) and what it writes as it goes: `last_zero`, the running CRC, `SS.LFD`, the working
buffer, the bus. -/
structure PassState where
  lastZero : Nat
  crc : Byte
  lfd : Nat
  rom : Address
  bus : Bus
deriving DecidableEq, Repr

/-- `DiscrepancyDirection` (R174): the direction at a (0,0) pair, from `SS.LD` as it stood at the start of the pass and from
the working buffer as the pass before left it. -/
def discrepancyDir (pos ld : Nat) (rom : Address) : Bool :=
  if pos < ld then addrBit rom pos else pos == ld

/-- The marks a discrepancy resolved to `dir` leaves (R174): "last zero", and `SS.LFD` inside the family byte. -/
def markZero (pos : Nat) (dir : Bool) (p : PassState) : PassState :=
  if dir then p
  else { p with lastZero := pos, lfd := if pos < Config.familyLimit then pos else p.lfd }

/-- The chosen direction is stored, written to the bus, and a completed byte is folded into the running CRC (R175). -/
def takeDirection (pos : Nat) (dir : Bool) (p : PassState) : PassState :=
  let rom := setAddrBit p.rom pos dir
  { p with
    rom := rom
    bus := busWriteSlot dir p.bus
    crc := if (pos - 1) % 8 = 7 then crc8 p.crc (addrByte rom ((pos - 1) / 8)) else p.crc }

/-- The positions from 65 - n to 64 of a pass (R172, R173). Answers the position of an idle pair (1,1), at which the pass
stops with no write slot, or none when all were walked. -/
def walkPositions (ld : Nat) : Nat → PassState → Option Nat × PassState
  | 0, p => (none, p)
  | n + 1, p =>
    let pos := Config.addrBits - n
    let (id, b1) := busReadSlot p.bus
    let (cmp, b2) := busReadSlot b1
    let p2 := { p with bus := b2 }
    if id && cmp then (some pos, p2)
    else if id != cmp then walkPositions ld n (takeDirection pos id p2)
    else
      let dir := discrepancyDir pos ld p2.rom
      walkPositions ld n (takeDirection pos dir (markZero pos dir p2))

/-- What a search call answers and leaves: `(ok, code)`, SearchState, the working buffer, the bus. -/
structure SearchOut where
  found : Bool
  code : ErrCode
  ss : SearchState
  rom : Address
  bus : Bus
deriving DecidableEq, Repr

/-- A failed call (R177): `SS <- INIT`; the working buffer keeps what the pass wrote. -/
def searchFailed (code : ErrCode) (rom : Address) (b : Bus) : SearchOut :=
  { found := false, code := code, ss := SearchState.init, rom := rom, bus := b }

/-- The end of a pass, after its positions (R172, R176, R177). -/
def closePass : Option Nat × PassState → SearchOut
  | (some pos, p) =>
    searchFailed (if pos = 1 then .eSearchNoResponse else .eBusIdleDuringSearch) p.rom p.bus
  | (none, p) =>
    if p.crc != 0x00#8 then searchFailed .eChecksumMismatch p.rom p.bus
    else if p.rom == 0#64 then searchFailed .eZeroAddress p.rom p.bus
    else
      { found := true
        code := .eNone
        ss := { ld := p.lastZero, lfd := p.lfd, ldf := p.lastZero == 0 }
        rom := p.rom
        bus := p.bus }

/-- `SearchPass()` (R172), called with `SS.LDF = 0`: reset, search command, 64 positions. -/
def searchPass (cmds : RomCommands) (ss : SearchState) (rom : Address) (b : Bus) : SearchOut :=
  let (p, b1) := busReset b
  if p then
    closePass (walkPositions ss.ld Config.addrBits
      { lastZero := 0, crc := 0x00#8, lfd := ss.lfd, rom := rom, bus := busWriteByte cmds.searchRom b1 })
  else searchFailed .eBusResetTimeout rom b1

/-- `SearchNext()` (R178): with `SS.LDF = 1` the "no more devices" call, which touches no bus (R179); else a pass. -/
def searchNext (cfg : Config) (ss : SearchState) (rom : Address) (b : Bus) : SearchOut :=
  if ss.ldf then
    { found := false
      code := .eNone
      ss := if cfg.noMoreResetsState then SearchState.init else ss
      rom := rom
      bus := b }
  else searchPass cfg.cmds ss rom b

/-- The search state, the working buffer and the bus a search call leaves. -/
def setSearch (o : SearchOut) (s : State) : State := { s with ss := o.ss, rom := o.rom, bus := o.bus }

/-! ## The enumeration -/

/-- The local values of ENUM (R183): the entries filled, the table, and the search's state. -/
structure EnumState where
  n : Nat
  table : Vector Address 5
  ss : SearchState
  rom : Address
  bus : Bus
deriving DecidableEq, Repr

/-- The loop of ENUM (R183) with room for `k` more entries: the code is that of the call that ended it, or 0x0. -/
def enumLoop (cfg : Config) : Nat → EnumState → ErrCode × EnumState
  | 0, a => (.eNone, a)
  | k + 1, a =>
    let o := searchNext cfg a.ss a.rom a.bus
    let a1 := { a with ss := o.ss, rom := o.rom, bus := o.bus }
    if o.found then enumLoop cfg k { a1 with table := a1.table.setIfInBounds a.n o.rom, n := a.n + 1 }
    else (o.code, a1)

/-- ENUM as a function (R183, R236): its code and the state it leaves. -/
def enumBody (s : State) : ErrCode × State :=
  let (code, a) := enumLoop s.cfg Config.cap
    { n := 0, table := Vector.replicate 5 0#64, ss := SearchState.init, rom := s.rom, bus := s.bus }
  (code, { s with
    count := a.n
    full := fullFlag a.n a.ss
    found := decide (0 < a.n)
    devtab := a.table
    ss := a.ss
    rom := a.rom
    bus := a.bus })

/-! ## The commands -/

/-- SRCHINIT (R171): resets SearchState and FOUND; no bus event, the working buffer is kept. -/
def execSrchinit (s : State) : Host.Outcome State Fault Refusal :=
  .next (finish .eNone (setFound false { s with ss := SearchState.init }))

/-- SRCHNEXT (R178). -/
def execSrchnext (s : State) : Host.Outcome State Fault Refusal :=
  let o := searchNext s.cfg s.ss s.rom s.bus
  .next (finish o.code (setFound o.found (setSearch o s)))

/-- ENUM (R183). -/
def execEnum (s : State) : Host.Outcome State Fault Refusal :=
  let (code, t) := enumBody s
  .next (finish code t)

end Sys2Proof.Machine
end

