-- ==== Sys2Proof/Machine/Identity.lean ====
section
/-! DEFINITION. InfoDecoder and IdentityAggregator: DECODE and IDENTIFY (44_identity.md R220–R240). -/

namespace Sys2Proof.Machine

/-! ## The decoder -/

/-- The bytes `lo..hi` of a record, inclusive (R14, R220). -/
def recordField (r : Record) (lo hi : Nat) : List Byte := (r.toList.drop lo).take (hi + 1 - lo)

/-- The vendor name field, record bytes 1..10 (R220). -/
def vendorField (r : Record) : List Byte := recordField r 1 10

/-- The board name field, record bytes 13..24 (R220). -/
def boardField (r : Record) : List Byte := recordField r 13 24

/-- `Trim(f)` (R221): up to the first 0x20, or the whole field. -/
def trimName (f : List Byte) : List Byte := f.takeWhile (· != 0x20#8)

/-- `StartsWith(s, p)` (R14): byte for byte. -/
def startsWith (s p : List Byte) : Bool := p.isPrefixOf s

/-- `Lookup(BOARD_CATALOG, s)` (R222): the first entry, in table order, whose prefix the name starts with. -/
def lookupBoard (cat : List BoardEntry) (s : List Byte) : Option BoardEntry := cat.find? (fun e => startsWith s e.name)

/-- `Lookup(VENDOR_CATALOG, s)` (R222). -/
def lookupVendor (cat : List VendorEntry) (s : List Byte) : Option VendorEntry := cat.find? (fun e => startsWith s e.name)

/-- `NormCode(c)` (R223). -/
def normCode (c : Byte) : Byte :=
  if 0x41#8 ≤ c ∧ c ≤ 0x5A#8 then c
  else if 0x61#8 ≤ c ∧ c ≤ 0x7A#8 then c - 0x20#8
  else 0x41#8

/-- `NormId(c)` (R224). -/
def normId (c : Byte) : Byte :=
  if 0x30#8 ≤ c ∧ c ≤ 0x39#8 then c
  else if (0x41#8 ≤ c ∧ c ≤ 0x46#8) ∨ (0x61#8 ≤ c ∧ c ≤ 0x66#8) then 0x39#8
  else 0x30#8

/-- `RevisionMapping(r) -> (revId, bomRev)` (R225): a mapping byte of exactly 'B' swaps the roles of bytes 28 and 29. -/
def revisionMapping (r : Record) : Byte × Byte :=
  if r[30] = 0x42#8 then (normId r[29], normCode r[28]) else (normId r[28], r[29])

/-- `DecodeRecord(r)` (R226), in the order of its steps: the board error comes before the vendor error. -/
def decodeRecord (cfg : Config) (r : Record) : Except ErrCode Identity :=
  match lookupBoard cfg.boardCatalog (trimName (boardField r)) with
  | none => .error .eUnknownBoardName
  | some be =>
    let code := normCode r[27]
    let (rid, bom) := revisionMapping r
    match lookupVendor cfg.vendorCatalog (trimName (vendorField r)) with
    | none => .error .eUnknownVendorName
    | some ve =>
      .ok { role := be.role, boardId := be.boardId, vendorId := ve.vendorId, revCode := code, revId := rid, bomRev := bom }

/-- DECODE as a function (R227, R236): its code and the state it leaves. -/
def decodeBody (s : State) : ErrCode × State :=
  match decodeRecord s.cfg s.recbuf with
  | .error c => (c, { s with ident := Identity.zero })
  | .ok d => (.eNone, { s with ident := d })

/-- DECODE (R227). -/
def execDecode (s : State) : Host.Outcome State Fault Refusal :=
  let (code, t) := decodeBody s
  .next (finish code t)

/-! ## The fold -/

/-- The three roles of R8, R229. -/
inductive Role where
  | cpu
  | display
  | carrier
deriving DecidableEq, Repr

/-- The role of a role code: `ROLE_CPU` = 1, `ROLE_DISPLAY` = 2, `ROLE_CARRIER` = 3; any other is outside the three (R229). -/
def roleOf (c : Byte) : Option Role :=
  if c = 0x01#8 then some .cpu
  else if c = 0x02#8 then some .display
  else if c = 0x03#8 then some .carrier
  else none

/-- `Offsets(role) = (ob, ov, oc, oi)` (R230). -/
def roleOffsets : Role → Nat × Nat × Nat × Nat
  | .cpu => (20, 25, 10, 21)
  | .display => (10, 15, 5, 18)
  | .carrier => (0, 5, 0, 15)

/-- The bit of a role in `seen` and MISSING: `1 << (role - 1)` (R233, R46). -/
def roleBit : Role → BitVec 3
  | .cpu => 0b001#3
  | .display => 0b010#3
  | .carrier => 0b100#3

/-- `Fold(s, v, id)` (R230), with the identity's role given: ORs its fields into the partial words at the role's offsets. -/
def foldIdentity (r : Role) (d : Identity) (w : Word × Word) : Word × Word :=
  let (ob, ov, oc, oi) := roleOffsets r
  (w.1 ||| ((d.boardId.setWidth 32 &&& 0x1F#32) <<< ob) ||| ((d.vendorId.setWidth 32 &&& 0x1F#32) <<< ov),
   w.2 ||| (((d.revCode - 0x41#8).setWidth 32 &&& 0x1F#32) <<< oc) |||
     (((d.revId - 0x30#8).setWidth 32 &&& 0x07#32) <<< oi))

/-! ## The aggregator as a pure function (R233) -/

/-- What `Aggregate` answers: the words, DEFAULTS, MISSING, OKCOUNT and the code. -/
structure Summary where
  serial : Word
  revision : Word
  defaults : Bool
  missing : BitVec 3
  okcount : Nat
  code : ErrCode
deriving DecidableEq, Repr

/-- The fallback to the default words (R234). -/
def fallback (cfg : Config) (ok : Nat) (code : ErrCode) : Summary :=
  { serial := cfg.defaultSerial, revision := cfg.defaultRevision, defaults := true, missing := 0b000#3, okcount := ok
    code := code }

/-- `Aggregate(outcomes)` (R233) from the partial words `w`, the count `ok` and the roles `seen` so far. -/
def aggregateFrom (cfg : Config) : List (Except ErrCode Identity) → Word × Word → Nat → BitVec 3 → Summary
  | [], w, ok, seen =>
    if ok = 0 then fallback cfg 0 .eNoDeviceDecoded
    else { serial := w.1, revision := w.2, defaults := false, missing := missingFlags seen, okcount := ok, code := .eNone }
  | .error _ :: os, w, ok, seen => aggregateFrom cfg os w ok seen
  | .ok d :: os, w, ok, seen =>
    match roleOf d.role with
    | none => fallback cfg ok .eUnknownBoardRole
    | some r => aggregateFrom cfg os (foldIdentity r d w) (ok + 1) (seen ||| roleBit r)

/-- `Aggregate(outcomes)` (R233). -/
def aggregate (cfg : Config) (outcomes : List (Except ErrCode Identity)) : Summary :=
  aggregateFrom cfg outcomes (0#32, 0#32) 0 0b000#3

/-! ## IDENTIFY -/

/-- The local values of IDENTIFY's device loop (R236): the state so far, the partial words, `ok`, `seen` and `fatal`. -/
structure IdentifyState where
  st : State
  words : Word × Word
  ok : Nat
  seen : BitVec 3
  fatal : Bool
deriving DecidableEq, Repr

/-- `deverr[i] <- c` (R236). -/
def setDeverr (i : Nat) (c : ErrCode) (s : State) : State := { s with deverr := s.deverr.setIfInBounds i c }

/-- The device loop of IDENTIFY (R236, R237) for the `n` devices from index `i`: each is read and decoded before the next; a
failure skips the device, the first unknown role ends the loop. -/
def identifyLoop : Nat → Nat → IdentifyState → IdentifyState
  | 0, _, a => a
  | n + 1, i, a =>
    let (c, s1) := memrdBody i a.st
    if c ≠ .eNone then identifyLoop n (i + 1) { a with st := setDeverr i c s1 }
    else
      let (c2, s2) := decodeBody s1
      if c2 ≠ .eNone then identifyLoop n (i + 1) { a with st := setDeverr i c2 s2 }
      else
        match roleOf s2.ident.role with
        | none => { a with st := setDeverr i .eUnknownBoardRole s2, fatal := true }
        | some r =>
          identifyLoop n (i + 1)
            { a with
              st := setDeverr i .eNone s2
              words := foldIdentity r s2.ident a.words
              ok := a.ok + 1
              seen := a.seen ||| roleBit r }

/-- The outcome of the device with index `i` (R233): the code that skips it, or its decoded identity; and the state left. -/
def deviceOutcome (i : Nat) (s : State) : Except ErrCode Identity × State :=
  let (c, s1) := memrdBody i s
  if c ≠ .eNone then (.error c, s1)
  else
    let (c2, s2) := decodeBody s1
    if c2 ≠ .eNone then (.error c2, s2) else (.ok s2.ident, s2)

/-- The outcomes of the `n` devices from index `i`, in device-table order, each read after the one before it (R233, R237). No
command runs it: it is what IDENTIFY's result is compared with. -/
def deviceOutcomes : Nat → Nat → State → List (Except ErrCode Identity)
  | 0, _, _ => []
  | n + 1, i, s => (deviceOutcome i s).1 :: deviceOutcomes n (i + 1) (deviceOutcome i s).2

/-- The last step of IDENTIFY (R236): OKCOUNT, the identity words or the default words, DEFAULTS, MISSING, ID_VALID, and the
code. -/
def identifyClose (a : IdentifyState) : ErrCode × State :=
  if a.fatal || a.ok == 0 then
    (if a.fatal then .eUnknownBoardRole else .eNoDeviceDecoded,
     { a.st with
       okcount := a.ok
       serial := a.st.cfg.defaultSerial
       revision := a.st.cfg.defaultRevision
       defaults := true
       missing := 0b000#3
       idValid := true })
  else
    (.eNone,
     { a.st with
       okcount := a.ok
       serial := a.words.1
       revision := a.words.2
       defaults := false
       missing := missingFlags a.seen
       idValid := true })

/-- IDENTIFY as a function (R236): ENUM, every `deverr` set to `E_NOT_PROCESSED`, the device loop, the words. -/
def identifyBody (s : State) : ErrCode × State :=
  let (_, s1) := enumBody s
  identifyClose (identifyLoop s1.count 0
    { st := { s1 with deverr := Vector.replicate 5 .eNotProcessed }
      words := (0#32, 0#32)
      ok := 0
      seen := 0b000#3
      fatal := false })

/-- IDENTIFY (R236). -/
def execIdentify (s : State) : Host.Outcome State Fault Refusal :=
  let (code, t) := identifyBody s
  .next (finish code t)

end Sys2Proof.Machine
end

