-- ==== Sys2Proof/Machine/Dispatch.lean ====
section
/-! DEFINITION. One arm per command: the engine runs the command from the start of its pseudocode to `finish` (10_state.md R52,
30_encoding.md R112). -/

namespace Sys2Proof.Machine

def exec (i : Instr) (s : State) : Host.Outcome State Fault Refusal :=
  match i with
  | .owreset => Sys2Proof.Machine.execOwreset s
  | .owwbit bit => Sys2Proof.Machine.execOwwbit bit s
  | .owrbit => Sys2Proof.Machine.execOwrbit s
  | .owwbyte v => Sys2Proof.Machine.execOwwbyte v s
  | .owrbyte => Sys2Proof.Machine.execOwrbyte s
  | .crc8 v => Sys2Proof.Machine.execCrc8 v s
  | .srchinit => Sys2Proof.Machine.execSrchinit s
  | .srchnext => Sys2Proof.Machine.execSrchnext s
  | .enum => Sys2Proof.Machine.execEnum s
  | .memrd idx => Sys2Proof.Machine.execMemrd idx s
  | .decode => Sys2Proof.Machine.execDecode s
  | .identify => Sys2Proof.Machine.execIdentify s

end Sys2Proof.Machine
end

