-- ==== Sys2Proof/Machine/Registers.lean ====
section
/-! DEFINITION. The host register block (10_state.md R33–R49; 20_memory.md R81–R85; 44_identity.md R238): which register an
offset names, what a read of it returns, what a write of it does. -/

namespace Sys2Proof.Machine

/-! ## The map (R33) -/

/-- The registers of R33. -/
inductive Reg where
  | cmd | status | data | crc | search | devcount | romlo | romhi
  /-- `DEVTABiLO` (hi = false) and `DEVTABiHI` (hi = true), i = 0..4. -/
  | devtab (i : Nat) (hi : Bool)
  /-- `RECBUFk`, k = 0..7. -/
  | recbuf (k : Nat)
  | ident0 | ident1 | serial | revision | memdiag | iddiag | accCpu | accDisplay | accCarrier
  /-- The reserved offsets 0x8C–0xFC (R48). -/
  | reserved
deriving DecidableEq, Repr

/-- The register at a word-aligned offset of the block (R33). -/
def regAt (off : Nat) : Reg :=
  if off = 0x00 then .cmd
  else if off = 0x04 then .status
  else if off = 0x08 then .data
  else if off = 0x0C then .crc
  else if off = 0x10 then .search
  else if off = 0x14 then .devcount
  else if off = 0x18 then .romlo
  else if off = 0x1C then .romhi
  else if off < 0x48 then .devtab ((off - 0x20) / 8) ((off - 0x20) % 8 == 4)
  else if off < 0x68 then .recbuf ((off - 0x48) / 4)
  else if off = 0x68 then .ident0
  else if off = 0x6C then .ident1
  else if off = 0x70 then .serial
  else if off = 0x74 then .revision
  else if off = 0x78 then .memdiag
  else if off = 0x7C then .iddiag
  else if off = 0x80 then .accCpu
  else if off = 0x84 then .accDisplay
  else if off = 0x88 then .accCarrier
  else .reserved

/-- The offset of a host address in the block of an instance (R81): `a - BASE` when `BASE ≤ a < BASE + 0x100`. -/
def offsetOfAddress (cfg : Config) (a : Nat) : Option Nat :=
  if cfg.base ≤ a ∧ a < cfg.base + 0x100 then some (a - cfg.base) else none

/-! ## Register words -/

/-- Bytes 0..3 (`hi = false`) or 4..7 of an address, the lower-numbered byte in the lower lane (R39, R41). -/
def addressWord (a : Address) (hi : Bool) : Word := a.extractLsb' (if hi then 32 else 0) 32

/-- SEARCH (R38): LD in [6:0], LFD in [11:8], LDF in [16]. -/
def searchWord (ss : SearchState) : Word :=
  fieldAt (BitVec.ofNat 7 ss.ld) 0 ||| fieldAt (BitVec.ofNat 4 ss.lfd) 8 ||| flagAt ss.ldf 16

/-- DEVCOUNT (R40): COUNT in [2:0], FULL in [8]. [log 13, DESIGN CHOICE, in states outside the ranges of R32] -/
def devcountWord (s : State) : Word := fieldAt (BitVec.ofNat 3 s.count) 0 ||| flagAt s.full 8

/-- `RECBUFk` (R42): record bytes 4k..4k+3, the lowest in bits [7:0]. -/
def recbufWord (r : Record) (k : Nat) : Word :=
  let byte := fun j => r[4 * k + j]?.getD 0x00#8
  byte 3 ++ byte 2 ++ byte 1 ++ byte 0

/-- IDENT0 (R43): ROLE, BOARD_ID, VENDOR_ID, REV_CODE from the low byte up. -/
def ident0Word (d : Identity) : Word := d.revCode ++ d.vendorId ++ d.boardId ++ d.role

/-- IDENT1 (R43): REV_ID in [7:0], BOM_REV in [15:8]. -/
def ident1Word (d : Identity) : Word := 0x0000#16 ++ d.bomRev ++ d.revId

/-- MEMDIAG (R45): ATTEMPTS in [3:0]. -/
def memdiagWord (s : State) : Word := fieldAt (BitVec.ofNat 4 s.attempts) 0

/-- IDDIAG (R46): DEVERR_i in [4i+3:4i], MISSING in [22:20], OKCOUNT in [26:24]. -/
def iddiagWord (s : State) : Word :=
  fieldAt (errBits s.deverr[0]) 0 ||| fieldAt (errBits s.deverr[1]) 4 ||| fieldAt (errBits s.deverr[2]) 8 |||
  fieldAt (errBits s.deverr[3]) 12 ||| fieldAt (errBits s.deverr[4]) 16 ||| fieldAt s.missing 20 |||
  fieldAt (BitVec.ofNat 3 s.okcount) 24

/-- An accessor register (R47): 5 bits of `serial` from `ob`, 5 from `ov`, 5 bits of `revision` from `oc`, 3 from `oi`, in
[4:0], [12:8], [20:16] and [26:24]. -/
def accessorWord (ob ov oc oi : Nat) (serial revision : Word) : Word :=
  fieldAt (serial.extractLsb' ob 5) 0 ||| fieldAt (serial.extractLsb' ov 5) 8 |||
  fieldAt (revision.extractLsb' oc 5) 16 ||| fieldAt (revision.extractLsb' oi 3) 24

/-- ACC_CPU (R47). -/
def accCpuWord (serial revision : Word) : Word := accessorWord 20 25 10 21 serial revision
/-- ACC_DISPLAY (R47). -/
def accDisplayWord (serial revision : Word) : Word := accessorWord 10 15 5 18 serial revision
/-- ACC_CARRIER (R47). -/
def accCarrierWord (serial revision : Word) : Word := accessorWord 0 5 0 15 serial revision

/-- What a read of a register returns while the engine is idle (R34–R48). -/
def regRead (r : Reg) (s : State) : Word :=
  match r with
  | .cmd => s.cmdLast
  | .status => statusWord s
  | .data => fieldAt s.data 0
  | .crc => fieldAt s.crc 0
  | .search => searchWord s.ss
  | .devcount => devcountWord s
  | .romlo => addressWord s.rom false
  | .romhi => addressWord s.rom true
  | .devtab i hi => addressWord (s.devtab[i]?.getD 0#64) hi
  | .recbuf k => recbufWord s.recbuf k
  | .ident0 => ident0Word s.ident
  | .ident1 => ident1Word s.ident
  | .serial => s.serial
  | .revision => s.revision
  | .memdiag => memdiagWord s
  | .iddiag => iddiagWord s
  | .accCpu => accCpuWord s.serial s.revision
  | .accDisplay => accDisplayWord s.serial s.revision
  | .accCarrier => accCarrierWord s.serial s.revision
  | .reserved => 0x00000000#32

/-- What a read returns while BUSY = 1 (R296): STATUS.BUSY and STATUS.OVR as they are; every other bit of every register is
the free word. [log 5, DEDUCED] -/
def regReadBusy (r : Reg) (free : Word) (s : State) : Word :=
  match r with
  | .status => (statusWord s &&& statusDefinedWhileBusy) ||| (free &&& ~~~statusDefinedWhileBusy)
  | _ => free

/-! ## Host accesses -/

/-- The access is an aligned 32-bit one (R83). R83 speaks of the access's ADDRESS, `BASE + off`, and states no alignment of BASE;
the model takes BASE as a multiple of 4 (`Config.wf`), so that the address is a multiple of 4 exactly when the offset is. [log
20, DESIGN CHOICE] -/
def alignedWord (off width : Nat) : Bool := width == 4 && off % 4 == 0

/-- A read of the register at `off`: the value returned, as the model's `readData`; nothing else changes (R84), but for the
model's counter when the value is free (R296). -/
def hostRead (off : Nat) (s : State) : State :=
  if s.busy then
    { s with readData := regReadBusy (regAt off) (Config.freeRead s.freeReads off) s, freeReads := s.freeReads + 1 }
  else { s with readData := regRead (regAt off) s }

/-- A write of the CRC register (R37): loads the accumulator while idle; is ignored and sets OVR while busy (R295). -/
def writeCrc (w : Word) (s : State) : State :=
  if s.busy then setOverrun s else { s with crc := w.extractLsb' 0 8 }

/-- A write of a register other than CMD (R84): only STATUS and CRC take it; every other write is ignored (R48, R49). -/
def regWrite (r : Reg) (w : Word) (s : State) : State :=
  match r with
  | .status => writeStatus w s
  | .crc => writeCrc w s
  | _ => s

/-- A host access while the reset input is asserted: it is not served (R291), so it changes nothing; what a read returns is a
free value. [log 10, DEDUCED] -/
def notServed (a : HostAccess) (s : State) : State :=
  match a with
  | .read off _ => { s with readData := Config.freeRead s.freeReads off, freeReads := s.freeReads + 1 }
  | .write _ _ _ => s

end Sys2Proof.Machine
end

