-- ==== Sys2Proof/Machine/Turns.lean ====
section
/-! DEFINITION. The turns of the interleaving (60_exceptions.md R275): host accesses (10_state.md R34; 20_memory.md R81, R83; 30_encoding.md
R110), engine steps, the reset input (70_reset_and_hazards.md R291). -/

namespace Sys2Proof.Machine

/-- One engine step of a running command (R275): the next bus primitive; the last one, or the whole of a command without a
primitive, also performs `finish`. The command's events follow from the bus port at its acceptance, so the step lets one more
of them happen; the result state is updated at once at the completion (R85) [log 7, DEDUCED]. An idle engine holds its state (R274). -/
def engineTurn (s : State) : Host.Outcome State Fault Refusal :=
  match s.engine with
  | .idle => .next s
  | .running i start k =>
    match exec i (setBus start s) with
    | .next t =>
      if k + 1 < t.bus.history.length - start.history.length then
        .next { s with
          bus := busReplay (((busHistory t.bus).drop start.history.length).take (k + 1)) start
          engine := .running i start (k + 1) }
      else .next t
    | .fault r => .fault r
    | .refused r => .refused r

/-- A host write of `w` to CMD (R34, R110, R261, R295): while busy it is not accepted and sets OVR; an illegal word completes at
once; a command is accepted and, with `whole`, runs to its completion in this step. -/
def writeCmd (whole : Bool) (w : Word) (s : State) : Host.Outcome State Fault Refusal :=
  if s.busy then .next (setOverrun s)
  else
    match decodeWord w with
    | none => .next (acceptIllegal w s)
    | some i => if whole then exec i (acceptCommand w i s) else .next (acceptCommand w i s)

/-- The checks before a host access is served: aligned 32-bit (R83), inside the block (R81). -/
def checkAccess (off width : Nat) : Option Refusal :=
  if !alignedWord off width then some .accessNotAlignedWord
  else if 0x100 ≤ off then some .accessOutsideBlock
  else none

/-- The offset and width of an access. -/
def accessPlace : HostAccess → Nat × Nat
  | .read off width => (off, width)
  | .write off width _ => (off, width)

/-- A served host access (R84). -/
def serveAccess (a : HostAccess) (s : State) : Host.Outcome State Fault Refusal :=
  match a with
  | .read off _ => .next (hostRead off s)
  | .write off _ w => if regAt off = .cmd then writeCmd true w s else .next (regWrite (regAt off) w s)

/-- A host access (R81, R83, R84, R291). -/
def hostAccess (a : HostAccess) (s : State) : Host.Outcome State Fault Refusal :=
  match checkAccess (accessPlace a).1 (accessPlace a).2 with
  | some r => .refused r
  | none => if s.inReset then .next (notServed a s) else serveAccess a s

/-- One turn. While the reset input is asserted no access is served and no command runs (R291). -/
def runTurn (t : Turn) (s : State) : Host.Outcome State Fault Refusal :=
  match t with
  | .access a => hostAccess a s
  | .issue w => if s.inReset then .next s else writeCmd false w s
  | .engine => if s.inReset then .next s else engineTurn s
  | .resetPin asserted => .next (resetInput asserted s)

/-- The next turn: the first that is pending; with none, the engine goes on. [log 8, DESIGN CHOICE] -/
def nextTurn (s : State) : Host.Outcome State Fault Refusal :=
  match s.pending with
  | [] => runTurn .engine s
  | t :: rest => runTurn t { s with pending := rest }

/-- The state in which the next turn is a host write of the word of `nbits` bits `w` to CMD, served and accepted: the engine is
idle and the reset input released. -/
def placeCommand (s : State) (nbits w : Nat) : State :=
  { s with
    engine := .idle
    inReset := false
    pending := .access (.write 0x00 4 (tableWord nbits w)) :: s.pending }

end Sys2Proof.Machine
end

