-- ==== Sys2Proof/Machine/Step.lean ====
section
/-! DEFINITION. One step of the machine, and the placing of a command where the next step takes it. OWID has no program counter
(10_state.md R31): a command comes from a host write to CMD, so the step takes the next pending turn of the outside world. -/

namespace Sys2Proof.Machine

/-- One step: the next turn of the interleaving (R275). -/
def step : State → Host.Outcome State Fault Refusal := nextTurn

/-- `s` with the command word of `nbits` bits `w` as the next host write to CMD. [log 8, DESIGN CHOICE] -/
def State.withFetchWord (s : State) (nbits w : Nat) : State := placeCommand s nbits w

end Sys2Proof.Machine
end

