-- ==== Sys2Proof/Machine/Timing.lean ====
section
/-! DEFINITION. What a bus history looks like on the pin and how long it takes (40_bit_protocol.md R130–R134;
60_exceptions.md R270; 70_reset_and_hazards.md R302). No step depends on it. The gaps between primitives, which the spec leaves
open (R133), are not counted [log 14, DESIGN CHOICE]. -/

namespace Sys2Proof.Machine

/-- A stretch of the pin's waveform: DQ driven low or released for `us` microseconds; `sample` marks that the line is sampled
at its end. -/
structure Segment where
  low : Bool
  us : Nat
  sample : Bool
deriving DecidableEq, Repr

/-- The waveform of a primitive (R130, R131, R132). -/
def eventWave (t : Timing) : BusEvent → List Segment
  | .reset _ =>
    [{ low := true, us := t.rstl, sample := false }, { low := false, us := t.pds, sample := true },
     { low := false, us := t.rsth, sample := false }]
  | .write true => [{ low := true, us := t.w1l, sample := false }, { low := false, us := t.rec1, sample := false }]
  | .write false => [{ low := true, us := t.w0l, sample := false }, { low := false, us := t.rec0, sample := false }]
  | .read _ =>
    [{ low := true, us := t.rl, sample := false }, { low := false, us := t.msr, sample := true },
     { low := false, us := t.rrec, sample := false }]

/-- The waveform of events, oldest first: H "determines the pin waveform exactly" (R95), but for the gaps. -/
def waveform (t : Timing) (es : List BusEvent) : List Segment := es.flatMap (eventWave t)

/-- The duration of a waveform in microseconds. -/
def waveTime (w : List Segment) : Nat := (w.map (·.us)).sum

/-- The bus time of events (R302): the sum of the durations of the primitives. -/
def busTime (t : Timing) (es : List BusEvent) : Nat := waveTime (waveform t es)

/-- `T_SLOT` (R134): the one slot length. -/
def slotTime (t : Timing) : Nat := t.w1l + t.rec1

/-- `T_RESET` (R302). -/
def resetTime (t : Timing) : Nat := t.rstl + t.pds + t.rsth

/-- A duration in clock cycles of the instance (R270). -/
def clockCycles (cfg : Config) (us : Nat) : Nat := us * cfg.clkPerUs

end Sys2Proof.Machine
end

