-- ==== Sys2Proof/Safety.lean ====
section
/-! DEFINITION. What a legal state of OWID is (the ranges of 10_state.md R32, R38–R46, R51; 60_exceptions.md R260) and what a
safe run is. -/

namespace Sys2Proof.Machine

/-- The ranges of SearchState (R38), and that LDF = 1 only with LD = 0 (R176, C8). -/
def SearchState.legal (ss : SearchState) : Prop := ss.ld ≤ 64 ∧ ss.lfd ≤ 8 ∧ (ss.ldf = true → ss.ld = 0)

/-- Device-table entries from COUNT up are zero (R41). -/
def TableClear (n : Nat) (table : Vector Address 5) : Prop := ∀ i (h : i < 5), n ≤ i → table[i] = 0#64

/-- The decoded identity is one that DECODE writes (R43): all zero, or a revision code in 'A'..'Z' and a revision id in
'0'..'9'. -/
def Identity.legal (d : Identity) : Prop :=
  d = Identity.zero ∨ (0x41#8 ≤ d.revCode ∧ d.revCode ≤ 0x5A#8 ∧ 0x30#8 ≤ d.revId ∧ d.revId ≤ 0x39#8)

/-- The legal states: every item of R32 in the range R32 gives it, the pin released between primitives (R51, R133), ERR never
`E_NOT_PROCESSED` (R260), DEFAULTS only with ID_VALID (R35), and the range of MISSING (R46) under DEFAULTS. -/
structure State.Legal (s : State) : Prop where
  search : s.ss.legal
  count : s.count ≤ 5
  table : TableClear s.count s.devtab
  ident : s.ident.legal
  attempts : s.attempts ≤ 10
  okcount : s.okcount ≤ 5
  err : s.err ≠ .eNotProcessed
  dq : s.bus.dqOe = false
  defaults : s.defaults = true → s.idValid = true
  missing : s.defaults = true → s.missing = 0#3
  start : ∀ i b k, s.engine = .running i b k → b.dqOe = false

/-- A run is safe while every step answers a next state: it meets no host access that the spec gives no meaning (R81, R83). -/
def SafeFor (n : Nat) (s : State) : Prop :=
  match n with
  | 0 => True
  | n + 1 => ∃ t, step s = .next t ∧ SafeFor n t

/-- Every host access still to come is an aligned 32-bit one inside the block (R81, R83): the condition under which no step can
stop. -/
def AccessesLegal (s : State) : Prop :=
  ∀ a, Turn.access a ∈ s.pending → checkAccess (accessPlace a).1 (accessPlace a).2 = none

/-! ## Terms of the statements -/

/-- The bits of a record as they come off the bus: bytes ascending, each LSB first (R86, R88). -/
def recordBits (r : Record) : List Bool := r.toList.flatMap byteBits

/-- The levels a script needs for one complete read pass that reads `r` (R201): presence, then the record's bits. -/
def passLevels (r : Record) : List Bool := false :: recordBits r

/-- The levels for one complete attempt of MEMRD whose two passes read these records (R202). -/
def attemptLevels (p : Record × Record) : List Bool := passLevels p.1 ++ passLevels p.2

/-- The events of a complete read pass (R201): a reset with presence, the 12 header bytes written, the record's bits read. -/
def readPassEvents (cmds : RomCommands) (a : Address) (r : Record) : List BusEvent :=
  .reset true :: ((readPassHeader cmds a).flatMap byteBits).map .write ++ (recordBits r).map .read

/-- The events of a complete attempt of MEMRD (R202). -/
def attemptEvents (cmds : RomCommands) (a : Address) (p : Record × Record) : List BusEvent :=
  readPassEvents cmds a p.1 ++ readPassEvents cmds a p.2

/-- An address a search accepts (R176, R177): not all zero, and the CRC of its 8 bytes is 0. -/
def ValidAddress (a : Address) : Prop := a ≠ 0#64 ∧ crcBytes 0x00#8 (addrBytes a) = 0x00#8

/-- One position of a search pass as it shows on the bus (R173, R175): the pair read, then the direction written. -/
structure PairRead where
  id : Bool
  cmp : Bool
  dir : Bool
deriving DecidableEq, Repr

/-- The three events of a position (R173, R175). -/
def PairRead.events (x : PairRead) : List BusEvent := [.read x.id, .read x.cmp, .write x.dir]

/-- The position is a discrepancy resolved to 0 (R174): one that marks "last zero". -/
def PairRead.marked (x : PairRead) : Bool := !x.id && !x.cmp && !x.dir

/-- The direction at position `pos` is the one R173 and R174 give: the pair is not idle; a pair of two different bits forces its
first; at a discrepancy the buffer's bit below `ld`, 1 at `ld` and 0 above it. -/
def PairRead.Chosen (pos ld : Nat) (rom : Address) (x : PairRead) : Prop :=
  ¬ (x.id = true ∧ x.cmp = true) ∧ (x.id ≠ x.cmp → x.dir = x.id) ∧
  (x.id = false → x.cmp = false → x.dir = if pos < ld then addrBit rom pos else pos == ld)

/-- `z` is the last marked position (1..) up to `limit`, or 0 when there is none (R174). -/
def LastMark (ps : List PairRead) (limit z : Nat) : Prop :=
  (z = 0 ∨ ∃ i x, z = i + 1 ∧ i < limit ∧ ps[i]? = some x ∧ x.marked = true) ∧
  ∀ i x, z ≤ i → i < limit → ps[i]? = some x → x.marked = false

/-- The events of a search pass with presence that takes the positions `ps` (R172, R182): with fewer than 64, the idle pair read
at the next one is its end. -/
def searchPassEvents (cmds : RomCommands) (ps : List PairRead) : List BusEvent :=
  .reset true :: (byteBits cmds.searchRom).map .write ++ ps.flatMap PairRead.events ++
    if ps.length < Config.addrBits then [.read true, .read true] else []

/-- The table of R260: each code's name and number. -/
def errorCodes : List (ErrCode × BitVec 4) :=
  [(.eNone, 0x0#4), (.eBusResetTimeout, 0x1#4), (.eBusIdleDuringSearch, 0x2#4), (.eSearchNoResponse, 0x3#4),
    (.eChecksumMismatch, 0x4#4), (.eZeroAddress, 0x5#4), (.eReadVerifyMismatch, 0x6#4), (.eUnsupportedFamily, 0x7#4)] ++
  [(.eUnknownBoardName, 0x8#4), (.eUnknownVendorName, 0x9#4), (.eUnknownBoardRole, 0xA#4), (.eNoDeviceDecoded, 0xB#4),
    (.eIllegalCommand, 0xC#4), (.eBadOperand, 0xD#4), (.eNotProcessed, 0xF#4)]

/-- The words after a device's outcome (R233): a decoded identity of one of the three roles is folded in. -/
def foldOutcome (w : Word × Word) : Except ErrCode Identity → Word × Word
  | .error _ => w
  | .ok d =>
    match roleOf d.role with
    | none => w
    | some r => foldIdentity r d w

/-- `e` is the first board entry whose prefix begins the name (R222). -/
def FirstBoard (cat : List BoardEntry) (name : List Byte) (e : BoardEntry) : Prop :=
  ∃ pre post, cat = pre ++ e :: post ∧ e.name <+: name ∧ ∀ x ∈ pre, ¬ x.name <+: name

/-- `e` is the first vendor entry whose prefix begins the name (R222). -/
def FirstVendor (cat : List VendorEntry) (name : List Byte) (e : VendorEntry) : Prop :=
  ∃ pre post, cat = pre ++ e :: post ∧ e.name <+: name ∧ ∀ x ∈ pre, ¬ x.name <+: name

/-- The record bytes that DECODE reads (R220, R228): vendor name, board name, the four revision characters. -/
def recordByteUsed (j : Nat) : Bool :=
  decide ((1 ≤ j ∧ j ≤ 10) ∨ (13 ≤ j ∧ j ≤ 24) ∨ (27 ≤ j ∧ j ≤ 30))

/-- A per-device outcome that ends IDENTIFY's device loop (R233, R237): a decoded role outside the three. -/
def outcomeFatal : Except ErrCode Identity → Bool
  | .error _ => false
  | .ok d => (roleOf d.role).isNone

/-- The code with which IDENTIFY finishes processing a device (R46, R236). -/
def outcomeCode : Except ErrCode Identity → ErrCode
  | .error c => c
  | .ok d => if (roleOf d.role).isNone then .eUnknownBoardRole else .eNone

/-- Reading and decoding the device with index `k` in `v` leads to `w` with outcome `o` (R236, R237): MEMRD, and DECODE only where
MEMRD's code is 0x0; a code other than 0x0 is the outcome, else the decoded identity. -/
def ProcessesDevice (k : Nat) (v : State) (o : Except ErrCode Identity) (w : State) : Prop :=
  ∃ m : State, exec (.memrd k) v = .next m ∧
    ((m.err ≠ .eNone ∧ w = m ∧ o = .error m.err) ∨
      (m.err = .eNone ∧ exec .decode m = .next w ∧ o = if w.err = .eNone then .ok w.ident else .error w.err))

/-- The largest number of bus events a command appends to H (R301). -/
def maxEvents : Instr → Nat
  | .owreset => 1
  | .owwbit _ => 1
  | .owrbit => 1
  | .owwbyte _ => 8
  | .owrbyte => 8
  | .crc8 _ => 0
  | .srchinit => 0
  | .srchnext => 201
  | .enum => 1005
  | .memrd _ => 7060
  | .decode => 0
  | .identify => 36305

/-- The commands that always make exactly their largest number of events (R301). -/
def eventsFixed : Instr → Bool
  | .owreset => true
  | .owwbit _ => true
  | .owrbit => true
  | .owwbyte _ => true
  | .owrbyte => true
  | .crc8 _ => true
  | .srchinit => true
  | .srchnext => false
  | .enum => false
  | .memrd _ => false
  | .decode => true
  | .identify => false

/-- The commands that read and write neither SearchState nor the working buffer (R299). -/
def outsideSearch : Instr → Bool
  | .owreset => true
  | .owwbit _ => true
  | .owrbit => true
  | .owwbyte _ => true
  | .owrbyte => true
  | .crc8 _ => true
  | .srchinit => false
  | .srchnext => false
  | .enum => false
  | .memrd _ => true
  | .decode => true
  | .identify => false

/-- The step runs an IDENTIFY to its completion: it is running and its last primitive is due, or the host writes it to CMD. -/
def RunsIdentify (s : State) : Prop :=
  (∃ start k, s.engine = .running .identify start k) ∨
  (∃ w rest, s.pending = .access (.write 0x00 4 w) :: rest ∧ decodeWord w = some .identify)

/-- The step asserts the reset input. -/
def AssertsReset (s : State) : Prop := ∃ rest, s.pending = .resetPin true :: rest

/-- The keys of addresses, in the order given, rise strictly (R181). -/
def keysRise (as : List Address) : Prop := (as.map searchKey).Pairwise (· < ·)

end Sys2Proof.Machine
end

