-- ==== Sys2Proof/Certificates/Slice0/Obligations.lean ====
section
/-! DEFINITION. The statements for the provers. In each, a next state written as a record update states the frame: every field not
named in it is unchanged. -/

open Sys2Proof Sys2Proof.Machine

/-! ## Encoding (30_encoding.md) -/

/-- R114, R120: the encoding of every command whose index fits its 3 bits decodes to it, as a word and as bytes. -/
def Obligations.DecodeOfEncodeIsTheCommand : Prop :=
  ∀ i : Instr, i.wf = true →
    decodeWord (encode i) = some i ∧ ∀ rest, decodeBytes (encodeBytes i ++ rest) = .ok (i, rest)

/-- R114, R120: a word that decodes is the encoding of its command, which is well formed; at most one row matches a word. -/
def Obligations.DecodedWordIsItsEncoding : Prop :=
  (∀ (w : Word) (i : Instr), decodeWord w = some i → encode i = w ∧ i.wf = true) ∧
  ∀ w : Word, (opTable.filter (rowMatches w)).length ≤ 1

/-- R115: the illegal words are exactly those with an unassigned OPC, a reserved ARG8 bit set, or `w[31:16] ≠ 0`. -/
def Obligations.IllegalWordsAreTheReservedOnes : Prop :=
  ∀ w : Word, decodeWord w = none ↔
    w.extractLsb' 16 16 ≠ 0#16 ∨
    w.extractLsb' 0 8 ∉ [0x01#8, 0x02#8, 0x03#8, 0x04#8, 0x05#8, 0x06#8, 0x10#8, 0x11#8, 0x12#8, 0x20#8, 0x30#8, 0x31#8] ∨
    (w.extractLsb' 0 8 = 0x02#8 ∧ w.extractLsb' 9 7 ≠ 0#7) ∨
    (w.extractLsb' 0 8 = 0x20#8 ∧ w.extractLsb' 11 5 ≠ 0#5) ∨
    (w.extractLsb' 0 8 ∈ [0x01#8, 0x03#8, 0x05#8, 0x10#8, 0x11#8, 0x12#8, 0x30#8, 0x31#8] ∧ w.extractLsb' 8 8 ≠ 0#8)

/-- R114: words written out from its patterns, one per family, decode to the commands they stand for. -/
def Obligations.WrittenOutWordsDecode : Prop :=
  decodeWord 0b00000000000000000000000100000010#32 = some (.owwbit true) ∧
  decodeWord 0b00000000000000000101010100000100#32 = some (.owwbyte 0x55#8) ∧
  decodeWord 0b00000000000000000010110100000110#32 = some (.crc8 0x2D#8) ∧
  decodeWord 0b00000000000000000000000000010001#32 = some .srchnext ∧
  decodeWord 0b00000000000000000000010100100000#32 = some (.memrd 5) ∧
  decodeWord 0b00000000000000000000000000110001#32 = some .identify ∧
  decodeWord 0b00000000000000000000000000000000#32 = none

/-! ## Acceptance, completion, host accesses (60_exceptions.md, 10_state.md, 20_memory.md) -/

/-- R34, R110, R261: a step in which the host writes a word that decodes to a command runs that command, from the state of its
acceptance; and the state `withFetchWord` builds is such a one. -/
def Obligations.StepRunsTheWrittenCommand : Prop :=
  (∀ (s : State) (w : Word) (rest : List Turn) (i : Instr),
    s.pending = .access (.write 0x00 4 w) :: rest → s.inReset = false → s.engine = .idle → decodeWord w = some i →
    step s = exec i { s with cmdLast := w, done := false, engine := .running i s.bus 0, pending := rest }) ∧
  (∀ (s : State) (nbits w : Nat) (i : Instr), decodeTableWord nbits w = some i →
    step (s.withFetchWord nbits w) =
      exec i { s with
        cmdLast := BitVec.ofNat 32 (w % 2 ^ nbits), done := false, engine := .running i s.bus 0, inReset := false })

/-- R261: accepting a command changes no field but `cmd_last`, `done`, and `engine` with its BUSY; `finish` writes ERR, DONE and
the engine. -/
def Obligations.AcceptanceAndCompletionFields : Prop :=
  (∀ (s : State) (w : Word) (rest : List Turn) (i : Instr),
    s.pending = .issue w :: rest → s.inReset = false → s.engine = .idle → decodeWord w = some i →
    step s = .next { s with cmdLast := w, done := false, engine := .running i s.bus 0, pending := rest } ∧
    s.busy = false ∧ (acceptCommand w i s).busy = true) ∧
  (∀ (c : ErrCode) (s : State), finish c s = { s with err := c, engine := .idle, done := true } ∧ (finish c s).busy = false)

/-- R266: an illegal word completes at once with `E_ILLEGAL_COMMAND`, whichever way the host writes it. -/
def Obligations.IllegalWordCompletesAtOnce : Prop :=
  (∀ (s : State) (w : Word) (rest : List Turn),
    (s.pending = .access (.write 0x00 4 w) :: rest ∨ s.pending = .issue w :: rest) →
    s.inReset = false → s.engine = .idle → decodeWord w = none →
    step s = .next { s with cmdLast := w, err := .eIllegalCommand, done := true, pending := rest }) ∧
  (∀ s : State, s.engine = .idle → s.bus.present = false → s.found = false → s.ovr = false → s.idValid = false →
    s.defaults = false → statusWord (acceptIllegal 0x00000000#32 s) = 0x00000C02#32)

/-- R295, R49: while BUSY = 1 a write to CMD, whichever way the host makes it, or to CRC only sets OVR; a write to STATUS takes
effect at any time; every other write, to a read-only register or a reserved offset, is ignored at any time and does not set
OVR. -/
def Obligations.WritesThatAcceptNoCommand : Prop :=
  (∀ (s : State) (off : Nat) (w : Word) (rest : List Turn),
    s.pending = .access (.write off 4 w) :: rest → s.inReset = false → off % 4 = 0 → off < 0x100 →
    ((off = 0x00 ∨ off = 0x0C) → s.busy = true → step s = .next { s with ovr := true, pending := rest }) ∧
    (off = 0x04 → step s =
      .next { s with done := s.done && !w.getLsbD 1, ovr := s.ovr && !w.getLsbD 4, pending := rest }) ∧
    (off ≠ 0x00 → off ≠ 0x04 → off ≠ 0x0C → step s = .next { s with pending := rest })) ∧
  (∀ (s : State) (w : Word) (rest : List Turn),
    s.pending = .issue w :: rest → s.inReset = false → s.busy = true → step s = .next { s with ovr := true, pending := rest })

/-- R37: while BUSY = 0 a write to CRC loads the accumulator from bits [7:0] and changes nothing else. -/
def Obligations.IdleWriteLoadsCrc : Prop :=
  ∀ (s : State) (w : Word) (rest : List Turn), s.pending = .access (.write 0x0C 4 w) :: rest → s.inReset = false →
    s.engine = .idle → step s = .next { s with crc := w.extractLsb' 0 8, pending := rest }

/-- R84: a read while BUSY = 0 answers the register's word and changes nothing of OWID (only the model's `readData`); R48: a
reserved offset reads 0; R34: CMD reads `cmd_last`. -/
def Obligations.IdleReadsHaveNoSideEffect : Prop :=
  ∀ (s : State) (off : Nat) (rest : List Turn),
    s.pending = .access (.read off 4) :: rest → s.inReset = false → s.engine = .idle → off % 4 = 0 → off < 0x100 →
    step s = .next { s with readData := regRead (regAt off) s, pending := rest } ∧
    (off = 0x00 → regRead (regAt off) s = s.cmdLast) ∧
    (0x8C ≤ off → regRead (regAt off) s = 0#32)

/-- R296: while BUSY = 1 a read of STATUS gives BUSY = 1 and OVR as it is; every other bit of every register is the free
value. -/
def Obligations.ReadsWhileBusyAreFree : Prop :=
  ∀ (s : State) (off : Nat) (rest : List Turn),
    s.pending = .access (.read off 4) :: rest → s.inReset = false → s.busy = true → off % 4 = 0 → off < 0x100 →
    ∃ v : Word, step s = .next { s with readData := v, freeReads := s.freeReads + 1, pending := rest } ∧
      (off = 0x04 → v.getLsbD 0 = true ∧ v.getLsbD 4 = s.ovr) ∧
      (∀ n, n < 32 → off ≠ 0x04 ∨ (n ≠ 0 ∧ n ≠ 4) → v.getLsbD n = (Config.freeRead s.freeReads off).getLsbD n)

/-- R83: an access that is not an aligned 32-bit one is refused, in every state: by its address, where BASE is a multiple of 4;
and by its offset whatever BASE is, which is the model's choice (log entry 20). -/
def Obligations.UnalignedAccessIsRefused : Prop :=
  ∀ (s : State) (off width : Nat) (w : Word) (rest : List Turn),
    (s.pending = .access (.read off width) :: rest ∨ s.pending = .access (.write off width w) :: rest) →
    (∀ a, s.cfg.base % 4 = 0 → offsetOfAddress s.cfg a = some off → (width ≠ 4 ∨ a % 4 ≠ 0) →
      step s = .refused .accessNotAlignedWord) ∧
    ((width ≠ 4 ∨ off % 4 ≠ 0) → step s = .refused .accessNotAlignedWord)

/-- R81: a host address reaches an offset of the block only from BASE up to BASE + 0xFF; the model refuses an access outside. -/
def Obligations.AccessOutsideTheBlock : Prop :=
  (∀ (c : Config) (a off : Nat), offsetOfAddress c a = some off ↔ a = c.base + off ∧ off < 0x100) ∧
  (∀ (s : State) (off : Nat) (w : Word) (rest : List Turn), 0x100 ≤ off → off % 4 = 0 →
    (s.pending = .access (.read off 4) :: rest ∨ s.pending = .access (.write off 4 w) :: rest) →
    step s = .refused .accessOutsideBlock)

/-- A step answers a next state whatever the state, as long as the host accesses to come are aligned and inside the block
(R83, R81); it never answers a fault (R262, R268). -/
def Obligations.StepAnswersForLegalAccesses : Prop :=
  (∀ s : State, AccessesLegal s → ∃ t, step s = .next t ∧ AccessesLegal t) ∧
  (∀ (s : State) (f : Fault), step s ≠ .fault f) ∧
  (∀ (i : Instr) (s : State), ∃ t, exec i s = .next t ∧ t.engine = .idle ∧ t.done = true)

/-! ## Register layouts (10_state.md) -/

/-- R35, R260: the fields of STATUS, ERR with the number of each code; its reserved bits read 0. -/
def Obligations.StatusWordLayout : Prop :=
  ∀ (s : State), regAt 0x04 = .status ∧
    (regRead .status s).getLsbD 0 = s.busy ∧ (regRead .status s).getLsbD 1 = s.done ∧
    (regRead .status s).getLsbD 2 = s.bus.present ∧ (regRead .status s).getLsbD 3 = s.found ∧
    (regRead .status s).getLsbD 4 = s.ovr ∧ (regRead .status s).getLsbD 5 = s.idValid ∧
    (regRead .status s).getLsbD 6 = s.defaults ∧ (regRead .status s).getLsbD 7 = false ∧
    (regRead .status s).extractLsb' 8 4 = errBits s.err ∧
    (∀ c n, (c, n) ∈ errorCodes → s.err = c → (regRead .status s).extractLsb' 8 4 = n) ∧
    (regRead .status s).extractLsb' 12 20 = 0#20

/-- R38, R40, R45: the fields of SEARCH, DEVCOUNT and MEMDIAG in a legal state; their reserved bits read 0. -/
def Obligations.SearchAndCountLayout : Prop :=
  ∀ (s : State), s.Legal →
    (regAt 0x10 = .search ∧ ((regRead .search s).extractLsb' 0 7).toNat = s.ss.ld ∧
      (regRead .search s).getLsbD 7 = false ∧ ((regRead .search s).extractLsb' 8 4).toNat = s.ss.lfd ∧
      (regRead .search s).extractLsb' 12 4 = 0#4 ∧ (regRead .search s).getLsbD 16 = s.ss.ldf ∧
      (regRead .search s).extractLsb' 17 15 = 0#15) ∧
    (regAt 0x14 = .devcount ∧ ((regRead .devcount s).extractLsb' 0 3).toNat = s.count ∧
      (regRead .devcount s).extractLsb' 3 5 = 0#5 ∧ (regRead .devcount s).getLsbD 8 = s.full ∧
      (regRead .devcount s).extractLsb' 9 23 = 0#23) ∧
    (regAt 0x78 = .memdiag ∧ ((regRead .memdiag s).extractLsb' 0 4).toNat = s.attempts ∧
      (regRead .memdiag s).extractLsb' 4 28 = 0#28)

/-- R36, R37, R39, R41, R42: DATA, CRC, ROMLO, ROMHI, the ten words of DEVTAB and the eight of RECBUF, byte lanes
little-endian. -/
def Obligations.DataWordsLayout : Prop :=
  ∀ (s : State),
    (regRead (regAt 0x08) s = s.data.setWidth 32 ∧ regRead (regAt 0x0C) s = s.crc.setWidth 32) ∧
    (∀ k, k < 4 → wordByte (regRead (regAt 0x18) s) k = addrByte s.rom k ∧
      wordByte (regRead (regAt 0x1C) s) k = addrByte s.rom (4 + k)) ∧
    (∀ i (h : i < 5) k, k < 4 → wordByte (regRead (regAt (0x20 + 8 * i)) s) k = addrByte s.devtab[i] k ∧
      wordByte (regRead (regAt (0x24 + 8 * i)) s) k = addrByte s.devtab[i] (4 + k)) ∧
    (∀ j (h : j < 32), wordByte (regRead (regAt (0x48 + 4 * (j / 4))) s) (j % 4) = s.recbuf[j])

/-- R43, R44, R46, R260: IDENT0, IDENT1, SERIAL, REVISION and IDDIAG, DEVERR_i with the number of each code; reserved bits
0. -/
def Obligations.IdentityWordsLayout : Prop :=
  ∀ (s : State),
    (wordByte (regRead (regAt 0x68) s) 0 = s.ident.role ∧ wordByte (regRead (regAt 0x68) s) 1 = s.ident.boardId ∧
      wordByte (regRead (regAt 0x68) s) 2 = s.ident.vendorId ∧ wordByte (regRead (regAt 0x68) s) 3 = s.ident.revCode) ∧
    (wordByte (regRead (regAt 0x6C) s) 0 = s.ident.revId ∧ wordByte (regRead (regAt 0x6C) s) 1 = s.ident.bomRev ∧
      (regRead (regAt 0x6C) s).extractLsb' 16 16 = 0#16) ∧
    (regRead (regAt 0x70) s = s.serial ∧ regRead (regAt 0x74) s = s.revision) ∧
    ((∀ i (h : i < 5), (regRead (regAt 0x7C) s).extractLsb' (4 * i) 4 = errBits s.deverr[i] ∧
        ∀ c n, (c, n) ∈ errorCodes → s.deverr[i] = c → (regRead (regAt 0x7C) s).extractLsb' (4 * i) 4 = n) ∧
      (regRead (regAt 0x7C) s).extractLsb' 20 3 = s.missing ∧ (regRead (regAt 0x7C) s).getLsbD 23 = false ∧
      (s.okcount ≤ 5 → ((regRead (regAt 0x7C) s).extractLsb' 24 3).toNat = s.okcount) ∧
      (regRead (regAt 0x7C) s).extractLsb' 27 5 = 0#5)

/-- R47: the accessor registers are these slices of `serial` and `revision`; all their other bits read 0. -/
def Obligations.AccessorRegistersSliceTheWords : Prop :=
  ∀ (s : State) (off ob ov oc oi : Nat),
    (off, ob, ov, oc, oi) ∈ [(0x80, 20, 25, 10, 21), (0x84, 10, 15, 5, 18), (0x88, 0, 5, 0, 15)] →
    (regRead (regAt off) s).extractLsb' 0 5 = s.serial.extractLsb' ob 5 ∧
    (regRead (regAt off) s).extractLsb' 8 5 = s.serial.extractLsb' ov 5 ∧
    (regRead (regAt off) s).extractLsb' 16 5 = s.revision.extractLsb' oc 5 ∧
    (regRead (regAt off) s).extractLsb' 24 3 = s.revision.extractLsb' oi 3 ∧
    (regRead (regAt off) s).extractLsb' 5 3 = 0#3 ∧ (regRead (regAt off) s).extractLsb' 13 3 = 0#3 ∧
    (regRead (regAt off) s).extractLsb' 21 3 = 0#3 ∧ (regRead (regAt off) s).extractLsb' 27 5 = 0#5

/-! ## Reset (70_reset_and_hazards.md) -/

/-- R290: what reset leaves, field by field, and that every register offset then reads 0. -/
def Obligations.ResetStateIsAllZero : Prop :=
  State.reset.cmdLast = 0x00000000#32 ∧ State.reset.busy = false ∧ State.reset.engine = .idle ∧
  State.reset.done = false ∧ State.reset.bus.present = false ∧ State.reset.found = false ∧ State.reset.ovr = false ∧
  State.reset.idValid = false ∧ State.reset.defaults = false ∧ errBits State.reset.err = 0x0#4 ∧
  State.reset.data = 0x00#8 ∧ State.reset.crc = 0x00#8 ∧
  (State.reset.ss.ld = 0 ∧ State.reset.ss.lfd = 0 ∧ State.reset.ss.ldf = false) ∧ State.reset.rom = 0#64 ∧
  State.reset.count = 0 ∧ State.reset.full = false ∧ (∀ i (h : i < 5), State.reset.devtab[i] = 0#64) ∧
  (∀ j (h : j < 32), State.reset.recbuf[j] = 0x00#8) ∧ State.reset.ident = ⟨0#8, 0#8, 0#8, 0#8, 0#8, 0#8⟩ ∧
  State.reset.serial = 0x00000000#32 ∧ State.reset.revision = 0x00000000#32 ∧ State.reset.attempts = 0 ∧
  (∀ i (h : i < 5), errBits State.reset.deverr[i] = 0x0#4) ∧ State.reset.missing = 0#3 ∧ State.reset.okcount = 0 ∧
  State.reset.bus.dqOe = false ∧ State.reset.bus.history = [] ∧
  (∀ k, k < 64 → regRead (regAt (4 * k)) State.reset = 0x00000000#32)

/-- R291, R292: asserting the reset input, in any state and during any command, puts every item of OWID's state at its reset
value at once: DQ is released, H is empty, the engine is idle. What is not OWID's (the parameters, the environment, the turns to
come, the model's own counters) stays, and releasing the input changes nothing else. -/
def Obligations.ResetInputFromAnyState : Prop :=
  ∀ (s : State) (rest : List Turn),
    (s.pending = .resetPin true :: rest → step s = .next
      { State.reset with
        cfg := s.cfg
        bus := { dqOe := false, present := false, history := [], line := s.bus.line, samples := s.bus.samples }
        inReset := true
        readData := s.readData
        freeReads := s.freeReads
        pending := rest }) ∧
    (s.pending = .resetPin false :: rest → step s = .next { s with inReset := false, pending := rest })

/-- R291: while the reset input is asserted no host access is served and no command runs; the word a read then returns is the
free value of log entry 10. -/
def Obligations.NothingIsServedInReset : Prop :=
  ∀ (s : State) (rest : List Turn) (off : Nat) (w : Word), s.inReset = true → off % 4 = 0 → off < 0x100 →
    (s.pending = .access (.write off 4 w) :: rest → step s = .next { s with pending := rest }) ∧
    (s.pending = .issue w :: rest → step s = .next { s with pending := rest }) ∧
    (s.pending = .engine :: rest → step s = .next { s with pending := rest }) ∧
    (s.pending = .access (.read off 4) :: rest → step s = .next { s with
      readData := Config.freeRead s.freeReads off, freeReads := s.freeReads + 1, pending := rest }) ∧
    (s.pending = [] → step s = .next s)

/-- R274: while no command runs, a step that is no host access and no edge of the reset input holds OWID's state unchanged. -/
def Obligations.IdleEngineHoldsItsState : Prop :=
  ∀ (s : State) (rest : List Turn), s.engine = .idle →
    (s.pending = .engine :: rest → step s = .next { s with pending := rest }) ∧
    (s.pending = [] → step s = .next s)

/-! ## BitProtocol (40_bit_protocol.md) -/

/-- R137. -/
def Obligations.OwresetReportsPresence : Prop :=
  encode .owreset = 0x00000001#32 ∧
  ∀ s : State, ∃ p : Bool,
    exec .owreset s = .next { s with
      err := if p then .eNone else .eBusResetTimeout
      engine := .idle
      done := true
      bus := { s.bus with
        dqOe := false
        present := p
        history := .reset p :: s.bus.history
        line := lineAfter (.reset p) s.bus.line
        samples := s.bus.samples + 1 } } ∧
    (∀ l ls, s.bus.line = .script (l :: ls) → p = !l) ∧
    (∀ cmds ds, s.bus.line = .devices cmds ds → p = !ds.isEmpty)

/-- R138. -/
def Obligations.OwwbitWritesOneBit : Prop :=
  encode (.owwbit false) = 0x00000002#32 ∧ encode (.owwbit true) = 0x00000102#32 ∧
  ∀ (s : State) (bit : Bool),
    exec (.owwbit bit) s = .next { s with
      err := .eNone
      engine := .idle
      done := true
      bus := { s.bus with
        dqOe := false
        history := .write bit :: s.bus.history
        line := lineAfter (.write bit) s.bus.line } } ∧
    (∀ ls, s.bus.line = .script ls → lineAfter (.write bit) s.bus.line = .script ls)

/-- R139. -/
def Obligations.OwrbitReadsOneBit : Prop :=
  encode .owrbit = 0x00000003#32 ∧
  ∀ s : State, ∃ b : Bool,
    exec .owrbit s = .next { s with
      data := if b then 0x01#8 else 0x00#8
      err := .eNone
      engine := .idle
      done := true
      bus := { s.bus with
        dqOe := false
        history := .read b :: s.bus.history
        line := lineAfter (.read b) s.bus.line
        samples := s.bus.samples + 1 } } ∧
    (∀ l ls, s.bus.line = .script (l :: ls) → b = l) ∧
    (∀ cmds ds, s.bus.line = .devices cmds ds → (∀ d ∈ ds, deviceLevel d = true) → b = true)

/-- R140 (and R135): eight write slots, bit 0 first. -/
def Obligations.OwwbyteWritesLsbFirst : Prop :=
  (∀ v : Byte, encode (.owwbyte v) = 0x00000004#32 ||| (v.setWidth 32 <<< 8)) ∧
  ∀ (s : State) (v : Byte), ∃ l : Line,
    exec (.owwbyte v) s = .next { s with
      err := .eNone
      engine := .idle
      done := true
      bus := { s.bus with
        dqOe := false
        history := [BusEvent.write (v.getLsbD 7), .write (v.getLsbD 6), .write (v.getLsbD 5), .write (v.getLsbD 4),
          .write (v.getLsbD 3), .write (v.getLsbD 2), .write (v.getLsbD 1), .write (v.getLsbD 0)] ++ s.bus.history
        line := l } } ∧
    l = (List.range 8).foldl (fun x i => lineAfter (.write (v.getLsbD i)) x) s.bus.line

/-- R141 (and R136): eight read slots; the first bit read is bit 0 of DATA; an idle bus reads 0xFF. -/
def Obligations.OwrbyteReadsLsbFirst : Prop :=
  encode .owrbyte = 0x00000005#32 ∧
  ∀ s : State, ∃ (v : Byte) (l : Line),
    exec .owrbyte s = .next { s with
      data := v
      err := .eNone
      engine := .idle
      done := true
      bus := { s.bus with
        dqOe := false
        history := [BusEvent.read (v.getLsbD 7), .read (v.getLsbD 6), .read (v.getLsbD 5), .read (v.getLsbD 4),
          .read (v.getLsbD 3), .read (v.getLsbD 2), .read (v.getLsbD 1), .read (v.getLsbD 0)] ++ s.bus.history
        line := l
        samples := s.bus.samples + 8 } } ∧
    l = (List.range 8).foldl (fun x i => lineAfter (.read (v.getLsbD i)) x) s.bus.line ∧
    (∀ b0 b1 b2 b3 b4 b5 b6 b7 ls, s.bus.line = .script (b0 :: b1 :: b2 :: b3 :: b4 :: b5 :: b6 :: b7 :: ls) →
      (v.getLsbD 0 = b0 ∧ v.getLsbD 1 = b1 ∧ v.getLsbD 2 = b2 ∧ v.getLsbD 3 = b3 ∧ v.getLsbD 4 = b4 ∧
        v.getLsbD 5 = b5 ∧ v.getLsbD 6 = b6 ∧ v.getLsbD 7 = b7) ∧ l = .script ls) ∧
    (∀ cmds ds, s.bus.line = .devices cmds ds → (∀ d ∈ ds, d.phase = .inactive) → v = 0xFF#8)

/-- R134, R302: in every legal timing the three slots have one length and a reset T_RESET; the bus time of events is their sum, so
a complete search pass takes T_RESET + 200 T_SLOT and a complete read pass T_RESET + 352 T_SLOT; the default timing is legal and
gives R302's figures. -/
def Obligations.SlotAndPassDurations : Prop :=
  (∀ t : Timing, t.wf = true →
    (∀ b, waveTime (eventWave t (.write b)) = slotTime t ∧ waveTime (eventWave t (.read b)) = slotTime t ∧
      waveTime (eventWave t (.reset b)) = resetTime t) ∧
    (∀ es : List BusEvent, busTime t es =
      (es.filter (fun e => match e with | .reset _ => true | .write _ => false | .read _ => false)).length * resetTime t +
      (es.filter (fun e => match e with | .reset _ => false | .write _ => true | .read _ => true)).length * slotTime t) ∧
    (∀ cmds ps, ps.length = 64 → busTime t (searchPassEvents cmds ps) = resetTime t + 200 * slotTime t) ∧
    (∀ cmds a r, busTime t (readPassEvents cmds a r) = resetTime t + 352 * slotTime t)) ∧
  Timing.default.wf = true ∧ slotTime Timing.default = 70 ∧ resetTime Timing.default = 960 ∧
  (∀ cmds ps, ps.length = 64 → busTime Timing.default (searchPassEvents cmds ps) = 14960) ∧
  (∀ cmds a r, busTime Timing.default (readPassEvents cmds a r) = 25600)

/-! ## Crc8Engine (41_crc8.md) -/

/-- R162 (with the table of R161): CRC8 writes `T[crc ^ v]`; the entries the spec calls useful. -/
def Obligations.Crc8FoldsByTheTable : Prop :=
  (∀ v : Byte, encode (.crc8 v) = 0x00000006#32 ||| (v.setWidth 32 <<< 8)) ∧
  (∀ (s : State) (v : Byte), exec (.crc8 v) s =
    .next { s with crc := crcTable[(s.crc ^^^ v).toNat]?.getD 0x00#8, err := .eNone, engine := .idle, done := true }) ∧
  crcTable.length = 256 ∧ crcTable[0x00]? = some 0x00#8 ∧ crcTable[0x01]? = some 0x5E#8 ∧ crcTable[0x02]? = some 0xBC#8 ∧
  crcTable[0x80]? = some 0x8C#8 ∧ crcTable[0xFF]? = some 0x35#8

/-- R163: folding a string's own CRC gives 0; and the CRC of the 8 bytes of an address is 0 exactly when its byte 7 is the CRC of
bytes 0..6. -/
def Obligations.CrcResidueIsZero : Prop :=
  (∀ (c : Byte) (vs : List Byte), crcBytes c (vs ++ [crcBytes c vs]) = 0x00#8) ∧
  (∀ a : Address, crcBytes 0x00#8 (addrBytes a) = 0x00#8 ↔
    addrByte a 7 = crcBytes 0x00#8
      [addrByte a 0, addrByte a 1, addrByte a 2, addrByte a 3, addrByte a 4, addrByte a 5, addrByte a 6])

/-! ## RomSearchEngine and DeviceEnumerator (42_rom_search.md) -/

/-- R171. -/
def Obligations.SrchinitResetsSearchState : Prop :=
  encode .srchinit = 0x00000010#32 ∧
  ∀ s : State, exec .srchinit s =
    .next { s with ss := ⟨0, 0, false⟩, found := false, err := .eNone, engine := .idle, done := true }

/-- R179. -/
def Obligations.SrchnextNoMoreDevices : Prop :=
  ∀ s : State, s.ss.ldf = true → exec .srchnext s = .next { s with
    ss := if s.cfg.noMoreResetsState then ⟨0, 0, false⟩ else s.ss
    found := false
    err := .eNone
    engine := .idle
    done := true }

/-- R173, R174, R175: one position of a pass, with the pair (id, cmp) read: (1,1) stops it with no write slot; (1,0) and (0,1)
force the direction; at (0,0) `DiscrepancyDirection` chooses it and marks a 0. The direction is stored and written, and a
completed byte is folded. -/
def Obligations.SearchPositionByReadPair : Prop :=
  ∀ (ld n : Nat) (p : PassState) (id cmp : Bool) (rest : List Bool), n < 64 →
    p.bus.line = .script (id :: cmp :: rest) →
    (id = true → cmp = true →
      walkPositions ld (n + 1) p = (some (64 - n), { p with bus := busReplay [.read id, .read cmp] p.bus })) ∧
    (∀ (dir zero : Bool) (rom : Address), ¬ (id = true ∧ cmp = true) →
      dir = (if id ≠ cmp then id
        else if 64 - n < ld then p.rom.getLsbD (64 - n - 1)
        else if 64 - n = ld then true
        else false) →
      zero = (id == cmp && !dir) →
      (∀ i, i < 64 → rom.getLsbD i = if i = 64 - n - 1 then dir else p.rom.getLsbD i) →
      walkPositions ld (n + 1) p = walkPositions ld n
        { lastZero := if zero then 64 - n else p.lastZero
          lfd := if zero = true ∧ 64 - n < 9 then 64 - n else p.lfd
          rom := rom
          crc := if (64 - n) % 8 = 0 then crc8 p.crc (addrByte rom ((64 - n) / 8 - 1)) else p.crc
          bus := busReplay [.read id, .read cmp, .write dir] p.bus })

/-- R170, R176, R177, R178: what SRCHNEXT writes and what its answer means. Without presence one event, `E_BUS_RESET_TIMEOUT`
and ROM kept; after every failure FOUND = 0 and `SS` = INIT; with FOUND = 1 an address that is not zero and has CRC 0, and
LDF = 1 exactly with LD = 0. -/
def Obligations.SrchnextOutcomeAndFrame : Prop :=
  ∀ s : State, s.ss.legal → ∃ t : State, exec .srchnext s = .next t ∧
    t = { s with
      found := t.found, err := t.err, engine := .idle, done := true, ss := t.ss, rom := t.rom, bus := t.bus } ∧
    t.ss.legal ∧
    (∀ cmds ls, s.bus.line = .script (true :: ls) ∨ s.bus.line = .devices cmds [] → s.ss.ldf = false →
      t.found = false ∧ t.err = .eBusResetTimeout ∧ t.ss = SearchState.init ∧ t.rom = s.rom ∧
      t.bus.history = .reset false :: s.bus.history ∧ t.bus.present = false) ∧
    (s.ss.ldf = false → (t.found = true ↔ t.err = .eNone)) ∧
    (t.err ≠ .eNone → t.found = false ∧ t.ss = SearchState.init) ∧
    (t.found = true → ValidAddress t.rom ∧ (t.ss.ldf = true ↔ t.ss.ld = 0)) ∧
    t.err ∈ [ErrCode.eNone, .eBusResetTimeout, .eSearchNoResponse, .eBusIdleDuringSearch, .eChecksumMismatch,
      .eZeroAddress]

/-- R182: the events of a pass: 1 without presence; else 1 reset, the 8 writes of the command byte, 192 for a complete pass, and
3·(q - 1) + 2 when it stops idle at position q, with the code of that position. -/
def Obligations.SearchPassEvents : Prop :=
  ∀ s : State, s.ss.legal → s.ss.ldf = false → ∃ (t : State) (es : List BusEvent),
    exec .srchnext s = .next t ∧ t.bus = busReplay es s.bus ∧
    ((es = [.reset false] ∧ t.err = .eBusResetTimeout) ∨
      ∃ fs, es = .reset true :: (byteBits s.cfg.cmds.searchRom).map .write ++ fs ∧ (∀ p, BusEvent.reset p ∉ fs) ∧
        ((fs.length = 192 ∧ t.err ∈ [ErrCode.eNone, .eChecksumMismatch, .eZeroAddress]) ∨
          ∃ q, 1 ≤ q ∧ q ≤ 64 ∧ fs.length = 3 * (q - 1) + 2 ∧
            t.err = if q = 1 then .eSearchNoResponse else .eBusIdleDuringSearch))

/-- R172–R178, for every answer of the bus: a pass without presence ends at its reset; else it takes positions as R173 and R174
choose them, up to the first idle pair. Their directions stand in ROM, whose other bits are kept, and the answer and SearchState
follow from them: after a successful pass LD is the last zero, LFD the last one below 9 or as it was, LDF = 1 with LD = 0. -/
def Obligations.SrchnextFollowsThePairsItReads : Prop :=
  ∀ s : State, s.ss.legal → s.ss.ldf = false → ∃ (t : State) (es : List BusEvent),
    exec .srchnext s = .next t ∧ t.bus = busReplay es s.bus ∧
    ((es = [.reset false] ∧ t.rom = s.rom ∧ t.found = false ∧ t.err = .eBusResetTimeout ∧ t.ss = ⟨0, 0, false⟩) ∨
      ∃ ps : List PairRead, ps.length ≤ 64 ∧ es = searchPassEvents s.cfg.cmds ps ∧
        (∀ i (x : PairRead), ps[i]? = some x → x.Chosen (i + 1) s.ss.ld s.rom) ∧
        (∀ i, i < 64 → t.rom.getLsbD i = (ps[i]?.map PairRead.dir).getD (s.rom.getLsbD i)) ∧
        (ps.length < 64 → t.found = false ∧ t.ss = ⟨0, 0, false⟩ ∧
          t.err = if ps.length = 0 then .eSearchNoResponse else .eBusIdleDuringSearch) ∧
        (ps.length = 64 → crcBytes 0x00#8 (addrBytes t.rom) ≠ 0x00#8 →
          t.found = false ∧ t.ss = ⟨0, 0, false⟩ ∧ t.err = .eChecksumMismatch) ∧
        (ps.length = 64 → t.rom = 0#64 → t.found = false ∧ t.ss = ⟨0, 0, false⟩ ∧ t.err = .eZeroAddress) ∧
        (ps.length = 64 → ValidAddress t.rom → t.found = true ∧ t.err = .eNone ∧ LastMark ps 64 t.ss.ld ∧
          (∃ m, LastMark ps 8 m ∧ t.ss.lfd = if m = 0 then s.ss.lfd else m) ∧ (t.ss.ldf = true ↔ t.ss.ld = 0)))

/-- R183, R184: what ENUM writes: COUNT entries of valid addresses, the others zero, FULL, FOUND; with an error code `SS` = INIT
and fewer than 5 entries. It is the SearchNext calls of R178 from `SS` = INIT (`us k` is the state after k of them, each run as
SRCHNEXT): as many find a device as COUNT says, the k-th entry is ROM after the k-th call, whatever ends the loop, and ERR is the
code of the call that ended it, or 0x0 with a full table. No call follows the last of them. -/
def Obligations.EnumOutcomeAndFrame : Prop :=
  encode .enum = 0x00000012#32 ∧
  ∀ s : State, ∃ (t : State) (es : List BusEvent), exec .enum s = .next t ∧
    t = { s with
      count := t.count, full := t.full, found := t.found, devtab := t.devtab, ss := t.ss, rom := t.rom, bus := t.bus
      err := t.err, engine := .idle, done := true } ∧
    t.bus = busReplay es s.bus ∧ es.length ≤ 1005 ∧ t.count ≤ 5 ∧
    (∀ i (h : i < 5), if i < t.count then ValidAddress t.devtab[i] else t.devtab[i] = 0#64) ∧
    (t.full = true ↔ t.count = 5 ∧ t.ss.ldf = false) ∧ (t.found = true ↔ 0 < t.count) ∧ t.ss.legal ∧
    (t.err ≠ .eNone → t.ss = SearchState.init ∧ t.count < 5) ∧
    ∃ us : Nat → State, us 0 = { s with ss := SearchState.init } ∧
      (∀ k, exec .srchnext (us k) = .next (us (k + 1))) ∧
      (∀ k (h : k < 5), k < t.count → (us (k + 1)).found = true ∧ t.devtab[k] = (us (k + 1)).rom) ∧
      (t.count < 5 → (us (t.count + 1)).found = false ∧ t.err = (us (t.count + 1)).err) ∧
      (t.count = 5 → t.err = .eNone) ∧
      ∀ last : State, last = us (min (t.count + 1) 5) → t.ss = last.ss ∧ t.rom = last.rom ∧ t.bus = last.bus

/-- R181, R185, on the ideal bus of R97: ENUM lists the first min(|D|, 5) of the attached devices in ascending order of search
key, each once; FULL says whether there are more; on an empty bus the first reset fails. (Devices whose two ROM command bytes are
equal take the search first: log entry 4.) -/
def Obligations.EnumFindsDevicesInKeyOrder : Prop :=
  ∀ (s : State) (cmds : RomCommands) (ds : List Device) (as : List Address),
    s.bus.line = .devices cmds ds → cmds.searchRom = s.cfg.cmds.searchRom →
    (∀ d ∈ ds, ValidAddress d.addr) → (ds.map (·.addr)).Perm as → keysRise as →
    ∃ t : State, exec .enum s = .next t ∧ t.count = min ds.length 5 ∧
      t.devtab.toList.take t.count = as.take 5 ∧
      (t.full = true ↔ 5 < ds.length) ∧
      t.err = (if ds = [] then .eBusResetTimeout else .eNone) ∧
      t.bus.history.length = s.bus.history.length + (if ds = [] then 1 else 201 * min ds.length 5)

/-! ## MemoryReader (43_memory_read.md) -/

/-- R267: an index from COUNT up finishes with `E_BAD_OPERAND`, before any bus event and with ATTEMPTS = 0; no other command and
no other operand gives that code (in the states with COUNT ≤ 5, R32's range). -/
def Obligations.OnlyMemrdHasBadOperands : Prop :=
  (∀ (s : State) (idx : Nat), s.count ≤ idx → exec (.memrd idx) s =
    .next { s with attempts := 0, err := .eBadOperand, engine := .idle, done := true }) ∧
  (∀ (i : Instr) (s t : State), s.count ≤ 5 → exec i s = .next t → t.err = .eBadOperand →
    ∃ idx, i = .memrd idx ∧ s.count ≤ idx)

/-- R200: an entry whose family byte is not in FAMILIES finishes with `E_UNSUPPORTED_FAMILY`, before any bus event. -/
def Obligations.MemrdUnsupportedFamily : Prop :=
  ∀ (s : State) (idx : Nat) (a : Address), idx < s.count → s.devtab[idx]? = some a →
    a.extractLsb' 0 8 ∉ s.cfg.families → exec (.memrd idx) s =
      .next { s with attempts := 0, err := .eUnsupportedFamily, engine := .idle, done := true }

/-- R200–R203: what MEMRD writes in any state: with code 0x0 the last 706 events are two complete passes that read the record
now in RECBUF; with another code RECBUF is kept. -/
def Obligations.MemrdOutcomeAndFrame : Prop :=
  ∀ (s : State) (idx : Nat), ∃ (t : State) (es : List BusEvent), exec (.memrd idx) s = .next t ∧
    t = { s with
      attempts := t.attempts, recbuf := t.recbuf, bus := t.bus, err := t.err, engine := .idle, done := true } ∧
    t.bus = busReplay es s.bus ∧ es.length ≤ 7060 ∧ t.attempts ≤ 10 ∧
    (t.err ≠ .eNone → t.recbuf = s.recbuf) ∧
    (t.err = .eNone → 1 ≤ t.attempts ∧ ∃ a fs, s.devtab[idx]? = some a ∧ idx < s.count ∧
      es = fs ++ readPassEvents s.cfg.cmds a t.recbuf ++ readPassEvents s.cfg.cmds a t.recbuf) ∧
    t.err ∈ [ErrCode.eNone, .eBusResetTimeout, .eReadVerifyMismatch, .eUnsupportedFamily, .eBadOperand]

/-- R204: after k < 10 attempts that compare unequal, a reset without presence in the first or the second pass of the next
attempt ends MEMRD at once with `E_BUS_RESET_TIMEOUT`, with no retry and RECBUF kept. -/
def Obligations.MemrdStopsAtResetFailure : Prop :=
  ∀ (s : State) (idx : Nat) (a : Address) (pairs : List (Record × Record)) (mid : List Bool) (rest : List Bool),
    idx < s.count → s.devtab[idx]? = some a → a.extractLsb' 0 8 ∈ s.cfg.families →
    pairs.length < 10 → (∀ p ∈ pairs, p.1 ≠ p.2) → (mid = [] ∨ ∃ r, mid = passLevels r) →
    s.bus.line = .script (pairs.flatMap attemptLevels ++ mid ++ true :: rest) →
    ∃ t : State, exec (.memrd idx) s = .next t ∧
      t = { s with
        attempts := pairs.length + 1, err := .eBusResetTimeout, engine := .idle, done := true, bus := t.bus } ∧
      t.bus.present = false ∧ t.bus.line = .script rest ∧
      t.bus.history.head? = some (.reset false) ∧
      t.bus.history.length = s.bus.history.length + 706 * pairs.length + 1 + (if mid = [] then 0 else 353)

/-- R205: every reset sees presence and attempts 1..k compare unequal. If attempt k + 1 compares equal and k ≤ 9, MEMRD ends
with ERR = 0, ATTEMPTS = k + 1 and that record in RECBUF; if k = 10, with `E_READ_VERIFY_MISMATCH`, ATTEMPTS = 10, RECBUF kept,
after exactly 7060 events. The events are those of R201. -/
def Obligations.MemrdRetriesUntilTwoPassesAgree : Prop :=
  ∀ (s : State) (idx : Nat) (a : Address) (pairs : List (Record × Record)) (r : Record) (rest : List Bool),
    idx < s.count → s.devtab[idx]? = some a → a.extractLsb' 0 8 ∈ s.cfg.families → (∀ p ∈ pairs, p.1 ≠ p.2) →
    (pairs.length ≤ 9 → s.bus.line = .script (pairs.flatMap attemptLevels ++ attemptLevels (r, r) ++ rest) →
      exec (.memrd idx) s = .next { s with
        attempts := pairs.length + 1
        recbuf := r
        err := .eNone
        engine := .idle
        done := true
        bus := busReplay (pairs.flatMap (attemptEvents s.cfg.cmds a) ++ attemptEvents s.cfg.cmds a (r, r)) s.bus }) ∧
    (pairs.length = 10 → s.bus.line = .script (pairs.flatMap attemptLevels ++ rest) →
      exec (.memrd idx) s = .next { s with
        attempts := 10
        err := .eReadVerifyMismatch
        engine := .idle
        done := true
        bus := busReplay (pairs.flatMap (attemptEvents s.cfg.cmds a)) s.bus } ∧
      (pairs.flatMap (attemptEvents s.cfg.cmds a)).length = 7060)

/-- R97, R200, R201, R88, on the ideal bus: MEMRD of an entry that is the address of one attached device reads the first 32 bytes
of that device's memory, in the first attempt. That a byte past the end of its memory reads 0xFF is what the conventions of
95_test_vectors.md say of their devices ("reads 0xFF past its end"); for a memory of fewer than 32 bytes it is the model's choice
(log entry 4). -/
def Obligations.MemrdReadsTheAddressedDevice : Prop :=
  ∀ (s : State) (idx : Nat) (ds : List Device) (d : Device),
    s.bus.line = .devices s.cfg.cmds ds → s.cfg.cmds.matchRom ≠ s.cfg.cmds.searchRom →
    (ds.map (·.addr)).Nodup → d ∈ ds →
    idx < s.count → s.devtab[idx]? = some d.addr → d.addr.extractLsb' 0 8 ∈ s.cfg.families →
    ∃ t : State, exec (.memrd idx) s = .next t ∧
      t = { s with attempts := 1, recbuf := t.recbuf, err := .eNone, engine := .idle, done := true, bus := t.bus } ∧
      (∀ j (h : j < 32), t.recbuf[j] = d.mem[j]?.getD 0xFF#8) ∧
      t.bus.history.length = s.bus.history.length + 706 ∧ t.bus.present = true

/-! ## InfoDecoder (44_identity.md) -/

/-- R221, R222, R226, R227: DECODE's three outcomes, with the names trimmed at the first 0x20 and the first catalog entry, in
table order, that begins the name; the board error comes before the vendor error. -/
def Obligations.DecodeLooksUpFirstMatches : Prop :=
  encode .decode = 0x00000030#32 ∧
  ∀ (s : State) (bname vname : List Byte),
    bname = ((s.recbuf.toList.drop 13).take 12).takeWhile (· != 0x20#8) →
    vname = ((s.recbuf.toList.drop 1).take 10).takeWhile (· != 0x20#8) →
    ((∀ e ∈ s.cfg.boardCatalog, ¬ e.name <+: bname) → exec .decode s = .next { s with
      ident := ⟨0#8, 0#8, 0#8, 0#8, 0#8, 0#8⟩, err := .eUnknownBoardName, engine := .idle, done := true }) ∧
    (∀ be, FirstBoard s.cfg.boardCatalog bname be →
      ((∀ e ∈ s.cfg.vendorCatalog, ¬ e.name <+: vname) → exec .decode s = .next { s with
        ident := ⟨0#8, 0#8, 0#8, 0#8, 0#8, 0#8⟩, err := .eUnknownVendorName, engine := .idle, done := true }) ∧
      (∀ ve, FirstVendor s.cfg.vendorCatalog vname ve → exec .decode s = .next { s with
        ident :=
          { role := be.role
            boardId := be.boardId
            vendorId := ve.vendorId
            revCode := normCode s.recbuf[27]
            revId := if s.recbuf[30] = 0x42#8 then normId s.recbuf[29] else normId s.recbuf[28]
            bomRev := if s.recbuf[30] = 0x42#8 then normCode s.recbuf[28] else s.recbuf[29] }
        err := .eNone
        engine := .idle
        done := true }))

/-- R223, R224, R225: the two normalisations, with their ranges; the swap at a mapping byte of 'B'; bomRev reaches no output
word. -/
def Obligations.RevisionCharactersNormalise : Prop :=
  (∀ c : Byte, (0x41#8 ≤ c ∧ c ≤ 0x5A#8 → normCode c = c) ∧ (0x61#8 ≤ c ∧ c ≤ 0x7A#8 → normCode c = c - 0x20#8) ∧
    (¬ (0x41#8 ≤ c ∧ c ≤ 0x5A#8) → ¬ (0x61#8 ≤ c ∧ c ≤ 0x7A#8) → normCode c = 0x41#8) ∧
    0x41#8 ≤ normCode c ∧ normCode c ≤ 0x5A#8) ∧
  (∀ c : Byte, (0x30#8 ≤ c ∧ c ≤ 0x39#8 → normId c = c) ∧
    ((0x41#8 ≤ c ∧ c ≤ 0x46#8) ∨ (0x61#8 ≤ c ∧ c ≤ 0x66#8) → normId c = 0x39#8) ∧
    (¬ (0x30#8 ≤ c ∧ c ≤ 0x39#8) → ¬ ((0x41#8 ≤ c ∧ c ≤ 0x46#8) ∨ (0x61#8 ≤ c ∧ c ≤ 0x66#8)) → normId c = 0x30#8) ∧
    0x30#8 ≤ normId c ∧ normId c ≤ 0x39#8) ∧
  (∀ r : Record, (r[30] = 0x42#8 → revisionMapping r = (normId r[29], normCode r[28])) ∧
    (r[30] ≠ 0x42#8 → revisionMapping r = (normId r[28], r[29]))) ∧
  (∀ (r : Role) (d : Identity) (b : Byte) (w : Word × Word), foldIdentity r { d with bomRev := b } w = foldIdentity r d w)

/-- R228: record bytes that are neither a name nor a revision character feed no output: two states with the same catalogs whose
records agree on the used bytes decode to the same identity and code. -/
def Obligations.DecodeIgnoresUnusedBytes : Prop :=
  ∀ s t : State, s.cfg = t.cfg →
    (∀ j (h : j < 32), recordByteUsed j = true → s.recbuf[j] = t.recbuf[j]) →
    ∃ s' t' : State, exec .decode s = .next s' ∧ exec .decode t = .next t' ∧ s'.ident = t'.ident ∧ s'.err = t'.err

/-! ## IdentityAggregator (44_identity.md) -/

/-- R231, R232, R238, R240: one identity of each role folded into s = v = 0, in any order, reads back through the accessors: ids
below 32 and the revision code exactly, the revision id modulo 8; the words' upper bits are 0. -/
def Obligations.FoldReadsBackThroughAccessors : Prop :=
  ∀ (dc dd dk : Identity) (ds : List (Role × Identity)) (w : Word × Word),
    ds.Perm [(.cpu, dc), (.display, dd), (.carrier, dk)] →
    w = ds.foldl (fun w x => foldIdentity x.1 x.2 w) (0#32, 0#32) →
    (∀ d ∈ [dc, dd, dk], d.boardId < 0x20#8 ∧ d.vendorId < 0x20#8 ∧ 0x41#8 ≤ d.revCode ∧ d.revCode ≤ 0x5A#8 ∧
      0x30#8 ≤ d.revId ∧ d.revId ≤ 0x39#8) →
    (∀ d acc, (d, acc) ∈ [(dc, accCpuWord w.1 w.2), (dd, accDisplayWord w.1 w.2), (dk, accCarrierWord w.1 w.2)] →
      (acc.extractLsb' 0 5).setWidth 8 = d.boardId ∧ (acc.extractLsb' 8 5).setWidth 8 = d.vendorId ∧
      (acc.extractLsb' 16 5).setWidth 8 = d.revCode - 0x41#8 ∧
      (acc.extractLsb' 24 3).setWidth 8 = (d.revId - 0x30#8) &&& 0x07#8) ∧
    w.1.extractLsb' 30 2 = 0#2 ∧ w.2.extractLsb' 24 8 = 0#8

/-- R233, R234, R235, R46: the fold falls back exactly when an outcome has a role outside the three or no outcome is decoded; then
the words are the defaults and MISSING is 0. Otherwise the code is 0x0, OKCOUNT counts all decoded outcomes, and a role's MISSING
bit is set exactly when no outcome has it, in which case its fields are 0. In both cases OKCOUNT counts the decoded outcomes before
the first fatal one (R233), and is 0 when none is decoded. -/
def Obligations.FallbackAndMissingRoles : Prop :=
  ∀ (cfg : Config) (os : List (Except ErrCode Identity)) (g : Summary), g = aggregate cfg os →
    (g.defaults = true ↔
      (∃ d, Except.ok d ∈ os ∧ d.role ∉ [0x01#8, 0x02#8, 0x03#8]) ∨ (∀ d, Except.ok d ∉ os)) ∧
    (g.defaults = true → g.serial = cfg.defaultSerial ∧ g.revision = cfg.defaultRevision ∧ g.missing = 0b000#3 ∧
      g.code = if os.any outcomeFatal then .eUnknownBoardRole else .eNoDeviceDecoded) ∧
    (g.defaults = false → g.code = .eNone ∧
      g.okcount = (os.filter (fun o => match o with | .ok _ => true | .error _ => false)).length ∧
      ∀ (bit : Nat) (role : Byte) (acc : Word),
        (bit, role, acc) ∈ [(0, 0x01#8, accCpuWord g.serial g.revision), (1, 0x02#8, accDisplayWord g.serial g.revision),
          (2, 0x03#8, accCarrierWord g.serial g.revision)] →
        (g.missing.getLsbD bit = true ↔ ∀ d, Except.ok d ∈ os → d.role ≠ role) ∧
        (g.missing.getLsbD bit = true → acc = 0x00000000#32)) ∧
    g.okcount = ((os.takeWhile (fun o => !outcomeFatal o)).filter
      (fun o => match o with | .ok _ => true | .error _ => false)).length ∧
    ((∀ d, Except.ok d ∉ os) → g.okcount = 0)

/-- R236, R237, R44, R45: what IDENTIFY writes in any state, and that it always leaves the two words written: the defaults with one
of its two error codes, or with code 0x0 the words into which the outcomes of the devices ENUM found are folded. After ENUM it
processes the first `n` devices in table order, each from the state `us k` the one before it left, up to the first fatal outcome or
the last device; ATTEMPTS, RECBUF, IDENT0 and IDENT1 and the bus are as the last of them leaves them, and none after it is read. -/
def Obligations.IdentifyOutcomeAndFrame : Prop :=
  encode .identify = 0x00000031#32 ∧
  ∀ s : State, ∃ (t : State) (es : List BusEvent), exec .identify s = .next t ∧
    t = { s with
      count := t.count, full := t.full, found := t.found, devtab := t.devtab, ss := t.ss, rom := t.rom, bus := t.bus
      attempts := t.attempts, recbuf := t.recbuf, ident := t.ident, deverr := t.deverr, okcount := t.okcount
      serial := t.serial, revision := t.revision, defaults := t.defaults, missing := t.missing, idValid := true
      err := t.err, engine := .idle, done := true } ∧
    t.bus = busReplay es s.bus ∧ es.length ≤ 36305 ∧ t.okcount ≤ t.count ∧ t.count ≤ 5 ∧
    (∃ u : State, exec .enum s = .next u ∧ t.count = u.count ∧ t.devtab = u.devtab ∧ t.full = u.full ∧
      t.found = u.found ∧ t.ss = u.ss ∧ t.rom = u.rom ∧
      (t.err = .eNone → (t.serial, t.revision) = (deviceOutcomes u.count 0 u).foldl foldOutcome (0#32, 0#32)) ∧
      ∃ (n : Nat) (us : Nat → State), us 0 = u ∧ n ≤ u.count ∧ (n = 0 → u.count = 0) ∧
        (∀ k, k < n → ∃ o : Except ErrCode Identity, ProcessesDevice k (us k) o (us (k + 1)) ∧
          (deviceOutcomes u.count 0 u)[k]? = some o ∧ (k + 1 < n → outcomeFatal o = false) ∧
          (k + 1 = n → n < u.count → outcomeFatal o = true)) ∧
        t.attempts = (us n).attempts ∧ t.recbuf = (us n).recbuf ∧ t.ident = (us n).ident ∧ t.bus = (us n).bus) ∧
    ((t.err = .eNone ∧ t.defaults = false ∧ 1 ≤ t.okcount) ∨
      ((t.err = .eUnknownBoardRole ∨ t.err = .eNoDeviceDecoded) ∧ t.defaults = true ∧
        t.serial = s.cfg.defaultSerial ∧ t.revision = s.cfg.defaultRevision ∧ t.missing = 0b000#3))

/-- R233, R236: IDENTIFY, which folds while it reads, leaves the words, flags and code that the pure `Aggregate` gives on the
outcomes of the devices ENUM found, each read and decoded after the one before it. -/
def Obligations.IdentifyRefinesAggregate : Prop :=
  ∀ s u : State, exec .enum s = .next u → ∃ t : State, exec .identify s = .next t ∧
    (⟨t.serial, t.revision, t.defaults, t.missing, t.okcount, t.err⟩ : Summary) =
      aggregate s.cfg (deviceOutcomes u.count 0 u)

/-- R46, R236, R237: DEVERR after IDENTIFY: the code of each processed device in table order; a device after the first unknown
role, or without an entry, was not processed. -/
def Obligations.IdentifyDeviceCodes : Prop :=
  ∀ s u : State, exec .enum s = .next u → ∃ t : State, exec .identify s = .next t ∧
    ∀ i (h : i < 5), t.deverr[i] =
      match (deviceOutcomes u.count 0 u)[i]? with
      | none => .eNotProcessed
      | some o => if ((deviceOutcomes u.count 0 u).take i).any outcomeFatal then .eNotProcessed else outcomeCode o

/-! ## The whole machine -/

/-- Every step keeps the legal states: each item of R32 in its range, DQ released between primitives (R133), `E_NOT_PROCESSED`
never in ERR (R260), device-table entries from COUNT up zero (R41). -/
def Obligations.StepKeepsLegalStates : Prop :=
  ∀ s t : State, s.Legal → step s = .next t → t.Legal

/-- The reset state is legal. -/
def Obligations.ResetStateIsLegal : Prop := State.reset.Legal

/-- R294: no step and no command changes a parameter of the instance. -/
def Obligations.ParametersNeverChange : Prop :=
  (∀ s t : State, step s = .next t → t.cfg = s.cfg) ∧ (∀ (i : Instr) (s t : State), exec i s = .next t → t.cfg = s.cfg)

/-- R44: a step changes SERIAL, REVISION, ID_VALID, DEFAULTS or IDDIAG's items only if it runs an IDENTIFY to its completion or
asserts the reset input. -/
def Obligations.OnlyIdentifyWritesTheIdentityWords : Prop :=
  ∀ s t : State, step s = .next t → ¬ RunsIdentify s → ¬ AssertsReset s →
    t.serial = s.serial ∧ t.revision = s.revision ∧ t.idValid = s.idValid ∧ t.defaults = s.defaults ∧
    t.deverr = s.deverr ∧ t.missing = s.missing ∧ t.okcount = s.okcount

/-- R301, R143: the number of events each command appends to H, in every state with a legal SearchState. -/
def Obligations.EventsPerCommandAreBounded : Prop :=
  ∀ (i : Instr) (s : State), s.ss.legal → ∃ (t : State) (es : List BusEvent), exec i s = .next t ∧
    t.bus = busReplay es s.bus ∧ busHistory t.bus = busHistory s.bus ++ es ∧ es.length ≤ maxEvents i ∧
    (eventsFixed i = true → es.length = maxEvents i) ∧ (s.bus.dqOe = false → t.bus.dqOe = false)

/-- R299: the raw bus commands, CRC8, MEMRD and DECODE neither read nor write SearchState and ROM: with other values there, they
do the same and leave those. -/
def Obligations.OtherCommandsIgnoreTheSearch : Prop :=
  ∀ (i : Instr) (s : State) (ss : SearchState) (rom : Address), outsideSearch i = true → ∃ t : State,
    exec i s = .next t ∧ t.ss = s.ss ∧ t.rom = s.rom ∧
    exec i { s with ss := ss, rom := rom } = .next { t with ss := ss, rom := rom }

/-- R52, R275: a command run by engine steps, one bus primitive each, ends in the state that the atomic command gives, after
1 + max(1, its events) steps; and after k steps fewer than that, OWID is busy, H holds the command's first k events and no
result is written yet. -/
def Obligations.EngineStepsEqualTheAtomicCommand : Prop :=
  ∀ (s : State) (w : Word) (i : Instr), s.engine = .idle → s.inReset = false → s.pending = [] →
    decodeWord w = some i → ∃ (t : State) (es : List BusEvent),
      step { s with pending := [.access (.write 0x00 4 w)] } = .next t ∧ busHistory t.bus = busHistory s.bus ++ es ∧
      core.run (1 + max 1 es.length) { s with pending := [.issue w] } = .next t ∧
      ∀ k, k < max 1 es.length → core.run (1 + k) { s with pending := [.issue w] } =
        .next { s with
          cmdLast := w, done := false, engine := .running i s.bus k, bus := busReplay (es.take k) s.bus }
end

