-- ==== Sys2Proof/Laws/State.lean ====
section
/-! SUPPORT. One lemma per field per update of State, and of the bus port: what each update writes and what it leaves. -/

namespace Sys2Proof.Machine

/-! ## `setBus` -/

@[simp] theorem setBus_cfg (b : Bus) (s : State) : (setBus b s).cfg = s.cfg := rfl
@[simp] theorem setBus_cmdLast (b : Bus) (s : State) : (setBus b s).cmdLast = s.cmdLast := rfl
@[simp] theorem setBus_engine (b : Bus) (s : State) : (setBus b s).engine = s.engine := rfl
@[simp] theorem setBus_done (b : Bus) (s : State) : (setBus b s).done = s.done := rfl
@[simp] theorem setBus_found (b : Bus) (s : State) : (setBus b s).found = s.found := rfl
@[simp] theorem setBus_ovr (b : Bus) (s : State) : (setBus b s).ovr = s.ovr := rfl
@[simp] theorem setBus_idValid (b : Bus) (s : State) : (setBus b s).idValid = s.idValid := rfl
@[simp] theorem setBus_defaults (b : Bus) (s : State) : (setBus b s).defaults = s.defaults := rfl
@[simp] theorem setBus_err (b : Bus) (s : State) : (setBus b s).err = s.err := rfl
@[simp] theorem setBus_data (b : Bus) (s : State) : (setBus b s).data = s.data := rfl
@[simp] theorem setBus_crc (b : Bus) (s : State) : (setBus b s).crc = s.crc := rfl
@[simp] theorem setBus_ss (b : Bus) (s : State) : (setBus b s).ss = s.ss := rfl
@[simp] theorem setBus_rom (b : Bus) (s : State) : (setBus b s).rom = s.rom := rfl
@[simp] theorem setBus_count (b : Bus) (s : State) : (setBus b s).count = s.count := rfl
@[simp] theorem setBus_full (b : Bus) (s : State) : (setBus b s).full = s.full := rfl
@[simp] theorem setBus_devtab (b : Bus) (s : State) : (setBus b s).devtab = s.devtab := rfl
@[simp] theorem setBus_recbuf (b : Bus) (s : State) : (setBus b s).recbuf = s.recbuf := rfl
@[simp] theorem setBus_ident (b : Bus) (s : State) : (setBus b s).ident = s.ident := rfl
@[simp] theorem setBus_serial (b : Bus) (s : State) : (setBus b s).serial = s.serial := rfl
@[simp] theorem setBus_revision (b : Bus) (s : State) : (setBus b s).revision = s.revision := rfl
@[simp] theorem setBus_attempts (b : Bus) (s : State) : (setBus b s).attempts = s.attempts := rfl
@[simp] theorem setBus_deverr (b : Bus) (s : State) : (setBus b s).deverr = s.deverr := rfl
@[simp] theorem setBus_missing (b : Bus) (s : State) : (setBus b s).missing = s.missing := rfl
@[simp] theorem setBus_okcount (b : Bus) (s : State) : (setBus b s).okcount = s.okcount := rfl
@[simp] theorem setBus_bus (b : Bus) (s : State) : (setBus b s).bus = b := rfl
@[simp] theorem setBus_inReset (b : Bus) (s : State) : (setBus b s).inReset = s.inReset := rfl
@[simp] theorem setBus_readData (b : Bus) (s : State) : (setBus b s).readData = s.readData := rfl
@[simp] theorem setBus_freeReads (b : Bus) (s : State) : (setBus b s).freeReads = s.freeReads := rfl
@[simp] theorem setBus_pending (b : Bus) (s : State) : (setBus b s).pending = s.pending := rfl

/-! ## `finish` -/

@[simp] theorem finish_cfg (c : ErrCode) (s : State) : (finish c s).cfg = s.cfg := rfl
@[simp] theorem finish_cmdLast (c : ErrCode) (s : State) : (finish c s).cmdLast = s.cmdLast := rfl
@[simp] theorem finish_engine (c : ErrCode) (s : State) : (finish c s).engine = .idle := rfl
@[simp] theorem finish_done (c : ErrCode) (s : State) : (finish c s).done = true := rfl
@[simp] theorem finish_found (c : ErrCode) (s : State) : (finish c s).found = s.found := rfl
@[simp] theorem finish_ovr (c : ErrCode) (s : State) : (finish c s).ovr = s.ovr := rfl
@[simp] theorem finish_idValid (c : ErrCode) (s : State) : (finish c s).idValid = s.idValid := rfl
@[simp] theorem finish_defaults (c : ErrCode) (s : State) : (finish c s).defaults = s.defaults := rfl
@[simp] theorem finish_err (c : ErrCode) (s : State) : (finish c s).err = c := rfl
@[simp] theorem finish_data (c : ErrCode) (s : State) : (finish c s).data = s.data := rfl
@[simp] theorem finish_crc (c : ErrCode) (s : State) : (finish c s).crc = s.crc := rfl
@[simp] theorem finish_ss (c : ErrCode) (s : State) : (finish c s).ss = s.ss := rfl
@[simp] theorem finish_rom (c : ErrCode) (s : State) : (finish c s).rom = s.rom := rfl
@[simp] theorem finish_count (c : ErrCode) (s : State) : (finish c s).count = s.count := rfl
@[simp] theorem finish_full (c : ErrCode) (s : State) : (finish c s).full = s.full := rfl
@[simp] theorem finish_devtab (c : ErrCode) (s : State) : (finish c s).devtab = s.devtab := rfl
@[simp] theorem finish_recbuf (c : ErrCode) (s : State) : (finish c s).recbuf = s.recbuf := rfl
@[simp] theorem finish_ident (c : ErrCode) (s : State) : (finish c s).ident = s.ident := rfl
@[simp] theorem finish_serial (c : ErrCode) (s : State) : (finish c s).serial = s.serial := rfl
@[simp] theorem finish_revision (c : ErrCode) (s : State) : (finish c s).revision = s.revision := rfl
@[simp] theorem finish_attempts (c : ErrCode) (s : State) : (finish c s).attempts = s.attempts := rfl
@[simp] theorem finish_deverr (c : ErrCode) (s : State) : (finish c s).deverr = s.deverr := rfl
@[simp] theorem finish_missing (c : ErrCode) (s : State) : (finish c s).missing = s.missing := rfl
@[simp] theorem finish_okcount (c : ErrCode) (s : State) : (finish c s).okcount = s.okcount := rfl
@[simp] theorem finish_bus (c : ErrCode) (s : State) : (finish c s).bus = s.bus := rfl
@[simp] theorem finish_inReset (c : ErrCode) (s : State) : (finish c s).inReset = s.inReset := rfl
@[simp] theorem finish_readData (c : ErrCode) (s : State) : (finish c s).readData = s.readData := rfl
@[simp] theorem finish_freeReads (c : ErrCode) (s : State) : (finish c s).freeReads = s.freeReads := rfl
@[simp] theorem finish_pending (c : ErrCode) (s : State) : (finish c s).pending = s.pending := rfl

/-! ## `acceptCommand` -/

@[simp] theorem acceptCommand_cfg (w : Word) (i : Instr) (s : State) : (acceptCommand w i s).cfg = s.cfg := rfl
@[simp] theorem acceptCommand_cmdLast (w : Word) (i : Instr) (s : State) : (acceptCommand w i s).cmdLast = w := rfl
@[simp] theorem acceptCommand_engine (w : Word) (i : Instr) (s : State) : (acceptCommand w i s).engine = .running i s.bus 0 := rfl
@[simp] theorem acceptCommand_done (w : Word) (i : Instr) (s : State) : (acceptCommand w i s).done = false := rfl
@[simp] theorem acceptCommand_found (w : Word) (i : Instr) (s : State) : (acceptCommand w i s).found = s.found := rfl
@[simp] theorem acceptCommand_ovr (w : Word) (i : Instr) (s : State) : (acceptCommand w i s).ovr = s.ovr := rfl
@[simp] theorem acceptCommand_idValid (w : Word) (i : Instr) (s : State) : (acceptCommand w i s).idValid = s.idValid := rfl
@[simp] theorem acceptCommand_defaults (w : Word) (i : Instr) (s : State) : (acceptCommand w i s).defaults = s.defaults := rfl
@[simp] theorem acceptCommand_err (w : Word) (i : Instr) (s : State) : (acceptCommand w i s).err = s.err := rfl
@[simp] theorem acceptCommand_data (w : Word) (i : Instr) (s : State) : (acceptCommand w i s).data = s.data := rfl
@[simp] theorem acceptCommand_crc (w : Word) (i : Instr) (s : State) : (acceptCommand w i s).crc = s.crc := rfl
@[simp] theorem acceptCommand_ss (w : Word) (i : Instr) (s : State) : (acceptCommand w i s).ss = s.ss := rfl
@[simp] theorem acceptCommand_rom (w : Word) (i : Instr) (s : State) : (acceptCommand w i s).rom = s.rom := rfl
@[simp] theorem acceptCommand_count (w : Word) (i : Instr) (s : State) : (acceptCommand w i s).count = s.count := rfl
@[simp] theorem acceptCommand_full (w : Word) (i : Instr) (s : State) : (acceptCommand w i s).full = s.full := rfl
@[simp] theorem acceptCommand_devtab (w : Word) (i : Instr) (s : State) : (acceptCommand w i s).devtab = s.devtab := rfl
@[simp] theorem acceptCommand_recbuf (w : Word) (i : Instr) (s : State) : (acceptCommand w i s).recbuf = s.recbuf := rfl
@[simp] theorem acceptCommand_ident (w : Word) (i : Instr) (s : State) : (acceptCommand w i s).ident = s.ident := rfl
@[simp] theorem acceptCommand_serial (w : Word) (i : Instr) (s : State) : (acceptCommand w i s).serial = s.serial := rfl
@[simp] theorem acceptCommand_revision (w : Word) (i : Instr) (s : State) : (acceptCommand w i s).revision = s.revision := rfl
@[simp] theorem acceptCommand_attempts (w : Word) (i : Instr) (s : State) : (acceptCommand w i s).attempts = s.attempts := rfl
@[simp] theorem acceptCommand_deverr (w : Word) (i : Instr) (s : State) : (acceptCommand w i s).deverr = s.deverr := rfl
@[simp] theorem acceptCommand_missing (w : Word) (i : Instr) (s : State) : (acceptCommand w i s).missing = s.missing := rfl
@[simp] theorem acceptCommand_okcount (w : Word) (i : Instr) (s : State) : (acceptCommand w i s).okcount = s.okcount := rfl
@[simp] theorem acceptCommand_bus (w : Word) (i : Instr) (s : State) : (acceptCommand w i s).bus = s.bus := rfl
@[simp] theorem acceptCommand_inReset (w : Word) (i : Instr) (s : State) : (acceptCommand w i s).inReset = s.inReset := rfl
@[simp] theorem acceptCommand_readData (w : Word) (i : Instr) (s : State) : (acceptCommand w i s).readData = s.readData := rfl
@[simp] theorem acceptCommand_freeReads (w : Word) (i : Instr) (s : State) : (acceptCommand w i s).freeReads = s.freeReads := rfl
@[simp] theorem acceptCommand_pending (w : Word) (i : Instr) (s : State) : (acceptCommand w i s).pending = s.pending := rfl

/-! ## `acceptIllegal` -/

@[simp] theorem acceptIllegal_cfg (w : Word) (s : State) : (acceptIllegal w s).cfg = s.cfg := rfl
@[simp] theorem acceptIllegal_cmdLast (w : Word) (s : State) : (acceptIllegal w s).cmdLast = w := rfl
@[simp] theorem acceptIllegal_engine (w : Word) (s : State) : (acceptIllegal w s).engine = s.engine := rfl
@[simp] theorem acceptIllegal_done (w : Word) (s : State) : (acceptIllegal w s).done = true := rfl
@[simp] theorem acceptIllegal_found (w : Word) (s : State) : (acceptIllegal w s).found = s.found := rfl
@[simp] theorem acceptIllegal_ovr (w : Word) (s : State) : (acceptIllegal w s).ovr = s.ovr := rfl
@[simp] theorem acceptIllegal_idValid (w : Word) (s : State) : (acceptIllegal w s).idValid = s.idValid := rfl
@[simp] theorem acceptIllegal_defaults (w : Word) (s : State) : (acceptIllegal w s).defaults = s.defaults := rfl
@[simp] theorem acceptIllegal_err (w : Word) (s : State) : (acceptIllegal w s).err = .eIllegalCommand := rfl
@[simp] theorem acceptIllegal_data (w : Word) (s : State) : (acceptIllegal w s).data = s.data := rfl
@[simp] theorem acceptIllegal_crc (w : Word) (s : State) : (acceptIllegal w s).crc = s.crc := rfl
@[simp] theorem acceptIllegal_ss (w : Word) (s : State) : (acceptIllegal w s).ss = s.ss := rfl
@[simp] theorem acceptIllegal_rom (w : Word) (s : State) : (acceptIllegal w s).rom = s.rom := rfl
@[simp] theorem acceptIllegal_count (w : Word) (s : State) : (acceptIllegal w s).count = s.count := rfl
@[simp] theorem acceptIllegal_full (w : Word) (s : State) : (acceptIllegal w s).full = s.full := rfl
@[simp] theorem acceptIllegal_devtab (w : Word) (s : State) : (acceptIllegal w s).devtab = s.devtab := rfl
@[simp] theorem acceptIllegal_recbuf (w : Word) (s : State) : (acceptIllegal w s).recbuf = s.recbuf := rfl
@[simp] theorem acceptIllegal_ident (w : Word) (s : State) : (acceptIllegal w s).ident = s.ident := rfl
@[simp] theorem acceptIllegal_serial (w : Word) (s : State) : (acceptIllegal w s).serial = s.serial := rfl
@[simp] theorem acceptIllegal_revision (w : Word) (s : State) : (acceptIllegal w s).revision = s.revision := rfl
@[simp] theorem acceptIllegal_attempts (w : Word) (s : State) : (acceptIllegal w s).attempts = s.attempts := rfl
@[simp] theorem acceptIllegal_deverr (w : Word) (s : State) : (acceptIllegal w s).deverr = s.deverr := rfl
@[simp] theorem acceptIllegal_missing (w : Word) (s : State) : (acceptIllegal w s).missing = s.missing := rfl
@[simp] theorem acceptIllegal_okcount (w : Word) (s : State) : (acceptIllegal w s).okcount = s.okcount := rfl
@[simp] theorem acceptIllegal_bus (w : Word) (s : State) : (acceptIllegal w s).bus = s.bus := rfl
@[simp] theorem acceptIllegal_inReset (w : Word) (s : State) : (acceptIllegal w s).inReset = s.inReset := rfl
@[simp] theorem acceptIllegal_readData (w : Word) (s : State) : (acceptIllegal w s).readData = s.readData := rfl
@[simp] theorem acceptIllegal_freeReads (w : Word) (s : State) : (acceptIllegal w s).freeReads = s.freeReads := rfl
@[simp] theorem acceptIllegal_pending (w : Word) (s : State) : (acceptIllegal w s).pending = s.pending := rfl

/-! ## `setFound` -/

@[simp] theorem setFound_cfg (b : Bool) (s : State) : (setFound b s).cfg = s.cfg := rfl
@[simp] theorem setFound_cmdLast (b : Bool) (s : State) : (setFound b s).cmdLast = s.cmdLast := rfl
@[simp] theorem setFound_engine (b : Bool) (s : State) : (setFound b s).engine = s.engine := rfl
@[simp] theorem setFound_done (b : Bool) (s : State) : (setFound b s).done = s.done := rfl
@[simp] theorem setFound_found (b : Bool) (s : State) : (setFound b s).found = b := rfl
@[simp] theorem setFound_ovr (b : Bool) (s : State) : (setFound b s).ovr = s.ovr := rfl
@[simp] theorem setFound_idValid (b : Bool) (s : State) : (setFound b s).idValid = s.idValid := rfl
@[simp] theorem setFound_defaults (b : Bool) (s : State) : (setFound b s).defaults = s.defaults := rfl
@[simp] theorem setFound_err (b : Bool) (s : State) : (setFound b s).err = s.err := rfl
@[simp] theorem setFound_data (b : Bool) (s : State) : (setFound b s).data = s.data := rfl
@[simp] theorem setFound_crc (b : Bool) (s : State) : (setFound b s).crc = s.crc := rfl
@[simp] theorem setFound_ss (b : Bool) (s : State) : (setFound b s).ss = s.ss := rfl
@[simp] theorem setFound_rom (b : Bool) (s : State) : (setFound b s).rom = s.rom := rfl
@[simp] theorem setFound_count (b : Bool) (s : State) : (setFound b s).count = s.count := rfl
@[simp] theorem setFound_full (b : Bool) (s : State) : (setFound b s).full = s.full := rfl
@[simp] theorem setFound_devtab (b : Bool) (s : State) : (setFound b s).devtab = s.devtab := rfl
@[simp] theorem setFound_recbuf (b : Bool) (s : State) : (setFound b s).recbuf = s.recbuf := rfl
@[simp] theorem setFound_ident (b : Bool) (s : State) : (setFound b s).ident = s.ident := rfl
@[simp] theorem setFound_serial (b : Bool) (s : State) : (setFound b s).serial = s.serial := rfl
@[simp] theorem setFound_revision (b : Bool) (s : State) : (setFound b s).revision = s.revision := rfl
@[simp] theorem setFound_attempts (b : Bool) (s : State) : (setFound b s).attempts = s.attempts := rfl
@[simp] theorem setFound_deverr (b : Bool) (s : State) : (setFound b s).deverr = s.deverr := rfl
@[simp] theorem setFound_missing (b : Bool) (s : State) : (setFound b s).missing = s.missing := rfl
@[simp] theorem setFound_okcount (b : Bool) (s : State) : (setFound b s).okcount = s.okcount := rfl
@[simp] theorem setFound_bus (b : Bool) (s : State) : (setFound b s).bus = s.bus := rfl
@[simp] theorem setFound_inReset (b : Bool) (s : State) : (setFound b s).inReset = s.inReset := rfl
@[simp] theorem setFound_readData (b : Bool) (s : State) : (setFound b s).readData = s.readData := rfl
@[simp] theorem setFound_freeReads (b : Bool) (s : State) : (setFound b s).freeReads = s.freeReads := rfl
@[simp] theorem setFound_pending (b : Bool) (s : State) : (setFound b s).pending = s.pending := rfl

/-! ## `setSearch` -/

@[simp] theorem setSearch_cfg (o : SearchOut) (s : State) : (setSearch o s).cfg = s.cfg := rfl
@[simp] theorem setSearch_cmdLast (o : SearchOut) (s : State) : (setSearch o s).cmdLast = s.cmdLast := rfl
@[simp] theorem setSearch_engine (o : SearchOut) (s : State) : (setSearch o s).engine = s.engine := rfl
@[simp] theorem setSearch_done (o : SearchOut) (s : State) : (setSearch o s).done = s.done := rfl
@[simp] theorem setSearch_found (o : SearchOut) (s : State) : (setSearch o s).found = s.found := rfl
@[simp] theorem setSearch_ovr (o : SearchOut) (s : State) : (setSearch o s).ovr = s.ovr := rfl
@[simp] theorem setSearch_idValid (o : SearchOut) (s : State) : (setSearch o s).idValid = s.idValid := rfl
@[simp] theorem setSearch_defaults (o : SearchOut) (s : State) : (setSearch o s).defaults = s.defaults := rfl
@[simp] theorem setSearch_err (o : SearchOut) (s : State) : (setSearch o s).err = s.err := rfl
@[simp] theorem setSearch_data (o : SearchOut) (s : State) : (setSearch o s).data = s.data := rfl
@[simp] theorem setSearch_crc (o : SearchOut) (s : State) : (setSearch o s).crc = s.crc := rfl
@[simp] theorem setSearch_ss (o : SearchOut) (s : State) : (setSearch o s).ss = o.ss := rfl
@[simp] theorem setSearch_rom (o : SearchOut) (s : State) : (setSearch o s).rom = o.rom := rfl
@[simp] theorem setSearch_count (o : SearchOut) (s : State) : (setSearch o s).count = s.count := rfl
@[simp] theorem setSearch_full (o : SearchOut) (s : State) : (setSearch o s).full = s.full := rfl
@[simp] theorem setSearch_devtab (o : SearchOut) (s : State) : (setSearch o s).devtab = s.devtab := rfl
@[simp] theorem setSearch_recbuf (o : SearchOut) (s : State) : (setSearch o s).recbuf = s.recbuf := rfl
@[simp] theorem setSearch_ident (o : SearchOut) (s : State) : (setSearch o s).ident = s.ident := rfl
@[simp] theorem setSearch_serial (o : SearchOut) (s : State) : (setSearch o s).serial = s.serial := rfl
@[simp] theorem setSearch_revision (o : SearchOut) (s : State) : (setSearch o s).revision = s.revision := rfl
@[simp] theorem setSearch_attempts (o : SearchOut) (s : State) : (setSearch o s).attempts = s.attempts := rfl
@[simp] theorem setSearch_deverr (o : SearchOut) (s : State) : (setSearch o s).deverr = s.deverr := rfl
@[simp] theorem setSearch_missing (o : SearchOut) (s : State) : (setSearch o s).missing = s.missing := rfl
@[simp] theorem setSearch_okcount (o : SearchOut) (s : State) : (setSearch o s).okcount = s.okcount := rfl
@[simp] theorem setSearch_bus (o : SearchOut) (s : State) : (setSearch o s).bus = o.bus := rfl
@[simp] theorem setSearch_inReset (o : SearchOut) (s : State) : (setSearch o s).inReset = s.inReset := rfl
@[simp] theorem setSearch_readData (o : SearchOut) (s : State) : (setSearch o s).readData = s.readData := rfl
@[simp] theorem setSearch_freeReads (o : SearchOut) (s : State) : (setSearch o s).freeReads = s.freeReads := rfl
@[simp] theorem setSearch_pending (o : SearchOut) (s : State) : (setSearch o s).pending = s.pending := rfl

/-! ## `setOverrun` -/

@[simp] theorem setOverrun_cfg (s : State) : (setOverrun s).cfg = s.cfg := rfl
@[simp] theorem setOverrun_cmdLast (s : State) : (setOverrun s).cmdLast = s.cmdLast := rfl
@[simp] theorem setOverrun_engine (s : State) : (setOverrun s).engine = s.engine := rfl
@[simp] theorem setOverrun_done (s : State) : (setOverrun s).done = s.done := rfl
@[simp] theorem setOverrun_found (s : State) : (setOverrun s).found = s.found := rfl
@[simp] theorem setOverrun_ovr (s : State) : (setOverrun s).ovr = true := rfl
@[simp] theorem setOverrun_idValid (s : State) : (setOverrun s).idValid = s.idValid := rfl
@[simp] theorem setOverrun_defaults (s : State) : (setOverrun s).defaults = s.defaults := rfl
@[simp] theorem setOverrun_err (s : State) : (setOverrun s).err = s.err := rfl
@[simp] theorem setOverrun_data (s : State) : (setOverrun s).data = s.data := rfl
@[simp] theorem setOverrun_crc (s : State) : (setOverrun s).crc = s.crc := rfl
@[simp] theorem setOverrun_ss (s : State) : (setOverrun s).ss = s.ss := rfl
@[simp] theorem setOverrun_rom (s : State) : (setOverrun s).rom = s.rom := rfl
@[simp] theorem setOverrun_count (s : State) : (setOverrun s).count = s.count := rfl
@[simp] theorem setOverrun_full (s : State) : (setOverrun s).full = s.full := rfl
@[simp] theorem setOverrun_devtab (s : State) : (setOverrun s).devtab = s.devtab := rfl
@[simp] theorem setOverrun_recbuf (s : State) : (setOverrun s).recbuf = s.recbuf := rfl
@[simp] theorem setOverrun_ident (s : State) : (setOverrun s).ident = s.ident := rfl
@[simp] theorem setOverrun_serial (s : State) : (setOverrun s).serial = s.serial := rfl
@[simp] theorem setOverrun_revision (s : State) : (setOverrun s).revision = s.revision := rfl
@[simp] theorem setOverrun_attempts (s : State) : (setOverrun s).attempts = s.attempts := rfl
@[simp] theorem setOverrun_deverr (s : State) : (setOverrun s).deverr = s.deverr := rfl
@[simp] theorem setOverrun_missing (s : State) : (setOverrun s).missing = s.missing := rfl
@[simp] theorem setOverrun_okcount (s : State) : (setOverrun s).okcount = s.okcount := rfl
@[simp] theorem setOverrun_bus (s : State) : (setOverrun s).bus = s.bus := rfl
@[simp] theorem setOverrun_inReset (s : State) : (setOverrun s).inReset = s.inReset := rfl
@[simp] theorem setOverrun_readData (s : State) : (setOverrun s).readData = s.readData := rfl
@[simp] theorem setOverrun_freeReads (s : State) : (setOverrun s).freeReads = s.freeReads := rfl
@[simp] theorem setOverrun_pending (s : State) : (setOverrun s).pending = s.pending := rfl

/-! ## `writeStatus` -/

@[simp] theorem writeStatus_cfg (w : Word) (s : State) : (writeStatus w s).cfg = s.cfg := rfl
@[simp] theorem writeStatus_cmdLast (w : Word) (s : State) : (writeStatus w s).cmdLast = s.cmdLast := rfl
@[simp] theorem writeStatus_engine (w : Word) (s : State) : (writeStatus w s).engine = s.engine := rfl
@[simp] theorem writeStatus_done (w : Word) (s : State) : (writeStatus w s).done = (s.done && !w.getLsbD 1) := rfl
@[simp] theorem writeStatus_found (w : Word) (s : State) : (writeStatus w s).found = s.found := rfl
@[simp] theorem writeStatus_ovr (w : Word) (s : State) : (writeStatus w s).ovr = (s.ovr && !w.getLsbD 4) := rfl
@[simp] theorem writeStatus_idValid (w : Word) (s : State) : (writeStatus w s).idValid = s.idValid := rfl
@[simp] theorem writeStatus_defaults (w : Word) (s : State) : (writeStatus w s).defaults = s.defaults := rfl
@[simp] theorem writeStatus_err (w : Word) (s : State) : (writeStatus w s).err = s.err := rfl
@[simp] theorem writeStatus_data (w : Word) (s : State) : (writeStatus w s).data = s.data := rfl
@[simp] theorem writeStatus_crc (w : Word) (s : State) : (writeStatus w s).crc = s.crc := rfl
@[simp] theorem writeStatus_ss (w : Word) (s : State) : (writeStatus w s).ss = s.ss := rfl
@[simp] theorem writeStatus_rom (w : Word) (s : State) : (writeStatus w s).rom = s.rom := rfl
@[simp] theorem writeStatus_count (w : Word) (s : State) : (writeStatus w s).count = s.count := rfl
@[simp] theorem writeStatus_full (w : Word) (s : State) : (writeStatus w s).full = s.full := rfl
@[simp] theorem writeStatus_devtab (w : Word) (s : State) : (writeStatus w s).devtab = s.devtab := rfl
@[simp] theorem writeStatus_recbuf (w : Word) (s : State) : (writeStatus w s).recbuf = s.recbuf := rfl
@[simp] theorem writeStatus_ident (w : Word) (s : State) : (writeStatus w s).ident = s.ident := rfl
@[simp] theorem writeStatus_serial (w : Word) (s : State) : (writeStatus w s).serial = s.serial := rfl
@[simp] theorem writeStatus_revision (w : Word) (s : State) : (writeStatus w s).revision = s.revision := rfl
@[simp] theorem writeStatus_attempts (w : Word) (s : State) : (writeStatus w s).attempts = s.attempts := rfl
@[simp] theorem writeStatus_deverr (w : Word) (s : State) : (writeStatus w s).deverr = s.deverr := rfl
@[simp] theorem writeStatus_missing (w : Word) (s : State) : (writeStatus w s).missing = s.missing := rfl
@[simp] theorem writeStatus_okcount (w : Word) (s : State) : (writeStatus w s).okcount = s.okcount := rfl
@[simp] theorem writeStatus_bus (w : Word) (s : State) : (writeStatus w s).bus = s.bus := rfl
@[simp] theorem writeStatus_inReset (w : Word) (s : State) : (writeStatus w s).inReset = s.inReset := rfl
@[simp] theorem writeStatus_readData (w : Word) (s : State) : (writeStatus w s).readData = s.readData := rfl
@[simp] theorem writeStatus_freeReads (w : Word) (s : State) : (writeStatus w s).freeReads = s.freeReads := rfl
@[simp] theorem writeStatus_pending (w : Word) (s : State) : (writeStatus w s).pending = s.pending := rfl

/-! ## `setDeverr` -/

@[simp] theorem setDeverr_cfg (i : Nat) (c : ErrCode) (s : State) : (setDeverr i c s).cfg = s.cfg := rfl
@[simp] theorem setDeverr_cmdLast (i : Nat) (c : ErrCode) (s : State) : (setDeverr i c s).cmdLast = s.cmdLast := rfl
@[simp] theorem setDeverr_engine (i : Nat) (c : ErrCode) (s : State) : (setDeverr i c s).engine = s.engine := rfl
@[simp] theorem setDeverr_done (i : Nat) (c : ErrCode) (s : State) : (setDeverr i c s).done = s.done := rfl
@[simp] theorem setDeverr_found (i : Nat) (c : ErrCode) (s : State) : (setDeverr i c s).found = s.found := rfl
@[simp] theorem setDeverr_ovr (i : Nat) (c : ErrCode) (s : State) : (setDeverr i c s).ovr = s.ovr := rfl
@[simp] theorem setDeverr_idValid (i : Nat) (c : ErrCode) (s : State) : (setDeverr i c s).idValid = s.idValid := rfl
@[simp] theorem setDeverr_defaults (i : Nat) (c : ErrCode) (s : State) : (setDeverr i c s).defaults = s.defaults := rfl
@[simp] theorem setDeverr_err (i : Nat) (c : ErrCode) (s : State) : (setDeverr i c s).err = s.err := rfl
@[simp] theorem setDeverr_data (i : Nat) (c : ErrCode) (s : State) : (setDeverr i c s).data = s.data := rfl
@[simp] theorem setDeverr_crc (i : Nat) (c : ErrCode) (s : State) : (setDeverr i c s).crc = s.crc := rfl
@[simp] theorem setDeverr_ss (i : Nat) (c : ErrCode) (s : State) : (setDeverr i c s).ss = s.ss := rfl
@[simp] theorem setDeverr_rom (i : Nat) (c : ErrCode) (s : State) : (setDeverr i c s).rom = s.rom := rfl
@[simp] theorem setDeverr_count (i : Nat) (c : ErrCode) (s : State) : (setDeverr i c s).count = s.count := rfl
@[simp] theorem setDeverr_full (i : Nat) (c : ErrCode) (s : State) : (setDeverr i c s).full = s.full := rfl
@[simp] theorem setDeverr_devtab (i : Nat) (c : ErrCode) (s : State) : (setDeverr i c s).devtab = s.devtab := rfl
@[simp] theorem setDeverr_recbuf (i : Nat) (c : ErrCode) (s : State) : (setDeverr i c s).recbuf = s.recbuf := rfl
@[simp] theorem setDeverr_ident (i : Nat) (c : ErrCode) (s : State) : (setDeverr i c s).ident = s.ident := rfl
@[simp] theorem setDeverr_serial (i : Nat) (c : ErrCode) (s : State) : (setDeverr i c s).serial = s.serial := rfl
@[simp] theorem setDeverr_revision (i : Nat) (c : ErrCode) (s : State) : (setDeverr i c s).revision = s.revision := rfl
@[simp] theorem setDeverr_attempts (i : Nat) (c : ErrCode) (s : State) : (setDeverr i c s).attempts = s.attempts := rfl
@[simp] theorem setDeverr_deverr (i : Nat) (c : ErrCode) (s : State) : (setDeverr i c s).deverr = s.deverr.setIfInBounds i c := rfl
@[simp] theorem setDeverr_missing (i : Nat) (c : ErrCode) (s : State) : (setDeverr i c s).missing = s.missing := rfl
@[simp] theorem setDeverr_okcount (i : Nat) (c : ErrCode) (s : State) : (setDeverr i c s).okcount = s.okcount := rfl
@[simp] theorem setDeverr_bus (i : Nat) (c : ErrCode) (s : State) : (setDeverr i c s).bus = s.bus := rfl
@[simp] theorem setDeverr_inReset (i : Nat) (c : ErrCode) (s : State) : (setDeverr i c s).inReset = s.inReset := rfl
@[simp] theorem setDeverr_readData (i : Nat) (c : ErrCode) (s : State) : (setDeverr i c s).readData = s.readData := rfl
@[simp] theorem setDeverr_freeReads (i : Nat) (c : ErrCode) (s : State) : (setDeverr i c s).freeReads = s.freeReads := rfl
@[simp] theorem setDeverr_pending (i : Nat) (c : ErrCode) (s : State) : (setDeverr i c s).pending = s.pending := rfl

/-! ## The bus port -/

@[simp] theorem driveLow_dqOe (b : Bus) : (driveLow b).dqOe = true := rfl
@[simp] theorem driveLow_present (b : Bus) : (driveLow b).present = b.present := rfl
@[simp] theorem driveLow_history (b : Bus) : (driveLow b).history = b.history := rfl
@[simp] theorem driveLow_line (b : Bus) : (driveLow b).line = b.line := rfl
@[simp] theorem driveLow_samples (b : Bus) : (driveLow b).samples = b.samples := rfl
@[simp] theorem releaseDq_dqOe (b : Bus) : (releaseDq b).dqOe = false := rfl
@[simp] theorem releaseDq_present (b : Bus) : (releaseDq b).present = b.present := rfl
@[simp] theorem releaseDq_history (b : Bus) : (releaseDq b).history = b.history := rfl
@[simp] theorem releaseDq_line (b : Bus) : (releaseDq b).line = b.line := rfl
@[simp] theorem releaseDq_samples (b : Bus) : (releaseDq b).samples = b.samples := rfl
@[simp] theorem busRecord_dqOe (e : BusEvent) (b : Bus) : (busRecord e b).dqOe = b.dqOe := rfl
@[simp] theorem busRecord_present (e : BusEvent) (b : Bus) : (busRecord e b).present = presentAfter e b.present := rfl
@[simp] theorem busRecord_history (e : BusEvent) (b : Bus) : (busRecord e b).history = e :: b.history := rfl
@[simp] theorem busRecord_line (e : BusEvent) (b : Bus) : (busRecord e b).line = lineAfter e b.line := rfl
@[simp] theorem busRecord_samples (e : BusEvent) (b : Bus) : (busRecord e b).samples = if sampled e then b.samples + 1 else b.samples := rfl

/-! ## Hardware reset -/

@[simp] theorem hardReset_cfg (s : State) : (hardReset s).cfg = s.cfg := rfl
@[simp] theorem hardReset_cmdLast (s : State) : (hardReset s).cmdLast = State.reset.cmdLast := rfl
@[simp] theorem hardReset_engine (s : State) : (hardReset s).engine = State.reset.engine := rfl
@[simp] theorem hardReset_done (s : State) : (hardReset s).done = State.reset.done := rfl
@[simp] theorem hardReset_found (s : State) : (hardReset s).found = State.reset.found := rfl
@[simp] theorem hardReset_ovr (s : State) : (hardReset s).ovr = State.reset.ovr := rfl
@[simp] theorem hardReset_idValid (s : State) : (hardReset s).idValid = State.reset.idValid := rfl
@[simp] theorem hardReset_defaults (s : State) : (hardReset s).defaults = State.reset.defaults := rfl
@[simp] theorem hardReset_err (s : State) : (hardReset s).err = State.reset.err := rfl
@[simp] theorem hardReset_data (s : State) : (hardReset s).data = State.reset.data := rfl
@[simp] theorem hardReset_crc (s : State) : (hardReset s).crc = State.reset.crc := rfl
@[simp] theorem hardReset_ss (s : State) : (hardReset s).ss = State.reset.ss := rfl
@[simp] theorem hardReset_rom (s : State) : (hardReset s).rom = State.reset.rom := rfl
@[simp] theorem hardReset_count (s : State) : (hardReset s).count = State.reset.count := rfl
@[simp] theorem hardReset_full (s : State) : (hardReset s).full = State.reset.full := rfl
@[simp] theorem hardReset_devtab (s : State) : (hardReset s).devtab = State.reset.devtab := rfl
@[simp] theorem hardReset_recbuf (s : State) : (hardReset s).recbuf = State.reset.recbuf := rfl
@[simp] theorem hardReset_ident (s : State) : (hardReset s).ident = State.reset.ident := rfl
@[simp] theorem hardReset_serial (s : State) : (hardReset s).serial = State.reset.serial := rfl
@[simp] theorem hardReset_revision (s : State) : (hardReset s).revision = State.reset.revision := rfl
@[simp] theorem hardReset_attempts (s : State) : (hardReset s).attempts = State.reset.attempts := rfl
@[simp] theorem hardReset_deverr (s : State) : (hardReset s).deverr = State.reset.deverr := rfl
@[simp] theorem hardReset_missing (s : State) : (hardReset s).missing = State.reset.missing := rfl
@[simp] theorem hardReset_okcount (s : State) : (hardReset s).okcount = State.reset.okcount := rfl
@[simp] theorem hardReset_bus (s : State) : (hardReset s).bus = { Bus.reset with line := s.bus.line, samples := s.bus.samples } := rfl
@[simp] theorem hardReset_inReset (s : State) : (hardReset s).inReset = s.inReset := rfl
@[simp] theorem hardReset_readData (s : State) : (hardReset s).readData = s.readData := rfl
@[simp] theorem hardReset_freeReads (s : State) : (hardReset s).freeReads = s.freeReads := rfl
@[simp] theorem hardReset_pending (s : State) : (hardReset s).pending = s.pending := rfl

/-! ## BUSY -/

theorem busy_eq_false (s : State) : s.busy = false ↔ s.engine = .idle := by
  unfold State.busy; split <;> simp_all

theorem busy_of_idle {s : State} (h : s.engine = .idle) : s.busy = false := (busy_eq_false s).2 h

theorem busy_of_running {s : State} {i : Instr} {b : Bus} {k : Nat} (h : s.engine = .running i b k) : s.busy = true := by
  unfold State.busy; rw [h]

@[simp] theorem finish_busy (c : ErrCode) (s : State) : (finish c s).busy = false := rfl

@[simp] theorem acceptCommand_busy (w : Word) (i : Instr) (s : State) : (acceptCommand w i s).busy = true := rfl

end Sys2Proof.Machine
end

