-- ==== Sys2Proof/Laws/Bus.lean ====
section
/-! SUPPORT. What the bus operations do: each leaves the bus as `busReplay` of the events it makes, and those events are known. -/

namespace Sys2Proof.Machine

/-! ## Replay -/

@[simp] theorem busReplay_nil (b : Bus) : busReplay [] b = b := rfl

@[simp] theorem busReplay_cons (e : BusEvent) (es : List BusEvent) (b : Bus) :
    busReplay (e :: es) b = busReplay es (busRecord e (releaseDq (driveLow b))) := rfl

theorem busReplay_append (es fs : List BusEvent) (b : Bus) : busReplay (es ++ fs) b = busReplay fs (busReplay es b) := by
  induction es generalizing b with
  | nil => rfl
  | cons e es ih => exact ih _

@[simp] theorem busReplay_history (es : List BusEvent) (b : Bus) :
    (busReplay es b).history = es.reverse ++ b.history := by
  induction es generalizing b with
  | nil => rfl
  | cons e es ih => simp [ih]

@[simp] theorem busHistory_replay (es : List BusEvent) (b : Bus) : busHistory (busReplay es b) = busHistory b ++ es := by
  simp [busHistory]

theorem busReplay_dqOe {b : Bus} (es : List BusEvent) (h : b.dqOe = false) : (busReplay es b).dqOe = false := by
  induction es generalizing b with
  | nil => exact h
  | cons e es ih => exact ih (by simp)

theorem busReplay_samples (es : List BusEvent) (b : Bus) :
    (busReplay es b).samples = b.samples + (es.filter sampled).length := by
  induction es generalizing b with
  | nil => rfl
  | cons e es ih =>
    cases h : sampled e
    · simp [ih, h]
    · simp [ih, h]; omega

theorem busReplay_line (es : List BusEvent) (b : Bus) :
    (busReplay es b).line = es.foldl (fun l e => lineAfter e l) b.line := by
  induction es generalizing b with
  | nil => rfl
  | cons e es ih => simp [ih]

theorem busReplay_present (es : List BusEvent) (b : Bus) :
    (busReplay es b).present = es.foldl (fun p e => presentAfter e p) b.present := by
  induction es generalizing b with
  | nil => rfl
  | cons e es ih => simp [ih]

/-- Events that hold no reset leave PRESENT (R130). -/
theorem busReplay_present_of_no_reset {es : List BusEvent} (b : Bus) (h : ∀ p, BusEvent.reset p ∉ es) :
    (busReplay es b).present = b.present := by
  induction es generalizing b with
  | nil => rfl
  | cons e es ih =>
    rw [busReplay_cons, ih _ (fun p hp => h p (List.mem_cons_of_mem _ hp))]
    cases e with
    | reset p => exact absurd List.mem_cons_self (h p)
    | write v => rfl
    | read v => rfl

/-! ## Bits and bytes -/

@[simp] theorem byteBits_length (v : Byte) : (byteBits v).length = 8 := by simp [byteBits]

theorem natOfBits_lt (bits : List Bool) : natOfBits bits < 2 ^ bits.length := by
  induction bits with
  | nil => simp [natOfBits]
  | cons b bs ih => cases b <;> simp [natOfBits, Nat.pow_succ] <;> omega

theorem natOfBits_testBit (bits : List Bool) (i : Nat) : (natOfBits bits).testBit i = bits.getD i false := by
  induction bits generalizing i with
  | nil => simp [natOfBits]
  | cons b bs ih =>
    cases i with
    | zero => cases b <;> simp [natOfBits, Nat.testBit_zero]
    | succ i =>
      rw [Nat.testBit_succ]
      have h : (natOfBits (b :: bs)) / 2 = natOfBits bs := by cases b <;> simp [natOfBits]; omega
      rw [h, ih]; simp

/-- The bits of the byte built from 8 bits are those bits (R135, R136). -/
theorem byteBits_byteOfBits {bits : List Bool} (h : bits.length = 8) : byteBits (byteOfBits bits) = bits := by
  refine List.ext_getElem (by simp [h]) fun i hi hi' => ?_
  have h8 : i < 8 := by simpa using hi
  simp [byteBits, byteOfBits, BitVec.getLsbD_ofNat, natOfBits_testBit, h8, List.getElem?_eq_getElem hi']

/-- The byte built from a byte's bits is the byte. -/
theorem byteOfBits_byteBits (v : Byte) : byteOfBits (byteBits v) = v := by
  refine BitVec.eq_of_getLsbD_eq fun i hi => ?_
  simp only [byteOfBits, BitVec.getLsbD_ofNat, natOfBits_testBit, hi, decide_true, Bool.true_and]
  rw [List.getD_eq_getElem _ _ (by simpa using hi)]
  simp [byteBits]

/-! ## Slots -/

theorem busReset_replay (b : Bus) : (busReset b).2 = busReplay [.reset (busReset b).1] b := rfl

theorem busWriteSlot_replay (v : Bool) (b : Bus) : busWriteSlot v b = busReplay [.write v] b := rfl

theorem busReadSlot_replay (b : Bus) : (busReadSlot b).2 = busReplay [.read (busReadSlot b).1] b := rfl

/-- With a script the presence bit is the negation of the next level (R130). -/
theorem busReset_script {b : Bus} {l : Bool} {ls : List Bool} (h : b.line = .script (l :: ls)) :
    (busReset b).1 = !l ∧ (busReset b).2.line = .script ls := by
  simp [busReset, presenceLevel, h, lineAfter, sampled]

/-- With ideal devices the presence bit says whether one is attached (R97). -/
theorem busReset_devices {b : Bus} {cmds : RomCommands} {ds : List Device} (h : b.line = .devices cmds ds) :
    (busReset b).1 = !ds.isEmpty := by
  simp [busReset, presenceLevel, h]

/-- With a script the bit read is the next level (R132). -/
theorem busReadSlot_script {b : Bus} {l : Bool} {ls : List Bool} (h : b.line = .script (l :: ls)) :
    (busReadSlot b).1 = l ∧ (busReadSlot b).2.line = .script ls := by
  simp [busReadSlot, readLevel, h, lineAfter, sampled]

/-! ## Bits -/

theorem busWriteBits_replay (xs : List Bool) (b : Bus) : busWriteBits xs b = busReplay (xs.map .write) b := by
  induction xs generalizing b with
  | nil => rfl
  | cons x xs ih => exact ih _

@[simp] theorem busReadBits_length (n : Nat) (b : Bus) : (busReadBits n b).1.length = n := by
  induction n generalizing b with
  | zero => rfl
  | succ n ih => simp [busReadBits, ih]

theorem busReadBits_replay (n : Nat) (b : Bus) :
    (busReadBits n b).2 = busReplay ((busReadBits n b).1.map .read) b := by
  induction n generalizing b with
  | zero => rfl
  | succ n ih => exact ih _

theorem busReadBits_script {n : Nat} {b : Bus} {xs rest : List Bool} (hx : xs.length = n)
    (h : b.line = .script (xs ++ rest)) : (busReadBits n b).1 = xs ∧ (busReadBits n b).2.line = .script rest := by
  induction n generalizing b xs with
  | zero => simp [List.length_eq_zero_iff.1 hx] at h; simp [busReadBits, h, List.length_eq_zero_iff.1 hx]
  | succ n ih =>
    obtain ⟨x, xs, rfl⟩ := List.exists_cons_of_length_eq_add_one hx
    have h1 := busReadSlot_script (b := b) (l := x) (ls := xs ++ rest) h
    have h2 := ih (b := (busReadSlot b).2) (xs := xs) (by simpa using hx) h1.2
    simp [busReadBits, h1.1, h2.1, h2.2]

theorem busReadBits_add (m n : Nat) (b : Bus) :
    (busReadBits (m + n) b).1 = (busReadBits m b).1 ++ (busReadBits n (busReadBits m b).2).1 ∧
      (busReadBits (m + n) b).2 = (busReadBits n (busReadBits m b).2).2 := by
  induction m generalizing b with
  | zero => simp [busReadBits]
  | succ m ih =>
    rw [Nat.succ_add]
    simp [busReadBits, (ih (busReadSlot b).2).1, (ih (busReadSlot b).2).2]

/-! ## Bytes -/

theorem busWriteByte_replay (v : Byte) (b : Bus) : busWriteByte v b = busReplay ((byteBits v).map .write) b :=
  busWriteBits_replay _ _

theorem busReadByte_bits (b : Bus) : byteBits (busReadByte b).1 = (busReadBits 8 b).1 :=
  byteBits_byteOfBits (by simp)

theorem busReadByte_replay (b : Bus) : (busReadByte b).2 = busReplay ((byteBits (busReadByte b).1).map .read) b := by
  rw [busReadByte_bits]; exact busReadBits_replay 8 b

theorem busWriteBytes_replay (vs : List Byte) (b : Bus) :
    busWriteBytes vs b = busReplay ((vs.flatMap byteBits).map .write) b := by
  induction vs generalizing b with
  | nil => rfl
  | cons v vs ih =>
    rw [busWriteBytes, ih, busWriteByte_replay, List.flatMap_cons, List.map_append, busReplay_append]

theorem busReadBytes_bits (n : Nat) (b : Bus) :
    (busReadBytes n b).1.flatMap byteBits = (busReadBits (8 * n) b).1 ∧
      (busReadBytes n b).2 = (busReadBits (8 * n) b).2 := by
  induction n generalizing b with
  | zero => simp [busReadBytes, busReadBits]
  | succ n ih =>
    have e : 8 * (n + 1) = 8 + 8 * n := by omega
    have h := busReadBits_add 8 (8 * n) b
    rw [e, h.1, h.2]
    simp only [busReadBytes, List.flatMap_cons, busReadByte_bits]
    exact ⟨by rw [(ih _).1]; rfl, (ih _).2⟩

theorem busReadBytes_replay (n : Nat) (b : Bus) :
    (busReadBytes n b).2 = busReplay (((busReadBytes n b).1.flatMap byteBits).map .read) b := by
  rw [(busReadBytes_bits n b).1, (busReadBytes_bits n b).2, busReadBits_replay]

@[simp] theorem busReadRecord_toList (b : Bus) : (busReadRecord b).1.toList = (busReadBytes 32 b).1 := rfl

@[simp] theorem busReadRecord_bus (b : Bus) : (busReadRecord b).2 = (busReadBytes 32 b).2 := rfl

theorem flatMap_byteBits_length (vs : List Byte) : (vs.flatMap byteBits).length = 8 * vs.length := by
  induction vs with
  | nil => rfl
  | cons v vs ih => rw [List.flatMap_cons, List.length_append, ih, byteBits_length, List.length_cons]; omega

theorem flatMap_byteBits_inj {vs ws : List Byte} (h : vs.flatMap byteBits = ws.flatMap byteBits) : vs = ws := by
  induction vs generalizing ws with
  | nil =>
    have := congrArg List.length h
    rw [flatMap_byteBits_length, flatMap_byteBits_length] at this
    exact (List.length_eq_zero_iff.1 (by simpa using this.symm)).symm
  | cons v vs ih =>
    cases ws with
    | nil => simp [byteBits] at h
    | cons w ws =>
      rw [List.flatMap_cons, List.flatMap_cons] at h
      have h2 := List.append_inj h (by simp)
      rw [ih h2.2, ← byteOfBits_byteBits v, h2.1, byteOfBits_byteBits]

@[simp] theorem recordBits_length (r : Record) : (recordBits r).length = 256 := by
  rw [recordBits, flatMap_byteBits_length]; simp

theorem busReadRecord_replay (b : Bus) :
    (busReadRecord b).2 = busReplay ((recordBits (busReadRecord b).1).map .read) b :=
  busReadBytes_replay 32 b

/-- A record read from a script that holds its bits is that record. -/
theorem busReadRecord_script {b : Bus} {r : Record} {rest : List Bool} (h : b.line = .script (recordBits r ++ rest)) :
    (busReadRecord b).1 = r ∧ (busReadRecord b).2.line = .script rest := by
  have hs := busReadBits_script (n := 8 * 32) (xs := recordBits r) (by simp) h
  have hb := busReadBytes_bits 32 b
  refine ⟨?_, by rw [busReadRecord_bus, hb.2]; exact hs.2⟩
  have hl : (busReadBytes 32 b).1 = r.toList := flatMap_byteBits_inj (by rw [hb.1, hs.1]; rfl)
  exact Vector.toList_inj.1 (by rw [busReadRecord_toList, hl])

end Sys2Proof.Machine
end

