-- ==== Sys2Proof/Laws/MemoryRead.lean ====
section
/-! SUPPORT. What a read pass, the attempts of MEMRD and MEMRD itself do (43_memory_read.md R200–R205). -/

namespace Sys2Proof.Machine

theorem readPassHeader_length (cmds : RomCommands) (a : Address) : (readPassHeader cmds a).length = 12 := by
  simp [readPassHeader, addrBytes]

@[simp] theorem readPassEvents_length (cmds : RomCommands) (a : Address) (r : Record) :
    (readPassEvents cmds a r).length = 353 := by
  simp only [readPassEvents, List.cons_append, List.length_cons, List.length_append, List.length_map,
    flatMap_byteBits_length, readPassHeader_length, recordBits_length]

/-- What a read pass does: without presence, nothing but its reset; else a complete pass (R201). -/
theorem readPass_spec (cmds : RomCommands) (a : Address) (b : Bus) :
    (readPass cmds a b = (none, busReplay [.reset false] b)) ∨
    (∃ r, readPass cmds a b = (some r, busReplay (readPassEvents cmds a r) b)) := by
  have hr := busReset_replay b
  unfold readPass
  generalize busReset b = x at *
  obtain ⟨p, b1⟩ := x
  dsimp only at *
  cases p
  · exact .inl (by rw [hr]; rfl)
  · refine .inr ⟨(busReadRecord (busWriteBytes (readPassHeader cmds a) b1)).1, ?_⟩
    simp only [if_true, Prod.mk.injEq, true_and]
    rw [busReadRecord_replay, busWriteBytes_replay, hr, readPassEvents, busReplay_append]
    rfl

/-- With a script that answers presence and then a record's bits, a pass reads that record (R201). -/
theorem readPass_script {cmds : RomCommands} {a : Address} {b : Bus} {r : Record} {rest : List Bool}
    (h : b.line = .script (false :: recordBits r ++ rest)) :
    readPass cmds a b = (some r, busReplay (readPassEvents cmds a r) b) ∧
      (readPass cmds a b).2.line = .script rest := by
  have h1 := busReset_script (b := b) (l := false) (ls := recordBits r ++ rest) h
  have hw : ∀ (xs : List Bool) (c : Bus) (ls : List Bool), c.line = .script ls →
      (busReplay (xs.map .write) c).line = .script ls := by
    intro xs
    induction xs with
    | nil => exact fun c ls hc => hc
    | cons x xs ih => exact fun c ls hc => ih _ _ (by simp [hc, lineAfter, sampled])
  have h2 : (busWriteBytes (readPassHeader cmds a) (busReset b).2).line = .script (recordBits r ++ rest) := by
    rw [busWriteBytes_replay]; exact hw _ _ _ h1.2
  have h3 := busReadRecord_script h2
  have hl : (readPass cmds a b).2.line = .script rest := by
    unfold readPass
    simp only [h1.1, Bool.not_false, if_true]
    exact h3.2
  refine ⟨?_, hl⟩
  have hs : (readPass cmds a b).1 = some r := by
    unfold readPass
    simp only [h1.1, Bool.not_false, if_true]
    exact congrArg some h3.1
  rcases readPass_spec cmds a b with h | ⟨r', h⟩
  · rw [h] at hs; simp at hs
  · rw [h] at hs; simp only [Option.some.injEq] at hs; rw [h, hs]

/-- With a script that answers no presence, a pass fails at once (R204). -/
theorem readPass_script_absent {cmds : RomCommands} {a : Address} {b : Bus} {rest : List Bool}
    (h : b.line = .script (true :: rest)) : readPass cmds a b = (none, busReplay [.reset false] b) := by
  have h1 := busReset_script h
  have hr := busReset_replay b
  unfold readPass
  generalize busReset b = x at *
  obtain ⟨p, b1⟩ := x
  dsimp only at *
  rw [h1.1] at hr ⊢
  simp [hr]

/-- What the attempts of MEMRD do (R200, R202–R204): at most two passes an attempt, an attempt number that counts those
started, a record exactly with the code 0x0, and one of three codes. -/
theorem readAttempts_spec (cmds : RomCommands) (a : Address) (n att : Nat) (b : Bus) :
    (∃ es, (readAttempts cmds a n att b).bus = busReplay es b ∧ es.length ≤ 706 * n) ∧
    att ≤ (readAttempts cmds a n att b).attempts ∧ (readAttempts cmds a n att b).attempts ≤ att + n ∧
    ((readAttempts cmds a n att b).record.isSome = true ↔ (readAttempts cmds a n att b).code = .eNone) ∧
    ((readAttempts cmds a n att b).code = .eNone ∨ (readAttempts cmds a n att b).code = .eBusResetTimeout ∨
      ((readAttempts cmds a n att b).code = .eReadVerifyMismatch ∧
        (readAttempts cmds a n att b).attempts = att + n)) := by
  induction n generalizing att b with
  | zero => exact ⟨⟨[], rfl, by simp⟩, by simp [readAttempts]⟩
  | succ n ih =>
    rw [readAttempts]
    rcases readPass_spec cmds a b with h | ⟨r, h⟩
    · rw [h]
      refine ⟨⟨_, rfl, by simp; omega⟩, by simp⟩
    · rw [h]
      rcases readPass_spec cmds a (busReplay (readPassEvents cmds a r) b) with h' | ⟨r', h'⟩
      · simp only [h']
        refine ⟨⟨_, (busReplay_append _ _ _).symm, by simp; omega⟩, by simp⟩
      · simp only [h']
        split
        · refine ⟨⟨_, (busReplay_append _ _ _).symm, by simp⟩, by simp⟩
        · obtain ⟨⟨es, h1, h2⟩, h3, h4, h5, h6⟩ :=
            ih (att + 1) (busReplay (readPassEvents cmds a r') (busReplay (readPassEvents cmds a r) b))
          refine ⟨⟨readPassEvents cmds a r ++ (readPassEvents cmds a r' ++ es), ?_, ?_⟩, by omega, by omega, h5, ?_⟩
          · rw [h1, busReplay_append, busReplay_append]
          · simp; omega
          · rcases h6 with h6 | h6 | ⟨h6, h7⟩
            · exact .inl h6
            · exact .inr (.inl h6)
            · exact .inr (.inr ⟨h6, by omega⟩)

/-- What MEMRD as a function does (R200, R203): it writes ATTEMPTS, RECBUF and the bus only, RECBUF on success only, and
answers one of its five codes. -/
theorem memrdBody_spec (idx : Nat) (s : State) :
    (memrdBody idx s).2 =
      { s with
        attempts := (memrdBody idx s).2.attempts
        recbuf := (memrdBody idx s).2.recbuf
        bus := (memrdBody idx s).2.bus } ∧
    (∃ es, (memrdBody idx s).2.bus = busReplay es s.bus ∧ es.length ≤ 7060) ∧
    (memrdBody idx s).2.attempts ≤ 10 ∧
    ((memrdBody idx s).1 ≠ .eNone → (memrdBody idx s).2.recbuf = s.recbuf) ∧
    (memrdBody idx s).1 ∈ [ErrCode.eNone, .eBusResetTimeout, .eReadVerifyMismatch, .eUnsupportedFamily, .eBadOperand] := by
  unfold memrdBody
  split
  · exact ⟨rfl, ⟨[], rfl, by simp⟩, by simp, fun _ => rfl, by simp⟩
  · next a ha =>
    split
    · obtain ⟨⟨es, h1, h2⟩, -, h3, h4, h5⟩ := readAttempts_spec s.cfg.cmds a 10 0 s.bus
      refine ⟨rfl, ⟨es, h1, h2⟩, by simpa using h3, ?_, ?_⟩
      · intro hc
        have : (readAttempts s.cfg.cmds a 10 0 s.bus).record = none := by
          cases hr : (readAttempts s.cfg.cmds a 10 0 s.bus).record with
          | none => rfl
          | some r => exact absurd (h4.1 (by simp [hr])) hc
        simp [this]
      · rcases h5 with h | h | ⟨h, -⟩ <;> simp [h]
    · exact ⟨rfl, ⟨[], rfl, by simp⟩, by simp, fun _ => rfl, by simp⟩

/-- An index from COUNT up names no device (R267). -/
theorem deviceOperand_none {idx : Nat} {s : State} (h : s.count ≤ idx) : deviceOperand idx s = none := by
  rw [deviceOperand, if_neg (by omega)]

/-- An index below COUNT names its entry of the device table (R200). -/
theorem deviceOperand_some {idx : Nat} {s : State} (h : idx < s.count) (h5 : idx < 5) :
    deviceOperand idx s = some s.devtab[idx] := by
  rw [deviceOperand, if_pos h]
  exact Vector.getElem?_eq_getElem h5

end Sys2Proof.Machine
end

