-- ==== Sys2Proof/Laws/Search.lean ====
section
/-! SUPPORT. What the search and the enumeration do: their events, the ranges of what they write, the running CRC, and what a
found address is (42_rom_search.md R172–R185). -/

namespace Sys2Proof.Machine

/-! ## Bits of an address -/

theorem setAddrBit_getLsbD (a : Address) {pos : Nat} (dir : Bool) (i : Nat) (hi : i < 64) :
    (setAddrBit a pos dir).getLsbD i = if i = pos - 1 then dir else a.getLsbD i := by
  have h1 : (1#64 <<< (pos - 1)).getLsbD i = decide (i = pos - 1) := by
    rw [BitVec.getLsbD_shiftLeft, BitVec.getLsbD_one, Bool.eq_iff_iff]
    simp
    omega
  cases dir
  · rw [setAddrBit, if_neg (by simp), BitVec.getLsbD_and, BitVec.getLsbD_not, h1]
    by_cases h : i = pos - 1 <;> simp [h, hi]
  · rw [setAddrBit, if_pos rfl, BitVec.getLsbD_or, h1]
    by_cases h : i = pos - 1 <;> simp [h]

theorem addrByte_eq_iff (a b : Address) (k : Nat) :
    addrByte a k = addrByte b k ↔ ∀ j, j < 8 → a.getLsbD (8 * k + j) = b.getLsbD (8 * k + j) := by
  constructor
  · intro h j hj
    have := congrArg (fun v : Byte => v.getLsbD j) h
    simpa [addrByte, hj] using this
  · intro h
    refine BitVec.eq_of_getLsbD_eq fun j hj => ?_
    simp [addrByte, hj, h j hj]

theorem addrByte_setAddrBit_of_ne (a : Address) {pos k : Nat} (dir : Bool) (hk : k < 8) (h : k ≠ (pos - 1) / 8) :
    addrByte (setAddrBit a pos dir) k = addrByte a k := by
  rw [addrByte_eq_iff]
  intro j hj
  rw [setAddrBit_getLsbD _ _ _ (by omega), if_neg (by omega)]

/-! ## One position -/

@[simp] theorem markZero_rom (pos : Nat) (dir : Bool) (p : PassState) : (markZero pos dir p).rom = p.rom := by
  cases dir <;> rfl
@[simp] theorem markZero_bus (pos : Nat) (dir : Bool) (p : PassState) : (markZero pos dir p).bus = p.bus := by
  cases dir <;> rfl
@[simp] theorem markZero_crc (pos : Nat) (dir : Bool) (p : PassState) : (markZero pos dir p).crc = p.crc := by
  cases dir <;> rfl
@[simp] theorem takeDirection_lastZero (pos : Nat) (dir : Bool) (p : PassState) :
    (takeDirection pos dir p).lastZero = p.lastZero := rfl
@[simp] theorem takeDirection_lfd (pos : Nat) (dir : Bool) (p : PassState) :
    (takeDirection pos dir p).lfd = p.lfd := rfl
@[simp] theorem takeDirection_rom (pos : Nat) (dir : Bool) (p : PassState) :
    (takeDirection pos dir p).rom = setAddrBit p.rom pos dir := rfl
@[simp] theorem takeDirection_bus (pos : Nat) (dir : Bool) (p : PassState) :
    (takeDirection pos dir p).bus = busWriteSlot dir p.bus := rfl

/-- The direction taken at a position, and the marks it leaves: forced by the pair, or by `DiscrepancyDirection`. -/
def positionStep (ld pos : Nat) (id cmp : Bool) (p : PassState) : PassState :=
  if id != cmp then takeDirection pos id p
  else takeDirection pos (discrepancyDir pos ld p.rom) (markZero pos (discrepancyDir pos ld p.rom) p)

/-- One position of a pass: two read slots, then either the idle pair or the position's step. -/
theorem walkPositions_succ (ld n : Nat) (p : PassState) :
    walkPositions ld (n + 1) p =
      let r1 := busReadSlot p.bus
      let r2 := busReadSlot r1.2
      if r1.1 && r2.1 then (some (64 - n), { p with bus := r2.2 })
      else walkPositions ld n (positionStep ld (64 - n) r1.1 r2.1 { p with bus := r2.2 }) := by
  simp only [walkPositions, positionStep]
  split
  · rfl
  · split <;> rfl

/-- A position's step stores its direction, writes it, and keeps or raises the marks (R174, R175). -/
theorem positionStep_spec (ld pos : Nat) (id cmp : Bool) (p : PassState) :
    ∃ dir, (positionStep ld pos id cmp p).rom = setAddrBit p.rom pos dir ∧
      (positionStep ld pos id cmp p).bus = busReplay [.write dir] p.bus ∧
      (positionStep ld pos id cmp p).crc =
        (if (pos - 1) % 8 = 7 then crc8 p.crc (addrByte (setAddrBit p.rom pos dir) ((pos - 1) / 8)) else p.crc) ∧
      ((positionStep ld pos id cmp p).lastZero = p.lastZero ∨ (positionStep ld pos id cmp p).lastZero = pos) ∧
      ((positionStep ld pos id cmp p).lfd = p.lfd ∨
        (pos < 9 ∧ (positionStep ld pos id cmp p).lfd = pos)) := by
  unfold positionStep
  split
  · exact ⟨id, rfl, rfl, rfl, .inl rfl, .inl rfl⟩
  · generalize discrepancyDir pos ld p.rom = dir
    refine ⟨dir, by simp, by simp [busWriteSlot_replay], by simp [takeDirection], ?_, ?_⟩
    · cases dir <;> simp [markZero]
    · cases dir
      · by_cases h : pos < 9 <;> simp [markZero, h, Config.familyLimit]
      · simp [markZero]

/-! ## The walk -/

/-- What is true of a pass state after `m` positions: the ranges of the marks and the running CRC over the completed bytes. -/
structure PassOk (m : Nat) (p : PassState) : Prop where
  lastZero : p.lastZero ≤ m
  lfd : p.lfd ≤ 8
  crc : p.crc = crcBytes 0x00#8 ((List.range (m / 8)).map (addrByte p.rom))

theorem positionStep_ok (ld pos : Nat) (id cmp : Bool) {p : PassState} (h1 : 1 ≤ pos) (h64 : pos ≤ 64)
    (h : PassOk (pos - 1) p) : PassOk pos (positionStep ld pos id cmp p) := by
  obtain ⟨dir, hrom, -, hcrc, hz, hf⟩ := positionStep_spec ld pos id cmp p
  have hlz := h.lastZero
  have hlf := h.lfd
  refine ⟨by omega, by omega, ?_⟩
  have hkeep : ∀ k, k < (pos - 1) / 8 → addrByte (setAddrBit p.rom pos dir) k = addrByte p.rom k := fun k hk =>
    addrByte_setAddrBit_of_ne _ _ (by omega) (by omega)
  have hmap : (List.range ((pos - 1) / 8)).map (addrByte (setAddrBit p.rom pos dir)) =
      (List.range ((pos - 1) / 8)).map (addrByte p.rom) :=
    List.map_congr_left fun k hk => hkeep k (List.mem_range.1 hk)
  rw [hcrc, hrom]
  split
  · have e : pos / 8 = (pos - 1) / 8 + 1 := by omega
    rw [e, List.range_succ, List.map_append, crcBytes, List.foldl_append, hmap, h.crc]
    rfl
  · have e : pos / 8 = (pos - 1) / 8 := by omega
    rw [e, hmap, h.crc]

/-- The number of events of a walk of the last `n` positions: three a position, and two at an idle pair (R182). -/
def walkLength (n : Nat) : Option Nat → Nat
  | none => 3 * n
  | some pos => 3 * (pos - (64 - n) - 1) + 2

/-- What a walk of the last `n` positions does: its events hold no reset and are counted, an idle position is one of those
walked, and a complete walk leaves the marks in range and the CRC of the whole address. -/
theorem walkPositions_spec (ld n : Nat) (hn : n ≤ 64) (p : PassState) (hp : PassOk (64 - n) p) :
    (∃ es, (walkPositions ld n p).2.bus = busReplay es p.bus ∧ (∀ q, BusEvent.reset q ∉ es) ∧
      es.length = walkLength n (walkPositions ld n p).1) ∧
    (∀ pos, (walkPositions ld n p).1 = some pos → 64 - n < pos ∧ pos ≤ 64) ∧
    ((walkPositions ld n p).1 = none → PassOk 64 (walkPositions ld n p).2) := by
  induction n generalizing p with
  | zero => exact ⟨⟨[], rfl, by simp, rfl⟩, by simp [walkPositions], fun _ => hp⟩
  | succ n ih =>
    rw [walkPositions_succ]
    dsimp only
    generalize hr1 : busReadSlot p.bus = r1
    generalize hr2 : busReadSlot r1.2 = r2
    have hb : r2.2 = busReplay [.read r1.1, .read r2.1] p.bus := by
      have a := busReadSlot_replay p.bus
      have b := busReadSlot_replay r1.2
      rw [hr1] at a
      rw [hr2] at b
      rw [b, a]
      rfl
    split
    · refine ⟨⟨_, hb, by simp, ?_⟩, ?_, by simp⟩
      · simp [walkLength]; omega
      · intro pos hpos
        simp at hpos
        omega
    · have e : 64 - n - 1 = 64 - (n + 1) := by omega
      have hp' : PassOk (64 - n - 1) { p with bus := r2.2 } := by rw [e]; exact ⟨hp.lastZero, hp.lfd, hp.crc⟩
      have hs := positionStep_ok ld (64 - n) r1.1 r2.1 (by omega) (by omega) hp'
      obtain ⟨dir, -, hbus, -⟩ := positionStep_spec ld (64 - n) r1.1 r2.1 { p with bus := r2.2 }
      obtain ⟨⟨es, h1, h2, h3⟩, h4, h5⟩ := ih (by omega) _ hs
      refine ⟨⟨[.read r1.1, .read r2.1, .write dir] ++ es, ?_, ?_, ?_⟩, ?_, h5⟩
      · rw [h1, hbus]; simp [hb]
      · intro q hq; simp at hq; exact h2 q hq
      · rw [List.length_append, h3]
        cases hw : (walkPositions ld n (positionStep ld (64 - n) r1.1 r2.1 { p with bus := r2.2 })).1 with
        | none => simp [walkLength]; omega
        | some pos => have := h4 pos hw; simp [walkLength]; omega
      · intro pos hpos
        have := h4 pos hpos
        omega

/-! ## The pairs of a pass -/

/-- A position that is not marked moves the last mark nowhere; one that is becomes it (R174). -/
theorem LastMark.snoc {ps : List PairRead} {limit z : Nat} (h : LastMark ps limit z) (hz : z ≤ ps.length) (x : PairRead) :
    LastMark (ps ++ [x]) limit (if x.marked = true ∧ ps.length < limit then ps.length + 1 else z) := by
  have hlow : ∀ i, i < ps.length → (ps ++ [x])[i]? = ps[i]? := fun i hi => List.getElem?_append_left hi
  have hlast : (ps ++ [x])[ps.length]? = some x := by simp
  have hout : ∀ i y, (ps ++ [x])[i]? = some y → i ≤ ps.length := by
    intro i y hy
    have := (List.getElem?_eq_some_iff.1 hy).1
    simp at this
    omega
  by_cases hm : x.marked = true ∧ ps.length < limit
  · rw [if_pos hm]
    refine ⟨.inr ⟨_, x, rfl, hm.2, hlast, hm.1⟩, fun i y hi hl hy => ?_⟩
    have := hout i y hy
    omega
  · rw [if_neg hm]
    refine ⟨?_, fun i y hi hl hy => ?_⟩
    · rcases h.1 with e | ⟨i, y, h1, h2, h3, h4⟩
      · exact .inl e
      · exact .inr ⟨i, y, h1, h2, by rw [hlow i (by omega)]; exact h3, h4⟩
    · by_cases e : i = ps.length
      · subst e
        rw [hlast] at hy
        obtain rfl := Option.some.inj hy
        simpa [hl] using hm
      · have := hout i y hy
        exact h.2 i y hi hl (by rw [← hlow i (by omega)]; exact hy)

/-- What a pass has done after the positions `ps` (R173–R175): its events, its directions as the rules choose them, its buffer
and its marks; from the buffer `rom`, `SS.LFD` = `lfd` and the bus `b` at the start of its walk. -/
structure PassPairs (ld : Nat) (rom : Address) (lfd : Nat) (b : Bus) (ps : List PairRead) (p : PassState) : Prop where
  bus : p.bus = busReplay (ps.flatMap PairRead.events) b
  chosen : ∀ i (x : PairRead), ps[i]? = some x → x.Chosen (i + 1) ld rom
  rom : ∀ i, i < 64 → p.rom.getLsbD i = (ps[i]?.map PairRead.dir).getD (rom.getLsbD i)
  zero : LastMark ps 64 p.lastZero ∧ p.lastZero ≤ ps.length
  lfd : ∃ m, LastMark ps 8 m ∧ m ≤ ps.length ∧ p.lfd = if m = 0 then lfd else m

theorem PassPairs.start (ld : Nat) (rom : Address) (lfd : Nat) (b : Bus) :
    PassPairs ld rom lfd b [] { lastZero := 0, crc := 0x00#8, lfd := lfd, rom := rom, bus := b } :=
  ⟨rfl, by simp, by simp, ⟨⟨.inl rfl, by simp⟩, Nat.le_refl _⟩, 0, ⟨.inl rfl, by simp⟩, Nat.le_refl _, rfl⟩

/-- The direction a position takes, for the pair read (R173, R174). -/
def pairDirection (ld pos : Nat) (id cmp : Bool) (rom : Address) : Bool :=
  if id != cmp then id else discrepancyDir pos ld rom

/-- A position's step takes that direction and marks it where it is a discrepancy resolved to 0 (R174). -/
theorem positionStep_pair (ld i : Nat) (id cmp : Bool) (hne : (id && cmp) = false) (p : PassState) :
    let x : PairRead := ⟨id, cmp, pairDirection ld (i + 1) id cmp p.rom⟩
    (positionStep ld (i + 1) id cmp p).rom = setAddrBit p.rom (i + 1) x.dir ∧
    (positionStep ld (i + 1) id cmp p).bus = busReplay [.write x.dir] p.bus ∧
    (positionStep ld (i + 1) id cmp p).lastZero = (if x.marked then i + 1 else p.lastZero) ∧
    (positionStep ld (i + 1) id cmp p).lfd = (if x.marked = true ∧ i < 8 then i + 1 else p.lfd) := by
  unfold positionStep pairDirection
  generalize discrepancyDir (i + 1) ld p.rom = d
  cases id <;> cases cmp
  · cases d
    · by_cases h : i < 8
      · simp [PairRead.marked, markZero, Config.familyLimit, busWriteSlot_replay, h]
      · simp [PairRead.marked, markZero, Config.familyLimit, busWriteSlot_replay, h]
        omega
    · simp [PairRead.marked, markZero, busWriteSlot_replay]
  · simp [PairRead.marked, busWriteSlot_replay]
  · simp [PairRead.marked, busWriteSlot_replay]
  · simp at hne

theorem PassPairs.step {ld : Nat} {rom : Address} {lfd : Nat} {b : Bus} {ps : List PairRead} {p : PassState}
    (h : PassPairs ld rom lfd b ps p) (hl : ps.length < 64)
    (hne : ((busReadSlot p.bus).1 && (busReadSlot (busReadSlot p.bus).2).1) = false) :
    ∃ x, PassPairs ld rom lfd b (ps ++ [x])
      (positionStep ld (ps.length + 1) (busReadSlot p.bus).1 (busReadSlot (busReadSlot p.bus).2).1
        { p with bus := (busReadSlot (busReadSlot p.bus).2).2 }) := by
  have hb1 := busReadSlot_replay p.bus
  have hb2 := busReadSlot_replay (busReadSlot p.bus).2
  generalize (busReadSlot (busReadSlot p.bus).2).2 = b2 at *
  generalize (busReadSlot (busReadSlot p.bus).2).1 = cmp at *
  generalize (busReadSlot p.bus).2 = b1 at *
  generalize (busReadSlot p.bus).1 = id at *
  obtain ⟨h1, h2, h3, h4⟩ := positionStep_pair ld ps.length id cmp hne { p with bus := b2 }
  have hrom : p.rom.getLsbD ps.length = rom.getLsbD ps.length := by rw [h.rom _ hl]; simp
  refine ⟨⟨id, cmp, pairDirection ld (ps.length + 1) id cmp p.rom⟩, ?_, ?_, ?_, ?_, ?_⟩
  · rw [h2, List.flatMap_append, busReplay_append, ← h.bus, hb2, hb1]
    rfl
  · intro i x hx
    by_cases hi : i < ps.length
    · rw [List.getElem?_append_left hi] at hx
      exact h.chosen i x hx
    · have he : i = ps.length := by
        have := (List.getElem?_eq_some_iff.1 hx).1
        simp at this
        omega
      subst he
      simp at hx
      subst hx
      refine ⟨by simpa using hne, fun g => by simp [pairDirection, g], fun g1 g2 => ?_⟩
      dsimp only at g1 g2
      subst g1 g2
      simp only [pairDirection, discrepancyDir, addrBit, bne_self_eq_false, Bool.false_eq_true, if_false,
        Nat.add_sub_cancel, hrom]
  · intro i hi
    rw [h1, setAddrBit_getLsbD _ _ _ hi]
    by_cases e : i = ps.length
    · subst e
      simp
    · rw [if_neg (by omega), h.rom i hi]
      by_cases hlt : i < ps.length
      · rw [List.getElem?_append_left hlt]
      · rw [List.getElem?_eq_none (by omega), List.getElem?_eq_none (by simp; omega)]
  · have := h.zero.1.snoc h.zero.2 ⟨id, cmp, pairDirection ld (ps.length + 1) id cmp p.rom⟩
    simp only [hl, and_true] at this
    refine ⟨by rw [h3]; exact this, ?_⟩
    rw [h3]
    have := h.zero.2
    simp only [List.length_append, List.length_singleton]
    split <;> omega
  · obtain ⟨m, hm, hle, he⟩ := h.lfd
    refine ⟨_, hm.snoc hle ⟨id, cmp, pairDirection ld (ps.length + 1) id cmp p.rom⟩, ?_, ?_⟩
    · simp only [List.length_append, List.length_singleton]
      split <;> omega
    · rw [h4]
      dsimp only
      split
      · simp
      · exact he

/-- A walk takes positions up to its idle pair, or all 64 (R172, R173). -/
theorem walkPositions_pairs {ld : Nat} {rom : Address} {lfd : Nat} {b : Bus} (n : Nat) {ps : List PairRead} {p : PassState}
    (hn : ps.length + n = 64) (h : PassPairs ld rom lfd b ps p) :
    ∃ qs : List PairRead, qs.length ≤ 64 ∧
      (walkPositions ld n p).1 = (if qs.length < 64 then some (qs.length + 1) else none) ∧
      PassPairs ld rom lfd b qs { (walkPositions ld n p).2 with bus := busReplay (qs.flatMap PairRead.events) b } ∧
      (walkPositions ld n p).2.bus = busReplay (qs.flatMap PairRead.events ++
        if qs.length < 64 then [.read true, .read true] else []) b := by
  induction n generalizing ps p with
  | zero =>
    refine ⟨ps, by omega, by rw [if_neg (by omega)]; rfl, ?_, by rw [if_neg (by omega), List.append_nil]; exact h.bus⟩
    rw [← h.bus]
    exact h
  | succ n ih =>
    rw [walkPositions_succ]
    dsimp only
    have e : 64 - n = ps.length + 1 := by omega
    cases hid : ((busReadSlot p.bus).1 && (busReadSlot (busReadSlot p.bus).2).1)
    · obtain ⟨x, hx⟩ := h.step (by omega) hid
      simp only [Bool.false_eq_true, if_false, e]
      exact ih (by simp; omega) hx
    · refine ⟨ps, by omega, by rw [if_pos rfl, if_pos (by omega), e], ?_, ?_⟩
      · rw [if_pos rfl]
        exact ⟨rfl, h.chosen, h.rom, h.zero, h.lfd⟩
      · rw [if_pos rfl, if_pos (by omega), busReplay_append, ← h.bus]
        have h1 := busReadSlot_replay p.bus
        have h2 := busReadSlot_replay (busReadSlot p.bus).2
        rw [Bool.and_eq_true] at hid
        rw [hid.1] at h1
        rw [hid.2, h1] at h2
        rw [h1, h2]
        rfl

/-! ## A pass and a call -/

/-- The number of events of a pass that is not cut by its reset: 1 + 8 and those of its walk (R182). -/
def passLength (idle : Option Nat) : Nat := 9 + walkLength 64 idle

/-- A search call's answer is lawful: the ranges of SearchState, `SS = INIT` after every failure, an accepted address that is
not zero and has CRC 0, and `LDF` exactly with `LD = 0` (R176, R177). -/
structure SearchOk (o : SearchOut) : Prop where
  legalLd : o.ss.ld ≤ 64
  legalLfd : o.ss.lfd ≤ 8
  legalLdf : o.ss.ldf = true → o.ss.ld = 0
  failed : o.code ≠ .eNone → o.found = false ∧ o.ss = SearchState.init
  valid : o.found = true → o.code = .eNone ∧ o.rom ≠ 0#64 ∧ crcBytes 0x00#8 (addrBytes o.rom) = 0x00#8 ∧
    (o.ss.ldf = true ↔ o.ss.ld = 0)

theorem searchFailed_ok (code : ErrCode) (rom : Address) (b : Bus) : SearchOk (searchFailed code rom b) :=
  ⟨by simp [searchFailed, SearchState.init], by simp [searchFailed, SearchState.init],
    by simp [searchFailed, SearchState.init], fun _ => ⟨rfl, rfl⟩, by simp [searchFailed]⟩

theorem closePass_bus (w : Option Nat × PassState) : (closePass w).bus = w.2.bus := by
  obtain ⟨_ | pos, p⟩ := w
  · simp only [closePass]
    split
    · rfl
    · split <;> rfl
  · rfl

theorem closePass_ok {w : Option Nat × PassState} (h : w.1 = none → PassOk 64 w.2) : SearchOk (closePass w) := by
  obtain ⟨_ | pos, p⟩ := w
  · have hp := h rfl
    simp only [closePass]
    split
    · exact searchFailed_ok _ _ _
    · split
      · exact searchFailed_ok _ _ _
      · next hc hz =>
        refine ⟨hp.lastZero, hp.lfd, by simp, by simp, fun _ => ⟨rfl, by simpa using hz, ?_, by simp⟩⟩
        have := hp.crc
        simp only [bne_iff_ne, ne_eq, Decidable.not_not] at hc
        rw [hc] at this
        exact this.symm
  · exact searchFailed_ok _ _ _

/-- The start of the walk of a pass is in order. -/
theorem passStart_ok {lfd : Nat} (h : lfd ≤ 8) (rom : Address) (b : Bus) :
    PassOk (64 - 64) { lastZero := 0, crc := 0x00#8, lfd := lfd, rom := rom, bus := b } :=
  ⟨Nat.le_refl 0, h, rfl⟩

/-- What a search pass does (R172, R182): without presence, one event, everything else as a failed call leaves it; else its
reset, the 8 writes of the command byte and the walk, and a lawful answer. -/
theorem searchPass_spec (cmds : RomCommands) {ss : SearchState} (hl : ss.lfd ≤ 8) (rom : Address) (b : Bus) :
    SearchOk (searchPass cmds ss rom b) ∧
    ((busReset b).1 = false → searchPass cmds ss rom b = searchFailed .eBusResetTimeout rom (busReset b).2) ∧
    ((busReset b).1 = true → ∃ es idle,
      (searchPass cmds ss rom b).bus =
        busReplay (.reset true :: (byteBits cmds.searchRom).map .write ++ es) b ∧
      (∀ q, BusEvent.reset q ∉ es) ∧ es.length = walkLength 64 idle ∧
      (∀ pos, idle = some pos → 1 ≤ pos ∧ pos ≤ 64 ∧
        (searchPass cmds ss rom b).code = if pos = 1 then .eSearchNoResponse else .eBusIdleDuringSearch) ∧
      (idle = none → (searchPass cmds ss rom b).code = .eNone ∨ (searchPass cmds ss rom b).code = .eChecksumMismatch ∨
        (searchPass cmds ss rom b).code = .eZeroAddress)) := by
  have hr := busReset_replay b
  unfold searchPass
  generalize busReset b = r at *
  obtain ⟨p, b1⟩ := r
  dsimp only at *
  cases p
  · exact ⟨searchFailed_ok _ _ _, fun _ => rfl, by simp⟩
  · simp only [if_true, Bool.true_eq_false, false_implies, true_and, forall_const]
    have hw := walkPositions_spec ss.ld 64 (Nat.le_refl _)
      { lastZero := 0, crc := 0x00#8, lfd := ss.lfd, rom := rom, bus := busWriteByte cmds.searchRom b1 }
      (passStart_ok hl rom _)
    generalize walkPositions ss.ld 64
      { lastZero := 0, crc := 0x00#8, lfd := ss.lfd, rom := rom, bus := busWriteByte cmds.searchRom b1 } = w at *
    obtain ⟨⟨es, h1, h2, h3⟩, h4, h5⟩ := hw
    refine ⟨closePass_ok h5, es, w.1, ?_, h2, h3, ?_, ?_⟩
    · rw [closePass_bus, h1, busWriteByte_replay, hr]
      simp [busReplay_append]
    · intro pos hpos
      have hb := h4 pos hpos
      obtain ⟨w1, w2⟩ := w
      dsimp only at hpos
      subst hpos
      exact ⟨by omega, hb.2, rfl⟩
    · intro hidle
      obtain ⟨w1, w2⟩ := w
      dsimp only at hidle
      subst hidle
      simp only [closePass]
      split
      · exact .inr (.inl rfl)
      · split
        · exact .inr (.inr rfl)
        · exact .inl rfl

/-- What a search call does (R178, R179): the "no more devices" call, or a pass; always a lawful answer from a lawful
SearchState, and at most 201 events. -/
theorem searchNext_spec (cfg : Config) {ss : SearchState} (h1 : ss.ld ≤ 64) (h2 : ss.lfd ≤ 8)
    (h3 : ss.ldf = true → ss.ld = 0) (rom : Address) (b : Bus) :
    SearchOk (searchNext cfg ss rom b) ∧
    ∃ es, (searchNext cfg ss rom b).bus = busReplay es b ∧ es.length ≤ 201 := by
  unfold searchNext
  cases hd : ss.ldf
  · simp only [Bool.false_eq_true, if_false]
    obtain ⟨hok, hn, hp⟩ := searchPass_spec cfg.cmds h2 rom b
    refine ⟨hok, ?_⟩
    cases hr : (busReset b).1
    · rw [hn hr]
      exact ⟨_, busReset_replay b, by simp⟩
    · obtain ⟨es, idle, hb, -, hl, hi, -⟩ := hp hr
      refine ⟨_, hb, ?_⟩
      cases idle with
      | none => simp [hl, walkLength]
      | some pos => have := hi pos rfl; simp [hl, walkLength]; omega
  · simp only [if_true]
    refine ⟨⟨?_, ?_, ?_, by simp, by simp⟩, [], rfl, by simp⟩
    · dsimp only; split
      · exact Nat.zero_le _
      · exact h1
    · dsimp only; split
      · exact Nat.zero_le _
      · exact h2
    · dsimp only; split
      · exact fun _ => rfl
      · exact h3

/-! ## The enumeration -/

/-- The table of an enumeration: its entries below `n` are valid addresses, the others are zero. -/
structure TableOk (n : Nat) (t : Vector Address 5) : Prop where
  bound : n ≤ 5
  valid : ∀ i (h : i < 5), i < n → t[i] ≠ 0#64 ∧ crcBytes 0x00#8 (addrBytes t[i]) = 0x00#8
  clear : ∀ i (h : i < 5), n ≤ i → t[i] = 0#64

/-- What is true of the enumeration's values at every turn of its loop. -/
structure EnumOk (a : EnumState) : Prop where
  table : TableOk a.n a.table
  ld : a.ss.ld ≤ 64
  lfd : a.ss.lfd ≤ 8
  ldf : a.ss.ldf = true → a.ss.ld = 0

theorem tableOk_push {n : Nat} {t : Vector Address 5} (h : TableOk n t) (hn : n < 5) {a : Address} (h0 : a ≠ 0#64)
    (hc : crcBytes 0x00#8 (addrBytes a) = 0x00#8) : TableOk (n + 1) (t.setIfInBounds n a) := by
  refine ⟨by omega, fun i hi hlt => ?_, fun i hi hle => ?_⟩
  · by_cases e : n = i
    · subst e; simp [h0, hc]
    · rw [Vector.getElem_setIfInBounds_ne _ (by omega)]
      exact h.valid i hi (by omega)
  · rw [Vector.getElem_setIfInBounds_ne _ (by omega)]
    exact h.clear i hi (by omega)

/-- What the loop of ENUM does (R183–R185): at most 201 events a call, a lawful table and SearchState; a code other than 0x0
is a failure, after which `SS` = INIT; and it ends with code 0x0 only at the "no more devices" call or with a full table. -/
theorem enumLoop_spec (cfg : Config) (k : Nat) (a : EnumState) (ha : EnumOk a) (hk : a.n + k = 5) :
    EnumOk (enumLoop cfg k a).2 ∧
    (∃ es, (enumLoop cfg k a).2.bus = busReplay es a.bus ∧ es.length ≤ 201 * k) ∧
    ((enumLoop cfg k a).1 ≠ .eNone → (enumLoop cfg k a).2.ss = SearchState.init ∧ (enumLoop cfg k a).2.n < 5) ∧
    a.n ≤ (enumLoop cfg k a).2.n := by
  induction k generalizing a with
  | zero => exact ⟨ha, ⟨[], rfl, by simp⟩, by simp [enumLoop], Nat.le_refl _⟩
  | succ k ih =>
    obtain ⟨hok, es, hb, hl⟩ := searchNext_spec cfg ha.ld ha.lfd ha.ldf a.rom a.bus
    rw [enumLoop]
    generalize searchNext cfg a.ss a.rom a.bus = o at *
    dsimp only
    split
    · next hf =>
      obtain ⟨hc, h0, hcrc, -⟩ := hok.valid hf
      have ha' : EnumOk
          { n := a.n + 1, table := a.table.setIfInBounds a.n o.rom, ss := o.ss, rom := o.rom, bus := o.bus } :=
        ⟨tableOk_push ha.table (by omega) h0 hcrc, hok.legalLd, hok.legalLfd, hok.legalLdf⟩
      obtain ⟨g1, ⟨fs, g2, g3⟩, g4, g5⟩ := ih _ ha' (by dsimp only; omega)
      refine ⟨g1, ⟨es ++ fs, ?_, ?_⟩, g4, by dsimp only at g5; omega⟩
      · rw [g2, hb, busReplay_append]
      · simp; omega
    · next hf =>
      refine ⟨⟨ha.table, hok.legalLd, hok.legalLfd, hok.legalLdf⟩, ⟨es, hb, by omega⟩, ?_, Nat.le_refl _⟩
      intro hc
      exact ⟨(hok.failed hc).2, by dsimp only; omega⟩

/-- The start of the enumeration is in order. -/
theorem enumStart_ok (rom : Address) (b : Bus) :
    EnumOk { n := 0, table := Vector.replicate 5 0#64, ss := SearchState.init, rom := rom, bus := b } :=
  ⟨⟨by simp, by simp, by simp⟩, by simp [SearchState.init], by simp [SearchState.init], by simp [SearchState.init]⟩

/-- What ENUM as a function does (R183): the fields it writes, its table, its flags and its events. -/
theorem enumBody_spec (s : State) :
    (enumBody s).2 =
      { s with
        count := (enumBody s).2.count
        full := (enumBody s).2.full
        found := (enumBody s).2.found
        devtab := (enumBody s).2.devtab
        ss := (enumBody s).2.ss
        rom := (enumBody s).2.rom
        bus := (enumBody s).2.bus } ∧
    TableOk (enumBody s).2.count (enumBody s).2.devtab ∧
    ((enumBody s).2.ss.ld ≤ 64 ∧ (enumBody s).2.ss.lfd ≤ 8 ∧
      ((enumBody s).2.ss.ldf = true → (enumBody s).2.ss.ld = 0)) ∧
    (enumBody s).2.full = ((enumBody s).2.count == 5 && !(enumBody s).2.ss.ldf) ∧
    (enumBody s).2.found = decide (0 < (enumBody s).2.count) ∧
    ((enumBody s).1 ≠ .eNone → (enumBody s).2.ss = SearchState.init ∧ (enumBody s).2.count < 5) ∧
    ∃ es, (enumBody s).2.bus = busReplay es s.bus ∧ es.length ≤ 1005 := by
  obtain ⟨h1, ⟨es, h2, h3⟩, h4, -⟩ := enumLoop_spec s.cfg 5 _ (enumStart_ok s.rom s.bus) rfl
  refine ⟨rfl, h1.table, ⟨h1.ld, h1.lfd, h1.ldf⟩, rfl, rfl, h4, es, h2, h3⟩

end Sys2Proof.Machine
end

