-- ==== Sys2Proof/Laws/Identity.lean ====
section
/-! SUPPORT. What the decoder and IDENTIFY do (44_identity.md R223–R239). -/

namespace Sys2Proof.Machine

/-! ## The decoder -/

/-- `NormCode` always answers 'A'..'Z' (R223). -/
theorem normCode_range (c : Byte) : 0x41#8 ≤ normCode c ∧ normCode c ≤ 0x5A#8 := by
  revert c; decide +kernel

/-- `NormId` always answers '0'..'9' (R224). -/
theorem normId_range (c : Byte) : 0x30#8 ≤ normId c ∧ normId c ≤ 0x39#8 := by
  revert c; decide +kernel

theorem revisionMapping_fst (r : Record) : ∃ c, (revisionMapping r).1 = normId c := by
  unfold revisionMapping
  split
  · exact ⟨_, rfl⟩
  · exact ⟨_, rfl⟩

/-- What `DecodeRecord` answers (R226): the board error, the vendor error, or the identity of the two entries. -/
theorem decodeRecord_cases (cfg : Config) (r : Record) :
    (lookupBoard cfg.boardCatalog (trimName (boardField r)) = none ∧ decodeRecord cfg r = .error .eUnknownBoardName) ∨
    (∃ be, lookupBoard cfg.boardCatalog (trimName (boardField r)) = some be ∧
      lookupVendor cfg.vendorCatalog (trimName (vendorField r)) = none ∧
      decodeRecord cfg r = .error .eUnknownVendorName) ∨
    (∃ be ve, lookupBoard cfg.boardCatalog (trimName (boardField r)) = some be ∧
      lookupVendor cfg.vendorCatalog (trimName (vendorField r)) = some ve ∧
      decodeRecord cfg r = .ok { role := be.role, boardId := be.boardId, vendorId := ve.vendorId, revCode := normCode r[27]
                                 revId := (revisionMapping r).1, bomRev := (revisionMapping r).2 }) := by
  unfold decodeRecord
  cases hb : lookupBoard cfg.boardCatalog (trimName (boardField r)) with
  | none => exact .inl ⟨rfl, rfl⟩
  | some be =>
    cases hv : lookupVendor cfg.vendorCatalog (trimName (vendorField r)) with
    | none => exact .inr (.inl ⟨be, rfl, rfl, rfl⟩)
    | some ve => exact .inr (.inr ⟨be, ve, rfl, rfl, rfl⟩)

/-- What DECODE as a function does (R227): it writes `ident` only, all zero with an error code, else an identity whose
revision code is in 'A'..'Z' and whose revision id is in '0'..'9'. -/
theorem decodeBody_spec (s : State) :
    (decodeBody s).2 = { s with ident := (decodeBody s).2.ident } ∧
    ((decodeBody s).1 = .eNone ∧ decodeRecord s.cfg s.recbuf = .ok (decodeBody s).2.ident ∧
        0x41#8 ≤ (decodeBody s).2.ident.revCode ∧ (decodeBody s).2.ident.revCode ≤ 0x5A#8 ∧
        0x30#8 ≤ (decodeBody s).2.ident.revId ∧ (decodeBody s).2.ident.revId ≤ 0x39#8 ∨
      ((decodeBody s).1 = .eUnknownBoardName ∨ (decodeBody s).1 = .eUnknownVendorName) ∧
        decodeRecord s.cfg s.recbuf = .error (decodeBody s).1 ∧ (decodeBody s).2.ident = Identity.zero) := by
  unfold decodeBody
  rcases decodeRecord_cases s.cfg s.recbuf with ⟨-, h⟩ | ⟨be, -, -, h⟩ | ⟨be, ve, -, -, h⟩
  · rw [h]; exact ⟨rfl, .inr ⟨.inl rfl, rfl, rfl⟩⟩
  · rw [h]; exact ⟨rfl, .inr ⟨.inr rfl, rfl, rfl⟩⟩
  · rw [h]
    obtain ⟨c, hc⟩ := revisionMapping_fst s.recbuf
    refine ⟨rfl, .inl ⟨rfl, rfl, (normCode_range _).1, (normCode_range _).2, ?_, ?_⟩⟩
    · dsimp only; rw [hc]; exact (normId_range c).1
    · dsimp only; rw [hc]; exact (normId_range c).2

/-! ## The device loop -/

/-- One device of IDENTIFY's loop (R236): skipped with an error code, fatal, or folded. -/
theorem identifyLoop_succ (n i : Nat) (a : IdentifyState) :
    (∃ c s', c ≠ .eNone ∧ ((memrdBody i a.st = (c, s')) ∨
        ((memrdBody i a.st).1 = .eNone ∧ decodeBody (memrdBody i a.st).2 = (c, s'))) ∧
      identifyLoop (n + 1) i a = identifyLoop n (i + 1) { a with st := setDeverr i c s' }) ∨
    ((memrdBody i a.st).1 = .eNone ∧ (decodeBody (memrdBody i a.st).2).1 = .eNone ∧
      roleOf (decodeBody (memrdBody i a.st).2).2.ident.role = none ∧
      identifyLoop (n + 1) i a =
        { a with st := setDeverr i .eUnknownBoardRole (decodeBody (memrdBody i a.st).2).2, fatal := true }) ∨
    (∃ r, (memrdBody i a.st).1 = .eNone ∧ (decodeBody (memrdBody i a.st).2).1 = .eNone ∧
      roleOf (decodeBody (memrdBody i a.st).2).2.ident.role = some r ∧
      identifyLoop (n + 1) i a = identifyLoop n (i + 1)
        { a with
          st := setDeverr i .eNone (decodeBody (memrdBody i a.st).2).2
          words := foldIdentity r (decodeBody (memrdBody i a.st).2).2.ident a.words
          ok := a.ok + 1
          seen := a.seen ||| roleBit r }) := by
  rw [identifyLoop]
  generalize memrdBody i a.st = m
  obtain ⟨c, s1⟩ := m
  dsimp only
  by_cases hc : c = .eNone
  · subst hc
    generalize decodeBody s1 = d
    obtain ⟨c2, s2⟩ := d
    dsimp only
    by_cases hc2 : c2 = .eNone
    · subst hc2
      cases hr : roleOf s2.ident.role with
      | none => exact .inr (.inl ⟨rfl, rfl, rfl, by simp⟩)
      | some r => exact .inr (.inr ⟨r, rfl, rfl, rfl, by simp⟩)
    · exact .inl ⟨c2, s2, hc2, .inr ⟨rfl, rfl⟩, by simp [hc2]⟩
  · exact .inl ⟨c, s1, hc, .inl rfl, by simp [hc]⟩

/-- The fields the device loop of IDENTIFY writes (R236): ATTEMPTS, RECBUF, the identity, DEVERR and the bus. -/
def LoopFrame (s t : State) : Prop :=
  t = { s with
    attempts := t.attempts
    recbuf := t.recbuf
    ident := t.ident
    deverr := t.deverr
    bus := t.bus }

theorem LoopFrame.trans {s t u : State} (h : LoopFrame s t) (g : LoopFrame t u) : LoopFrame s u := by
  unfold LoopFrame at *; rw [g, h]

theorem LoopFrame.memrd (i : Nat) (s : State) : LoopFrame s (memrdBody i s).2 := by
  have := (memrdBody_spec i s).1
  unfold LoopFrame
  rw [this]

theorem LoopFrame.decode (s : State) : LoopFrame s (decodeBody s).2 := by
  have := (decodeBody_spec s).1
  unfold LoopFrame
  rw [this]

theorem LoopFrame.deverr (i : Nat) (c : ErrCode) (s : State) : LoopFrame s (setDeverr i c s) := rfl

/-- What the device loop does: its frame, at most 7060 events a device, at most one more decoded identity a device, and the
legal ranges of ATTEMPTS and the identity. -/
theorem identifyLoop_spec (n i : Nat) (a : IdentifyState) :
    LoopFrame a.st (identifyLoop n i a).st ∧
    (∃ es, (identifyLoop n i a).st.bus = busReplay es a.st.bus ∧ es.length ≤ 7060 * n) ∧
    (identifyLoop n i a).ok ≤ a.ok + n ∧
    (a.st.attempts ≤ 10 → (identifyLoop n i a).st.attempts ≤ 10) := by
  induction n generalizing i a with
  | zero => exact ⟨rfl, ⟨[], rfl, by simp⟩, by simp [identifyLoop], fun h => h⟩
  | succ n ih =>
    obtain ⟨-, ⟨es, h1, h2⟩, h3, -⟩ := memrdBody_spec i a.st
    have hm := LoopFrame.memrd i a.st
    have hd := LoopFrame.decode (memrdBody i a.st).2
    have hbus : (decodeBody (memrdBody i a.st).2).2.bus = (memrdBody i a.st).2.bus := by rw [(decodeBody_spec _).1]
    have hatt : (decodeBody (memrdBody i a.st).2).2.attempts = (memrdBody i a.st).2.attempts := by
      rw [(decodeBody_spec _).1]
    rcases identifyLoop_succ n i a with ⟨c, s', -, hs, h⟩ | ⟨-, -, -, h⟩ | ⟨r, -, -, -, h⟩
    · have hs' : LoopFrame a.st s' ∧ s'.bus = (memrdBody i a.st).2.bus ∧ s'.attempts = (memrdBody i a.st).2.attempts := by
        rcases hs with hs | ⟨-, hs⟩
        · rw [hs] at hm ⊢; exact ⟨hm, rfl, rfl⟩
        · rw [hs] at hd hbus hatt; exact ⟨hm.trans hd, hbus, hatt⟩
      rw [h]
      obtain ⟨g1, ⟨fs, g2, g3⟩, g4, g5⟩ := ih (i + 1) { a with st := setDeverr i c s' }
      refine ⟨(hs'.1.trans (.deverr i c s')).trans g1, ⟨es ++ fs, ?_, by simp; omega⟩, by simp at g4 ⊢; omega, ?_⟩
      · rw [g2, busReplay_append, ← h1, ← hs'.2.1]; rfl
      · intro _; exact g5 (by simpa [hs'.2.2] using h3)
    · rw [h]
      refine ⟨(hm.trans hd).trans (.deverr i _ _), ⟨es, ?_, by omega⟩, by simp, fun _ => by simpa [hatt] using h3⟩
      simp [hbus, h1]
    · rw [h]
      obtain ⟨g1, ⟨fs, g2, g3⟩, g4, g5⟩ := ih (i + 1)
        { a with
          st := setDeverr i .eNone (decodeBody (memrdBody i a.st).2).2
          words := foldIdentity r (decodeBody (memrdBody i a.st).2).2.ident a.words
          ok := a.ok + 1
          seen := a.seen ||| roleBit r }
      refine ⟨((hm.trans hd).trans (.deverr i _ _)).trans g1, ⟨es ++ fs, ?_, by simp; omega⟩, by simp at g4 ⊢; omega, ?_⟩
      · rw [g2, busReplay_append, ← h1, ← hbus]; rfl
      · intro _; exact g5 (by simpa [hatt] using h3)

/-! ## IDENTIFY -/

/-- What IDENTIFY as a function does (R236, R234): the fields it writes, its three codes, the default words exactly with an
error code, ID_VALID, and at most 36305 events. -/
theorem identifyBody_spec (s : State) :
    (identifyBody s).2 =
      { s with
        count := (identifyBody s).2.count
        full := (identifyBody s).2.full
        found := (identifyBody s).2.found
        devtab := (identifyBody s).2.devtab
        ss := (identifyBody s).2.ss
        rom := (identifyBody s).2.rom
        bus := (identifyBody s).2.bus
        attempts := (identifyBody s).2.attempts
        recbuf := (identifyBody s).2.recbuf
        ident := (identifyBody s).2.ident
        deverr := (identifyBody s).2.deverr
        okcount := (identifyBody s).2.okcount
        serial := (identifyBody s).2.serial
        revision := (identifyBody s).2.revision
        defaults := (identifyBody s).2.defaults
        missing := (identifyBody s).2.missing
        idValid := true } ∧
    (∃ es, (identifyBody s).2.bus = busReplay es s.bus ∧ es.length ≤ 36305) ∧
    ((identifyBody s).1 = .eNone ∧ (identifyBody s).2.defaults = false ∧ 1 ≤ (identifyBody s).2.okcount ∨
      ((identifyBody s).1 = .eUnknownBoardRole ∨ (identifyBody s).1 = .eNoDeviceDecoded) ∧
        (identifyBody s).2.defaults = true ∧ (identifyBody s).2.serial = s.cfg.defaultSerial ∧
        (identifyBody s).2.revision = s.cfg.defaultRevision ∧ (identifyBody s).2.missing = 0#3) ∧
    (identifyBody s).2.okcount ≤ (identifyBody s).2.count ∧ (identifyBody s).2.count = (enumBody s).2.count ∧
    (identifyBody s).2.devtab = (enumBody s).2.devtab ∧ (identifyBody s).2.ss = (enumBody s).2.ss ∧
    (s.attempts ≤ 10 → (identifyBody s).2.attempts ≤ 10) := by
  obtain ⟨he, ht, -, -, -, -, es, hb, hl⟩ := enumBody_spec s
  have hcount := ht.bound
  have hi := identifyLoop_spec (enumBody s).2.count 0
    { st := { (enumBody s).2 with deverr := Vector.replicate 5 .eNotProcessed }
      words := (0#32, 0#32), ok := 0, seen := 0b000#3, fatal := false }
  have hatt : (enumBody s).2.attempts = s.attempts := by rw [he]
  unfold identifyBody
  generalize enumBody s = e at *
  obtain ⟨c, s1⟩ := e
  dsimp only at *
  generalize identifyLoop s1.count 0 _ = x at *
  obtain ⟨hf, ⟨fs, h1, h2⟩, h3, h4⟩ := hi
  unfold LoopFrame at hf
  have hbus : x.st.bus = busReplay (es ++ fs) s.bus := by rw [h1, busReplay_append, ← hb]
  unfold identifyClose
  split
  · next hx =>
    refine ⟨?_, ⟨es ++ fs, hbus, by simp; omega⟩, .inr ⟨?_, rfl, ?_, ?_, rfl⟩, ?_, ?_, ?_, ?_, ?_⟩
    · dsimp only; rw [hf, he]
    · dsimp only; split
      · exact .inl rfl
      · exact .inr rfl
    · dsimp only; rw [hf, he]
    · dsimp only; rw [hf, he]
    · dsimp only; rw [hf]; dsimp only; omega
    · dsimp only; rw [hf]
    · dsimp only; rw [hf]
    · dsimp only; rw [hf]
    · intro h; exact h4 (by rw [hatt]; exact h)
  · next hx =>
    refine ⟨?_, ⟨es ++ fs, hbus, by simp; omega⟩, .inl ⟨rfl, rfl, ?_⟩, ?_, ?_, ?_, ?_, ?_⟩
    · dsimp only; rw [hf, he]
    · simp at hx; dsimp only; omega
    · dsimp only; rw [hf]; dsimp only; omega
    · dsimp only; rw [hf]
    · dsimp only; rw [hf]
    · dsimp only; rw [hf]
    · intro h; exact h4 (by rw [hatt]; exact h)

end Sys2Proof.Machine
end

