-- ==== Sys2Proof/Laws/Commands.lean ====
section
/-! SUPPORT. Every command as one function to its completion: `exec` is `finish` after it, it ignores the fields outside the
engine, and what it can write is said once. -/

namespace Sys2Proof.Machine

/-- A command as a function (the convention of R236): the code of its `finish` and the state before it. -/
def commandBody (i : Instr) (s : State) : ErrCode × State :=
  match i with
  | .owreset => (if (busReset s.bus).1 then .eNone else .eBusResetTimeout, setBus (busReset s.bus).2 s)
  | .owwbit bit => (.eNone, setBus (busWriteSlot bit s.bus) s)
  | .owrbit =>
    (.eNone, { setBus (busReadSlot s.bus).2 s with data := (BitVec.ofBool (busReadSlot s.bus).1).setWidth 8 })
  | .owwbyte v => (.eNone, setBus (busWriteByte v s.bus) s)
  | .owrbyte => (.eNone, { setBus (busReadByte s.bus).2 s with data := (busReadByte s.bus).1 })
  | .crc8 v => (.eNone, { s with crc := crc8 s.crc v })
  | .srchinit => (.eNone, setFound false { s with ss := SearchState.init })
  | .srchnext =>
    ((searchNext s.cfg s.ss s.rom s.bus).code,
      setFound (searchNext s.cfg s.ss s.rom s.bus).found (setSearch (searchNext s.cfg s.ss s.rom s.bus) s))
  | .enum => enumBody s
  | .memrd idx => memrdBody idx s
  | .decode => decodeBody s
  | .identify => identifyBody s

/-- Every command answers a next state: `finish` with its code, after its writes (R261). -/
theorem exec_eq (i : Instr) (s : State) : exec i s = .next (finish (commandBody i s).1 (commandBody i s).2) := by
  cases i <;> rfl

/-! ## The calls of an enumeration -/

/-- The state after `k` SRCHNEXT commands (R178). -/
def afterCalls : Nat → State → State
  | 0, s => s
  | k + 1, s => afterCalls k (finish (commandBody .srchnext s).1 (commandBody .srchnext s).2)

theorem exec_afterCalls (k : Nat) (s : State) : exec .srchnext (afterCalls k s) = .next (afterCalls (k + 1) s) := by
  induction k generalizing s with
  | zero => exact exec_eq .srchnext s
  | succ k ih => exact ih _

/-- The loop of ENUM is the SRCHNEXT calls that find a device, and the one that ends it where the table has room (R183). -/
theorem enumLoop_calls (k : Nat) (a : EnumState) {s : State} (hs : s.ss = a.ss) (hr : s.rom = a.rom) (hb : s.bus = a.bus)
    (hk : a.n + k = 5) :
    ∃ j, (enumLoop s.cfg k a).2.n = a.n + j ∧ j ≤ k ∧
      (∀ i (h : i < 5), i < a.n → (enumLoop s.cfg k a).2.table[i] = a.table[i]) ∧
      (∀ i (h : a.n + i < 5), i < j → (afterCalls (i + 1) s).found = true ∧
        (enumLoop s.cfg k a).2.table[a.n + i] = (afterCalls (i + 1) s).rom) ∧
      (j < k → (afterCalls (j + 1) s).found = false ∧ (enumLoop s.cfg k a).1 = (afterCalls (j + 1) s).err) ∧
      (j = k → (enumLoop s.cfg k a).1 = .eNone) ∧
      (enumLoop s.cfg k a).2.ss = (afterCalls (min (j + 1) k) s).ss ∧
      (enumLoop s.cfg k a).2.rom = (afterCalls (min (j + 1) k) s).rom ∧
      (enumLoop s.cfg k a).2.bus = (afterCalls (min (j + 1) k) s).bus := by
  induction k generalizing a s with
  | zero => exact ⟨0, rfl, by omega, fun _ _ _ => rfl, by simp, by simp, fun _ => rfl, hs.symm, hr.symm, hb.symm⟩
  | succ k ih =>
    rw [enumLoop, ← hs, ← hr, ← hb]
    dsimp only
    have h1 : afterCalls 1 s =
        finish (searchNext s.cfg s.ss s.rom s.bus).code (setFound (searchNext s.cfg s.ss s.rom s.bus).found
          (setSearch (searchNext s.cfg s.ss s.rom s.bus) s)) := rfl
    have h2 : ∀ i, afterCalls (i + 1) s = afterCalls i (afterCalls 1 s) := fun _ => rfl
    generalize searchNext s.cfg s.ss s.rom s.bus = o at *
    split
    · next hf =>
      obtain ⟨j, g1, g2, g3, g4, g5, g6, g7⟩ := ih
        { n := a.n + 1, table := a.table.setIfInBounds a.n o.rom, ss := o.ss, rom := o.rom, bus := o.bus }
        (s := afterCalls 1 s) (by rw [h1]; rfl) (by rw [h1]; rfl) (by rw [h1]; rfl) (by dsimp only; omega)
      rw [show (afterCalls 1 s).cfg = s.cfg by rw [h1]; rfl] at *
      dsimp only at g1 g2 g3 g4 g5 g6 g7
      refine ⟨j + 1, by rw [g1]; omega, by omega, fun i h hi => ?_, fun i h hi => ?_, fun hj => g5 (by omega),
        fun hj => g6 (by omega), ?_⟩
      · rw [g3 i h (by omega), Vector.getElem_setIfInBounds_ne _ (by omega)]
      · cases i with
        | zero =>
          refine ⟨by rw [h1]; exact hf, ?_⟩
          rw [show afterCalls (0 + 1) s = afterCalls 1 s from rfl, h1]
          exact (g3 a.n h (by omega)).trans (by simp [finish, setFound, setSearch])
        | succ i =>
          have := g4 i (by omega) (by omega)
          simp only [Nat.add_assoc, Nat.add_comm 1 i] at this
          exact this
      · rw [show min (j + 1 + 1) (k + 1) = min (j + 1) k + 1 by omega, h2]
        exact g7
    · next hf =>
      refine ⟨0, rfl, by omega, fun _ _ _ => rfl, by simp, fun _ => ⟨?_, ?_⟩, by simp, ?_⟩
      · rw [h2, h1]; simpa [afterCalls, finish, setFound] using hf
      · rw [h2, h1]; rfl
      · rw [show min (0 + 1) (k + 1) = 1 by omega, h1]; exact ⟨rfl, rfl, rfl⟩

/-! ## The fields no command reads -/

/-- `s` with the fields of `o` that no command reads: what the host's side and `finish` write. -/
def withOutside (o s : State) : State :=
  { s with
    cmdLast := o.cmdLast
    engine := o.engine
    done := o.done
    ovr := o.ovr
    err := o.err
    inReset := o.inReset
    readData := o.readData
    freeReads := o.freeReads
    pending := o.pending }

theorem enumBody_withOutside (o s : State) :
    enumBody (withOutside o s) = ((enumBody s).1, withOutside o (enumBody s).2) := rfl

theorem memrdBody_withOutside (o : State) (idx : Nat) (s : State) :
    memrdBody idx (withOutside o s) = ((memrdBody idx s).1, withOutside o (memrdBody idx s).2) := by
  unfold memrdBody
  rw [show deviceOperand idx (withOutside o s) = deviceOperand idx s from rfl]
  split
  · rfl
  · next a _ =>
    rw [show familySupported (withOutside o s).cfg a = familySupported s.cfg a from rfl]
    split <;> rfl

theorem decodeBody_withOutside (o s : State) :
    decodeBody (withOutside o s) = ((decodeBody s).1, withOutside o (decodeBody s).2) := by
  unfold decodeBody
  rw [show decodeRecord (withOutside o s).cfg (withOutside o s).recbuf = decodeRecord s.cfg s.recbuf from rfl]
  split <;> rfl

theorem identifyLoop_withOutside (o : State) (n i : Nat) (a : IdentifyState) :
    identifyLoop n i { a with st := withOutside o a.st } =
      { identifyLoop n i a with st := withOutside o (identifyLoop n i a).st } := by
  induction n generalizing i a with
  | zero => rfl
  | succ n ih =>
    simp only [identifyLoop, memrdBody_withOutside]
    split
    · exact ih (i + 1) { a with st := setDeverr i (memrdBody i a.st).1 (memrdBody i a.st).2 }
    · simp only [decodeBody_withOutside]
      split
      · exact ih (i + 1) { a with
          st := setDeverr i (decodeBody (memrdBody i a.st).2).1 (decodeBody (memrdBody i a.st).2).2 }
      · rw [show (withOutside o (decodeBody (memrdBody i a.st).2).2).ident =
          (decodeBody (memrdBody i a.st).2).2.ident from rfl]
        split
        · rfl
        · next r _ =>
          exact ih (i + 1)
            { a with
              st := setDeverr i .eNone (decodeBody (memrdBody i a.st).2).2
              words := foldIdentity r (decodeBody (memrdBody i a.st).2).2.ident a.words
              ok := a.ok + 1
              seen := a.seen ||| roleBit r }

theorem identifyBody_withOutside (o s : State) :
    identifyBody (withOutside o s) = ((identifyBody s).1, withOutside o (identifyBody s).2) := by
  have h := identifyLoop_withOutside o (enumBody s).2.count 0
    { st := { (enumBody s).2 with deverr := Vector.replicate 5 .eNotProcessed }
      words := (0#32, 0#32), ok := 0, seen := 0b000#3, fatal := false }
  have hs : identifyBody s = identifyClose (identifyLoop (enumBody s).2.count 0
    { st := { (enumBody s).2 with deverr := Vector.replicate 5 .eNotProcessed }
      words := (0#32, 0#32), ok := 0, seen := 0b000#3, fatal := false }) := rfl
  have ho : identifyBody (withOutside o s) = identifyClose (identifyLoop (enumBody s).2.count 0
    { st := withOutside o { (enumBody s).2 with deverr := Vector.replicate 5 .eNotProcessed }
      words := (0#32, 0#32), ok := 0, seen := 0b000#3, fatal := false }) := rfl
  rw [ho, hs, h]
  generalize identifyLoop _ _ _ = x
  simp only [identifyClose]
  split <;> rfl

/-- A command neither reads nor writes the fields outside it. -/
theorem commandBody_withOutside (o : State) (i : Instr) (s : State) :
    commandBody i (withOutside o s) = ((commandBody i s).1, withOutside o (commandBody i s).2) := by
  cases i with
  | enum => exact enumBody_withOutside o s
  | memrd idx => exact memrdBody_withOutside o idx s
  | decode => exact decodeBody_withOutside o s
  | identify => exact identifyBody_withOutside o s
  | _ => rfl

theorem withOutside_self (s : State) : withOutside s s = s := rfl

/-- What the fields outside it are after a command: as before. -/
theorem commandBody_outside (i : Instr) (s : State) : withOutside s (commandBody i s).2 = (commandBody i s).2 := by
  have h := commandBody_withOutside s i s
  rw [withOutside_self] at h
  exact (congrArg Prod.snd h).symm

/-! ## The bus -/

theorem walkPositions_replay (ld n : Nat) (p : PassState) : ∃ es, (walkPositions ld n p).2.bus = busReplay es p.bus := by
  induction n generalizing p with
  | zero => exact ⟨[], rfl⟩
  | succ n ih =>
    rw [walkPositions_succ]
    dsimp only
    have hb : (busReadSlot (busReadSlot p.bus).2).2 =
        busReplay [.read (busReadSlot p.bus).1, .read (busReadSlot (busReadSlot p.bus).2).1] p.bus := rfl
    split
    · exact ⟨_, hb⟩
    · obtain ⟨dir, -, hd, -⟩ := positionStep_spec ld (64 - n) (busReadSlot p.bus).1 (busReadSlot (busReadSlot p.bus).2).1
        { p with bus := (busReadSlot (busReadSlot p.bus).2).2 }
      obtain ⟨es, he⟩ := ih (positionStep ld (64 - n) (busReadSlot p.bus).1 (busReadSlot (busReadSlot p.bus).2).1
        { p with bus := (busReadSlot (busReadSlot p.bus).2).2 })
      exact ⟨_, by rw [he, hd, hb, ← busReplay_append, ← busReplay_append]⟩

theorem searchNext_replay (cfg : Config) (ss : SearchState) (rom : Address) (b : Bus) :
    ∃ es, (searchNext cfg ss rom b).bus = busReplay es b := by
  unfold searchNext
  split
  · exact ⟨[], rfl⟩
  · unfold searchPass
    dsimp only
    split
    · rw [closePass_bus]
      obtain ⟨es, h⟩ := walkPositions_replay ss.ld Config.addrBits
        { lastZero := 0, crc := 0x00#8, lfd := ss.lfd, rom := rom
          bus := busWriteByte cfg.cmds.searchRom (busReset b).2 }
      exact ⟨_, by rw [h, busWriteByte_replay, busReset_replay, ← busReplay_append, ← busReplay_append]⟩
    · exact ⟨_, busReset_replay b⟩

/-- The codes of a search call (R177, R178): which of them goes with FOUND, and that no other code occurs. -/
theorem searchNext_code (cfg : Config) (ss : SearchState) (rom : Address) (b : Bus) :
    (searchNext cfg ss rom b).code ∈ [ErrCode.eNone, .eBusResetTimeout, .eSearchNoResponse, .eBusIdleDuringSearch,
      .eChecksumMismatch, .eZeroAddress] ∧
    (ss.ldf = false → ((searchNext cfg ss rom b).found = true ↔ (searchNext cfg ss rom b).code = .eNone)) := by
  unfold searchNext
  split
  · next h => simp [h]
  · unfold searchPass
    dsimp only
    split
    · generalize walkPositions _ _ _ = w
      obtain ⟨_ | pos, p⟩ := w
      · simp only [closePass]
        split
        · simp [searchFailed]
        · split <;> simp [searchFailed]
      · by_cases h : pos = 1 <;> simp [closePass, searchFailed, h]
    · simp [searchFailed]

theorem enumLoop_code (cfg : Config) (k : Nat) (a : EnumState) :
    (enumLoop cfg k a).1 ∈ [ErrCode.eNone, .eBusResetTimeout, .eSearchNoResponse, .eBusIdleDuringSearch,
      .eChecksumMismatch, .eZeroAddress] := by
  induction k generalizing a with
  | zero => simp [enumLoop]
  | succ k ih =>
    rw [enumLoop]
    dsimp only
    split
    · exact ih _
    · exact (searchNext_code cfg a.ss a.rom a.bus).1

/-- What every command does to the bus: its events, replayed. -/
theorem commandBody_bus (i : Instr) (s : State) : ∃ es, (commandBody i s).2.bus = busReplay es s.bus := by
  cases i with
  | owreset => exact ⟨_, busReset_replay s.bus⟩
  | owwbit bit => exact ⟨_, busWriteSlot_replay bit s.bus⟩
  | owrbit => exact ⟨_, busReadSlot_replay s.bus⟩
  | owwbyte v => exact ⟨_, busWriteByte_replay v s.bus⟩
  | owrbyte => exact ⟨_, busReadByte_replay s.bus⟩
  | crc8 v => exact ⟨[], rfl⟩
  | srchinit => exact ⟨[], rfl⟩
  | srchnext => exact searchNext_replay s.cfg s.ss s.rom s.bus
  | enum => obtain ⟨es, h, -⟩ := (enumBody_spec s).2.2.2.2.2.2; exact ⟨es, h⟩
  | memrd idx => obtain ⟨es, h, -⟩ := (memrdBody_spec idx s).2.1; exact ⟨es, h⟩
  | decode => exact ⟨[], by simp only [commandBody]; rw [(decodeBody_spec s).1]; rfl⟩
  | identify => obtain ⟨es, h, -⟩ := (identifyBody_spec s).2.1; exact ⟨es, h⟩

/-- No command writes a parameter (R294). -/
theorem commandBody_cfg (i : Instr) (s : State) : (commandBody i s).2.cfg = s.cfg := by
  cases i with
  | enum => simp only [commandBody]; rw [(enumBody_spec s).1]
  | memrd idx => simp only [commandBody]; rw [(memrdBody_spec idx s).1]
  | decode => simp only [commandBody]; rw [(decodeBody_spec s).1]
  | identify => simp only [commandBody]; rw [(identifyBody_spec s).1]
  | _ => rfl

/-- No command finishes with `E_NOT_PROCESSED` (R260, I13). -/
theorem commandBody_code_processed (i : Instr) (s : State) : (commandBody i s).1 ≠ .eNotProcessed := by
  cases i with
  | owreset => simp only [commandBody]; split <;> simp
  | srchnext =>
    have h := (searchNext_code s.cfg s.ss s.rom s.bus).1
    intro e
    simp only [commandBody] at e
    rw [e] at h
    simp at h
  | enum =>
    have h := enumLoop_code s.cfg 5
      { n := 0, table := Vector.replicate 5 0#64, ss := SearchState.init, rom := s.rom, bus := s.bus }
    intro e
    have e' : (enumLoop s.cfg 5
      { n := 0, table := Vector.replicate 5 0#64, ss := SearchState.init, rom := s.rom, bus := s.bus }).1 =
        .eNotProcessed := e
    rw [e'] at h
    simp at h
  | memrd idx =>
    have h := (memrdBody_spec idx s).2.2.2.2
    intro e
    simp only [commandBody] at e
    rw [e] at h
    simp at h
  | decode =>
    intro e
    simp only [commandBody] at e
    rcases (decodeBody_spec s).2 with ⟨h, -⟩ | ⟨h | h, -⟩ <;> simp [e] at h
  | identify =>
    intro e
    simp only [commandBody] at e
    rcases (identifyBody_spec s).2.2.1 with ⟨h, -⟩ | ⟨h | h, -⟩ <;> simp [e] at h
  | _ => simp [commandBody]

end Sys2Proof.Machine
end

