-- ==== Sys2Proof/Laws/Devices.lean ====
section
/-! SUPPORT. What the ideal devices of 20_memory.md R97 do: how events move a device, what a read pass addressed to one of them
reads. -/

namespace Sys2Proof.Machine

/-! ## Devices under events -/

/-- A device after these events, oldest first. -/
def deviceRun (cmds : RomCommands) (es : List BusEvent) (d : Device) : Device :=
  es.foldl (fun d e => deviceAfter cmds e d) d

@[simp] theorem deviceRun_nil (cmds : RomCommands) (d : Device) : deviceRun cmds [] d = d := rfl
@[simp] theorem deviceRun_cons (cmds : RomCommands) (e : BusEvent) (es : List BusEvent) (d : Device) :
    deviceRun cmds (e :: es) d = deviceRun cmds es (deviceAfter cmds e d) := rfl
theorem deviceRun_append (cmds : RomCommands) (es fs : List BusEvent) (d : Device) :
    deviceRun cmds (es ++ fs) d = deviceRun cmds fs (deviceRun cmds es d) := by
  simp [deviceRun, List.foldl_append]

@[simp] theorem deviceAfter_addr (cmds : RomCommands) (e : BusEvent) (d : Device) : (deviceAfter cmds e d).addr = d.addr := rfl
@[simp] theorem deviceAfter_mem (cmds : RomCommands) (e : BusEvent) (d : Device) : (deviceAfter cmds e d).mem = d.mem := rfl
@[simp] theorem deviceAfter_phase (cmds : RomCommands) (e : BusEvent) (d : Device) :
    (deviceAfter cmds e d).phase = phaseAfter cmds d e := rfl

@[simp] theorem deviceRun_addr (cmds : RomCommands) (es : List BusEvent) (d : Device) : (deviceRun cmds es d).addr = d.addr := by
  induction es generalizing d with
  | nil => rfl
  | cons e es ih => simp [ih]

@[simp] theorem deviceRun_mem (cmds : RomCommands) (es : List BusEvent) (d : Device) : (deviceRun cmds es d).mem = d.mem := by
  induction es generalizing d with
  | nil => rfl
  | cons e es ih => simp [ih]

/-- The devices of a bus after events: each moved by them (R97). -/
theorem busReplay_devices {b : Bus} {cmds : RomCommands} {ds : List Device} (es : List BusEvent)
    (h : b.line = .devices cmds ds) : (busReplay es b).line = .devices cmds (ds.map (deviceRun cmds es)) := by
  induction es generalizing b ds with
  | nil =>
    have : deviceRun cmds [] = id := rfl
    simpa [this] using h
  | cons e es ih =>
    have h1 : (busRecord e (releaseDq (driveLow b))).line = .devices cmds (ds.map (deviceAfter cmds e)) := by
      simp [h, lineAfter]
    rw [busReplay_cons, ih h1, List.map_map]
    rfl

/-- A device off the bus stays so until a reset (R97). -/
theorem deviceRun_inactive {cmds : RomCommands} {es : List BusEvent} {d : Device} (h : d.phase = .inactive)
    (hr : ∀ p, BusEvent.reset p ∉ es) : (deviceRun cmds es d).phase = .inactive := by
  induction es generalizing d with
  | nil => exact h
  | cons e es ih =>
    refine ih ?_ (fun p hp => hr p (List.mem_cons_of_mem _ hp))
    cases e with
    | reset p => exact absurd List.mem_cons_self (hr p)
    | write v => simp [phaseAfter, h]
    | read v => simp [phaseAfter, h]

theorem writes_no_reset (xs : List Bool) : ∀ p, BusEvent.reset p ∉ xs.map BusEvent.write := by simp
theorem reads_no_reset (xs : List Bool) : ∀ p, BusEvent.reset p ∉ xs.map BusEvent.read := by simp

theorem byteBits_eq (v : Byte) : byteBits v = [v.getLsbD 0, v.getLsbD 1, v.getLsbD 2, v.getLsbD 3, v.getLsbD 4, v.getLsbD 5,
    v.getLsbD 6, v.getLsbD 7] := rfl

/-- The ROM command byte, after a reset (R97). -/
theorem deviceRun_romByte {cmds : RomCommands} (v : Byte) {d : Device} (h : d.phase = .awaitRom []) :
    (deviceRun cmds ((byteBits v).map .write) d).phase =
      if v = cmds.searchRom then .searching 1 0 else if v = cmds.matchRom then .matching 0 else .inactive := by
  have e := byteOfBits_byteBits v
  rw [byteBits_eq] at e
  simp [byteBits_eq, phaseAfter, phaseAfterRom, h, -BitVec.getLsbD_eq_getElem, e]

/-- The memory command byte, at a selected device (R97). -/
theorem deviceRun_memByte {cmds : RomCommands} (v : Byte) {d : Device} (h : d.phase = .awaitMem []) :
    (deviceRun cmds ((byteBits v).map .write) d).phase = if v = cmds.readMem then .awaitOffset [] else .inactive := by
  have e := byteOfBits_byteBits v
  rw [byteBits_eq] at e
  simp [byteBits_eq, phaseAfter, phaseAfterMem, h, -BitVec.getLsbD_eq_getElem, e]

/-- The starting offset 0 (R97). -/
theorem deviceRun_offsetZero {cmds : RomCommands} {d : Device} (h : d.phase = .awaitOffset []) :
    (deviceRun cmds ((([0x00#8, 0x00#8] : List Byte).flatMap byteBits).map .write) d).phase = .sending 0 := by
  simp [byteBits_eq, phaseAfter, phaseAfterOffset, h, natOfBits]

/-- The rest of the match-address bits at a device that has matched `n` (R97): selected iff they are its own. -/
theorem deviceRun_match {cmds : RomCommands} {xs : List Bool} {n : Nat} {d : Device} (h : d.phase = .matching n)
    (hn : n < 64) (hl : n + xs.length = 64) :
    (deviceRun cmds (xs.map .write) d).phase =
      if ∀ i, i < xs.length → xs.getD i false = d.addr.getLsbD (n + i) then .awaitMem [] else .inactive := by
  induction xs generalizing n d with
  | nil => simp at hl; omega
  | cons x xs ih =>
    rw [List.map_cons, deviceRun_cons]
    by_cases hx : d.addr.getLsbD n = x
    · by_cases hlast : n + 1 < 64
      · have hp : (deviceAfter cmds (.write x) d).phase = .matching (n + 1) := by
          simp [phaseAfter, h, hx, hlast]
        rw [ih hp hlast (by simp at hl; omega)]
        congr 1
        rw [eq_iff_iff]
        constructor
        · intro g i hi
          cases i with
          | zero => simp [hx]
          | succ i =>
            have := g i (by simpa using hi)
            simp only [deviceAfter_addr] at this
            rw [List.getD_cons_succ, this]
            congr 1
            omega
        · intro g i hi
          have := g (i + 1) (by simpa using hi)
          rw [List.getD_cons_succ] at this
          rw [this, deviceAfter_addr]
          congr 1
          omega
      · have : xs = [] := List.length_eq_zero_iff.1 (by simp at hl; omega)
        subst this
        simp [phaseAfter, h, hx, hlast]
    · rw [deviceRun_inactive (by simp [phaseAfter, h, hx]) (writes_no_reset xs), if_neg]
      intro g
      have := g 0 (by simp)
      simp at this
      exact hx this.symm

theorem addrBytes_bits (a : Address) : (addrBytes a).flatMap byteBits = (List.range 64).map (fun i => a.getLsbD i) := by
  simp [addrBytes, byteBits, addrByte, List.range_succ]

/-- Every device after a reset and the bytes of a read pass for the address `a` (R97, R201): the one with that address sends its
memory from its first bit, the others are off the bus. -/
theorem deviceRun_readPassHeader {cmds : RomCommands} (hm : cmds.matchRom ≠ cmds.searchRom) (a : Address) (d : Device)
    (p : Bool) :
    (deviceRun cmds (.reset p :: ((readPassHeader cmds a).flatMap byteBits).map .write) d).phase =
      if d.addr = a then .sending 0 else .inactive := by
  have e : ((readPassHeader cmds a).flatMap byteBits).map BusEvent.write =
      (byteBits cmds.matchRom).map .write ++ (((List.range 64).map (fun i => a.getLsbD i)).map .write ++
        ((byteBits cmds.readMem).map .write ++ (([0x00#8, 0x00#8] : List Byte).flatMap byteBits).map .write)) := by
    rw [← addrBytes_bits]
    simp [readPassHeader]
  rw [deviceRun_cons, e, deviceRun_append, deviceRun_append, deviceRun_append]
  have h0 : (deviceAfter cmds (.reset p) d).phase = .awaitRom [] := rfl
  have h1 := deviceRun_romByte (cmds := cmds) cmds.matchRom h0
  rw [if_neg hm, if_pos rfl] at h1
  have h2 := deviceRun_match (cmds := cmds) (xs := (List.range 64).map (fun i => a.getLsbD i)) h1 (by omega) (by simp)
  by_cases ha : d.addr = a
  · rw [if_pos] at h2
    · have h3 := deviceRun_memByte (cmds := cmds) cmds.readMem h2
      rw [if_pos rfl] at h3
      rw [if_pos ha, deviceRun_offsetZero h3]
    · intro i hi
      simp at hi
      simp [hi, ha]
  · rw [if_neg] at h2
    · rw [if_neg ha, deviceRun_inactive _ (writes_no_reset _)]
      exact deviceRun_inactive h2 (writes_no_reset _)
    · intro g
      refine ha (BitVec.eq_of_getLsbD_eq fun i hi => ?_)
      have := g i (by simpa using hi)
      simpa [hi] using this.symm

/-! ## Reading one device's memory -/

/-- Every device is off the bus, but for at least one that sends the memory `m` from bit `n`. -/
def OnlySending (m : List Byte) (n : Nat) (ds : List Device) : Prop :=
  (∀ d ∈ ds, d.phase = .inactive ∨ (d.phase = .sending n ∧ d.mem = m)) ∧ ∃ d ∈ ds, d.phase = .sending n ∧ d.mem = m

/-- What a read slot gives then, and that the next bit is next (R97). -/
theorem busReadSlot_sending {b : Bus} {cmds : RomCommands} {ds : List Device} {m : List Byte} {n : Nat}
    (h : b.line = .devices cmds ds) (hs : OnlySending m n ds) :
    (busReadSlot b).1 = memBit m n ∧
      ∃ ds', (busReadSlot b).2.line = .devices cmds ds' ∧ OnlySending m (n + 1) ds' := by
  obtain ⟨h1, d0, h2, h3, h4⟩ := hs
  constructor
  · show readLevel (releaseDq (driveLow b)) = _
    simp only [readLevel, releaseDq_line, driveLow_line, h]
    rw [Bool.eq_iff_iff, List.all_eq_true]
    constructor
    · intro g
      have := g d0 h2
      simpa [deviceLevel, h3, h4] using this
    · intro g d hd
      rcases h1 d hd with e | ⟨e, e'⟩
      · simp [deviceLevel, e]
      · simpa [deviceLevel, e, e'] using g
  · refine ⟨ds.map (deviceAfter cmds (.read (busReadSlot b).1)), ?_, ?_, ?_⟩
    · rw [busReadSlot_replay]; simp [h, lineAfter]
    · intro d hd
      obtain ⟨x, hx, rfl⟩ := List.mem_map.1 hd
      rcases h1 x hx with e | ⟨e, e'⟩
      · exact .inl (by simp [phaseAfter, e])
      · exact .inr ⟨by simp [phaseAfter, e], e'⟩
    · exact ⟨_, List.mem_map_of_mem h2, by simp [phaseAfter, h3], h4⟩

/-- What `k` read slots give then. -/
theorem busReadBits_sending {b : Bus} {cmds : RomCommands} {ds : List Device} {m : List Byte} {n : Nat} (k : Nat)
    (h : b.line = .devices cmds ds) (hs : OnlySending m n ds) :
    (busReadBits k b).1 = (List.range k).map (fun i => memBit m (n + i)) := by
  induction k generalizing b ds n with
  | zero => rfl
  | succ k ih =>
    obtain ⟨h1, ds', h2, h3⟩ := busReadSlot_sending h hs
    simp only [busReadBits, h1, ih h2 h3, List.range_succ_eq_map, List.map_cons, List.map_map, Nat.add_zero]
    congr 1
    refine List.map_congr_left fun i _ => ?_
    simp only [Function.comp]
    congr 1
    omega

/-- The bits of the first `k` bytes of a memory. -/
theorem memBits_bytes (m : List Byte) (k : Nat) :
    (List.range (8 * k)).map (memBit m) = ((List.range k).map (fun j => m[j]?.getD 0xFF#8)).flatMap byteBits := by
  induction k with
  | zero => rfl
  | succ k ih =>
    rw [List.range_succ, List.map_append, List.flatMap_append, ← ih, show 8 * (k + 1) = 8 * k + 8 by omega,
      List.range_add, List.map_append, List.map_map]
    congr 1
    simp only [List.map_cons, List.map_nil, List.flatMap_cons, List.flatMap_nil, List.append_nil, byteBits]
    refine List.map_congr_left fun i hi => ?_
    have : i < 8 := by simpa using hi
    simp only [Function.comp, memBit, List.getD_eq_getElem?_getD]
    rw [show (8 * k + i) / 8 = k by omega, show (8 * k + i) % 8 = i by omega]

/-- A record read then is the first 32 bytes of that memory (R88, R97). -/
theorem busReadRecord_sending {b : Bus} {cmds : RomCommands} {ds : List Device} {m : List Byte}
    (h : b.line = .devices cmds ds) (hs : OnlySending m 0 ds) :
    ∀ j (hj : j < 32), (busReadRecord b).1[j] = m[j]?.getD 0xFF#8 := by
  have hb := busReadBytes_bits 32 b
  have hl : (busReadRecord b).1.toList = (List.range 32).map (fun j => m[j]?.getD 0xFF#8) := by
    refine flatMap_byteBits_inj ?_
    rw [busReadRecord_toList, hb.1, busReadBits_sending _ h hs, ← memBits_bytes]
    simp
  have key : ∀ r : Record, r.toList = (List.range 32).map (fun j => m[j]?.getD 0xFF#8) →
      ∀ j (hj : j < 32), r[j] = m[j]?.getD 0xFF#8 := by
    intro r hr j hj
    have h2 : r.toList[j]? = some (m[j]?.getD 0xFF#8) := by simp [hr, hj]
    rw [Vector.getElem?_toList, Vector.getElem?_eq_getElem hj] at h2
    exact Option.some.inj h2
  exact key _ hl

/-- The first 32 bytes of a device's memory, where a byte past its end reads 0xFF. -/
def deviceRecord (d : Device) : Record := Vector.ofFn (fun j : Fin 32 => d.mem[(j : Nat)]?.getD 0xFF#8)

/-- A read pass addressed to one of the ideal devices reads that device's record (R97, R201), whatever the devices' phases. -/
theorem readPass_devices {b : Bus} {ds : List Device} {cmds : RomCommands} {d : Device}
    (h : b.line = .devices cmds ds) (hm : cmds.matchRom ≠ cmds.searchRom) (hn : (ds.map (·.addr)).Nodup) (hd : d ∈ ds) :
    readPass cmds d.addr b = (some (deviceRecord d), busReplay (readPassEvents cmds d.addr (deviceRecord d)) b) := by
  have hne : ds.isEmpty = false := by cases ds with
    | nil => simp at hd
    | cons _ _ => rfl
  have hp := busReset_devices h
  rw [hne, Bool.not_false] at hp
  have hline : (busWriteBytes (readPassHeader cmds d.addr) (busReset b).2).line =
      .devices cmds (ds.map (deviceRun cmds (.reset true :: ((readPassHeader cmds d.addr).flatMap byteBits).map .write))) := by
    rw [busWriteBytes_replay, busReset_replay, hp, ← busReplay_append]
    exact busReplay_devices _ h
  have hs : OnlySending d.mem 0
      (ds.map (deviceRun cmds (.reset true :: ((readPassHeader cmds d.addr).flatMap byteBits).map .write))) := by
    refine ⟨fun x hx => ?_, _, List.mem_map_of_mem hd, ?_, ?_⟩
    · obtain ⟨y, hy, rfl⟩ := List.mem_map.1 hx
      rw [deviceRun_readPassHeader hm, deviceRun_mem]
      by_cases e : y.addr = d.addr
      · exact .inr ⟨if_pos e, congrArg _ (List.inj_on_of_nodup_map hn hy hd e)⟩
      · exact .inl (if_neg e)
    · rw [deviceRun_readPassHeader hm, if_pos rfl]
    · rw [deviceRun_mem]
  have hr : (readPass cmds d.addr b).1 = some (deviceRecord d) := by
    unfold readPass
    simp only [hp, if_true]
    refine congrArg some (Vector.ext fun j hj => ?_)
    rw [busReadRecord_sending hline hs j hj]
    simp [deviceRecord]
  rcases readPass_spec cmds d.addr b with g | ⟨r, g⟩
  · rw [g] at hr; simp at hr
  · rw [g] at hr; simp only [Option.some.injEq] at hr; rw [g, hr]

end Sys2Proof.Machine
end

