-- ==== Sys2Proof/Laws/DeviceSearch.lean ====
section
/-! SUPPORT. What a search pass and an enumeration find among the ideal devices of 20_memory.md R97: the walk follows the devices
still taking part, a pass finds the next address in the order of the search key (42_rom_search.md R181, R185). -/

namespace Sys2Proof.Machine

/-! ## The order of the search key -/

/-- The first `i` bits are the same. -/
def Agree (a b : Address) (i : Nat) : Prop := ∀ j, j < i → a.getLsbD j = b.getLsbD j

theorem Agree.symm {a b : Address} {i : Nat} (h : Agree a b i) : Agree b a i := fun j hj => (h j hj).symm

theorem Agree.trans {a b c : Address} {i : Nat} (h : Agree a b i) (g : Agree b c i) : Agree a c i :=
  fun j hj => (h j hj).trans (g j hj)

theorem Agree.mono {a b : Address} {i k : Nat} (h : Agree a b i) (hk : k ≤ i) : Agree a b k :=
  fun j hj => h j (by omega)

theorem agree_succ {a b : Address} {i : Nat} : Agree a b (i + 1) ↔ Agree a b i ∧ a.getLsbD i = b.getLsbD i := by
  constructor
  · exact fun h => ⟨h.mono (by omega), h i (by omega)⟩
  · rintro ⟨h, g⟩ j hj
    by_cases e : j = i
    · rw [e, g]
    · exact h j (by omega)

theorem eq_of_agree {a b : Address} (h : Agree a b 64) : a = b := BitVec.eq_of_getLsbD_eq fun i hi => h i hi

/-- Two addresses that differ have a first bit at which they do. -/
theorem exists_first_difference {a b : Address} {m : Nat} (h : ¬ Agree a b m) :
    ∃ i, i < m ∧ Agree a b i ∧ a.getLsbD i ≠ b.getLsbD i := by
  induction m with
  | zero => exact absurd (fun j hj => absurd hj (by omega)) h
  | succ m ih =>
    by_cases g : Agree a b m
    · exact ⟨m, by omega, g, fun e => h (agree_succ.2 ⟨g, e⟩)⟩
    · obtain ⟨i, h1, h2⟩ := ih g
      exact ⟨i, by omega, h2⟩

/-- A smaller bit at the first difference gives a smaller search key (R181). -/
theorem searchKey_lt {a b : Address} {i : Nat} (hi : i < 64) (h : Agree a b i) (ha : a.getLsbD i = false)
    (hb : b.getLsbD i = true) : searchKey a < searchKey b := by
  have key : ∀ (x : Address) (k : Nat), k < 64 → (searchKey x).testBit k = x.getLsbD (63 - k) := by
    intro x k hk
    unfold searchKey
    rw [BitVec.testBit_toNat, BitVec.getLsbD_reverse, BitVec.getMsbD_eq_getLsbD]
    simp [hk]
  refine Nat.lt_of_testBit (63 - i) ?_ ?_ ?_
  · rw [key _ _ (by omega), show 63 - (63 - i) = i by omega, ha]
  · rw [key _ _ (by omega), show 63 - (63 - i) = i by omega, hb]
  · intro j hj
    by_cases hj2 : j < 64
    · rw [key _ _ hj2, key _ _ hj2]
      exact h _ (by omega)
    · unfold searchKey
      rw [BitVec.testBit_toNat, BitVec.testBit_toNat, BitVec.getLsbD_of_ge _ _ (by omega),
        BitVec.getLsbD_of_ge _ _ (by omega)]

/-- A smaller search key comes from a smaller bit at the first difference (R181). -/
theorem exists_of_searchKey_lt {a b : Address} (h : searchKey a < searchKey b) :
    ∃ i, i < 64 ∧ Agree a b i ∧ a.getLsbD i = false ∧ b.getLsbD i = true := by
  have hne : ¬ Agree a b 64 := fun g => by rw [eq_of_agree g] at h; omega
  obtain ⟨i, h1, h2, h3⟩ := exists_first_difference hne
  cases ha : a.getLsbD i
  · cases hb : b.getLsbD i
    · exact absurd (ha.trans hb.symm) h3
    · exact ⟨i, h1, h2, ha, hb⟩
  · cases hb : b.getLsbD i
    · have := searchKey_lt h1 h2.symm hb ha
      omega
    · exact absurd (ha.trans hb.symm) h3

/-! ## Forks -/

/-- At bit `i` the address `x` has a 0, and one of the addresses that share its earlier bits has a 1. -/
def Fork (as : List Address) (x : Address) (i : Nat) : Prop :=
  x.getLsbD i = false ∧ ∃ b ∈ as, Agree b x i ∧ b.getLsbD i = true

/-- `z` is the position (bit + 1) of the last fork below bit `m`, or 0. -/
def IsLastFork (as : List Address) (x : Address) (m z : Nat) : Prop :=
  (∀ i, i < m → z ≤ i → ¬ Fork as x i) ∧ (z = 0 ∨ ∃ i, z = i + 1 ∧ i < m ∧ Fork as x i)

theorem fork_congr {as : List Address} {x y : Address} {i : Nat} (h : Agree x y (i + 1)) : Fork as x i ↔ Fork as y i := by
  have h1 := agree_succ.1 h
  unfold Fork
  rw [h1.2]
  constructor
  · rintro ⟨h2, b, h3, h4, h5⟩
    exact ⟨h2, b, h3, h4.trans h1.1, h5⟩
  · rintro ⟨h2, b, h3, h4, h5⟩
    exact ⟨h2, b, h3, h4.trans h1.1.symm, h5⟩

/-! ## The walk among devices -/

/-- The devices of a pass before bit `i`: those that agree with the buffer so far take part, the others are off the bus. -/
structure Taking (cmds : RomCommands) (as : List Address) (i : Nat) (rom : Address) (b : Bus) (ds : List Device) : Prop where
  line : b.line = .devices cmds ds
  addrs : ds.map (·.addr) = as
  phase : i < 64 → ∀ d ∈ ds, (Agree d.addr rom i → d.phase = .searching (i + 1) 0) ∧
    (¬ Agree d.addr rom i → d.phase = .inactive)

/-- The pass so far, before bit `i`: from the buffer `old` and `SS.LD` = `ld` at its start. -/
structure Walked (cmds : RomCommands) (as : List Address) (ld : Nat) (old : Address) (i : Nat) (p : PassState) : Prop where
  taking : ∃ ds, Taking cmds as i p.rom p.bus ds
  active : ∃ a ∈ as, Agree a p.rom i
  last : IsLastFork as p.rom i p.lastZero
  ones : ∀ j, j < i → ld ≤ j → p.rom.getLsbD j = true → ∀ b ∈ as, Agree b p.rom j → b.getLsbD j = true
  before : ∀ j, j < i → j + 1 < ld → p.rom.getLsbD j = old.getLsbD j
  atLd : ∀ j, j < i → ld = j + 1 → p.rom.getLsbD j = true
  rest : ∀ j, j < 64 → i ≤ j → p.rom.getLsbD j = old.getLsbD j

theorem mem_addrs {as : List Address} {ds : List Device} (h : ds.map (·.addr) = as) {a : Address} :
    a ∈ as ↔ ∃ d ∈ ds, d.addr = a := by rw [← h, List.mem_map]

/-- The two reads at bit `i`, and the devices after them and after a write slot. -/
theorem taking_reads {cmds : RomCommands} {as : List Address} {i : Nat} {rom : Address} {b : Bus} {ds : List Device}
    (h : Taking cmds as i rom b ds) (hi : i < 64) :
    ((busReadSlot b).1 = true ↔ ∀ a ∈ as, Agree a rom i → a.getLsbD i = true) ∧
    ((busReadSlot (busReadSlot b).2).1 = true ↔ ∀ a ∈ as, Agree a rom i → a.getLsbD i = false) ∧
    ∀ (dir : Bool) (rom' : Address), (∀ j, j < i → rom'.getLsbD j = rom.getLsbD j) → rom'.getLsbD i = dir →
      ∃ ds', Taking cmds as (i + 1) rom' (busWriteSlot dir (busReadSlot (busReadSlot b).2).2) ds' := by
  have hph := h.phase hi
  have e1 : (busReadSlot b).2.line = .devices cmds (ds.map (deviceAfter cmds (.read (busReadSlot b).1))) := by
    rw [busReadSlot_replay]; simp [h.line, lineAfter]
  have r1 : (busReadSlot b).1 = ds.all deviceLevel := by
    show readLevel (releaseDq (driveLow b)) = _
    simp [readLevel, h.line]
  have r2 : (busReadSlot (busReadSlot b).2).1 =
      (ds.map (deviceAfter cmds (.read (busReadSlot b).1))).all deviceLevel := by
    show readLevel (releaseDq (driveLow (busReadSlot b).2)) = _
    simp [readLevel, e1]
  refine ⟨?_, ?_, ?_⟩
  · rw [r1, List.all_eq_true]
    constructor
    · intro g a ha hag
      obtain ⟨d, hd, rfl⟩ := (mem_addrs h.addrs).1 ha
      have := g d hd
      rw [deviceLevel, (hph d hd).1 hag] at this
      simpa [addrBit] using this
    · intro g d hd
      by_cases hag : Agree d.addr rom i
      · have := g d.addr ((mem_addrs h.addrs).2 ⟨d, hd, rfl⟩) hag
        rw [deviceLevel, (hph d hd).1 hag]
        simpa [addrBit] using this
      · rw [deviceLevel, (hph d hd).2 hag]
  · rw [r2, List.all_eq_true]
    constructor
    · intro g a ha hag
      obtain ⟨d, hd, rfl⟩ := (mem_addrs h.addrs).1 ha
      have := g _ (List.mem_map_of_mem hd)
      have hp : (deviceAfter cmds (.read (busReadSlot b).1) d).phase = .searching (i + 1) 1 := by
        simp [phaseAfter, (hph d hd).1 hag]
      rw [deviceLevel, hp] at this
      simpa [addrBit] using this
    · intro g x hx
      obtain ⟨d, hd, rfl⟩ := List.mem_map.1 hx
      by_cases hag : Agree d.addr rom i
      · have := g d.addr ((mem_addrs h.addrs).2 ⟨d, hd, rfl⟩) hag
        have hp : (deviceAfter cmds (.read (busReadSlot b).1) d).phase = .searching (i + 1) 1 := by
          simp [phaseAfter, (hph d hd).1 hag]
        rw [deviceLevel, hp]
        simpa [addrBit] using this
      · have hp : (deviceAfter cmds (.read (busReadSlot b).1) d).phase = .inactive := by
          simp [phaseAfter, (hph d hd).2 hag]
        rw [deviceLevel, hp]
  · intro dir rom' hlow hbit
    have e2 : (busWriteSlot dir (busReadSlot (busReadSlot b).2).2).line = .devices cmds (ds.map (deviceRun cmds
        [.read (busReadSlot b).1, .read (busReadSlot (busReadSlot b).2).1, .write dir])) := by
      have := busReplay_devices
        [.read (busReadSlot b).1, .read (busReadSlot (busReadSlot b).2).1, .write dir] h.line
      rw [← this]
      rfl
    refine ⟨_, e2, ?_, ?_⟩
    · rw [List.map_map, ← h.addrs]
      refine List.map_congr_left fun d _ => ?_
      simp
    · intro hi1 x hx
      obtain ⟨d, hd, rfl⟩ := List.mem_map.1 hx
      rw [deviceRun_addr]
      have hag : Agree d.addr rom' (i + 1) ↔ Agree d.addr rom i ∧ d.addr.getLsbD i = dir := by
        rw [agree_succ, hbit]
        constructor
        · exact fun ⟨g, g'⟩ => ⟨fun j hj => (g j hj).trans (hlow j hj), g'⟩
        · exact fun ⟨g, g'⟩ => ⟨fun j hj => (g j hj).trans (hlow j hj).symm, g'⟩
      rw [hag]
      by_cases hold : Agree d.addr rom i
      · have hp := (hph d hd).1 hold
        constructor
        · rintro ⟨-, hd2⟩
          simp [phaseAfter, hp, addrBit, hd2, Config.addrBits, hi1]
        · intro hn
          have hd2 : ¬ d.addr.getLsbD i = dir := fun g => hn ⟨hold, g⟩
          simp [phaseAfter, hp, addrBit, hd2]
      · have hp := (hph d hd).2 hold
        refine ⟨fun g => absurd g.1 hold, fun _ => ?_⟩
        simp [phaseAfter, hp]

/-- The search state a pass starts from (R170, R174): `ld` = 0, or the position of a fork of the address found before. -/
def StartsAt (as : List Address) (ld : Nat) (old : Address) : Prop :=
  ld = 0 ∨ (old ∈ as ∧ ∃ l, ld = l + 1 ∧ l < 64 ∧ Fork as old l)

/-- How the direction at bit `i` comes about: every device taking part has it, or they differ and `DiscrepancyDirection` chooses
it and marks a 0 (R173, R174). -/
def Chosen (as : List Address) (ld i : Nat) (p : PassState) (dir : Bool) (z : Nat) : Prop :=
  ((∀ a ∈ as, Agree a p.rom i → a.getLsbD i = dir) ∧ z = p.lastZero) ∨
  ((∃ a ∈ as, Agree a p.rom i ∧ a.getLsbD i = false) ∧ (∃ a ∈ as, Agree a p.rom i ∧ a.getLsbD i = true) ∧
    dir = discrepancyDir (i + 1) ld p.rom ∧ z = if dir then p.lastZero else i + 1)

/-- A pass goes on from bit `i` to the next with a direction so chosen. -/
theorem Walked.next {cmds : RomCommands} {as : List Address} {ld i : Nat} {old : Address} {p q : PassState} {dir : Bool}
    (h : Walked cmds as ld old i p) (hs : StartsAt as ld old) (hi : i < 64) (hc : Chosen as ld i p dir q.lastZero)
    (hr : q.rom = setAddrBit p.rom (i + 1) dir) (ht : ∃ ds, Taking cmds as (i + 1) q.rom q.bus ds) :
    Walked cmds as ld old (i + 1) q := by
  have hbit : ∀ j, j < 64 → q.rom.getLsbD j = if j = i then dir else p.rom.getLsbD j := by
    intro j hj
    rw [hr, setAddrBit_getLsbD _ _ _ hj, show i + 1 - 1 = i by omega]
  have hlow : Agree q.rom p.rom i := fun j hj => by rw [hbit j (by omega), if_neg (by omega)]
  have hat : q.rom.getLsbD i = dir := by rw [hbit i hi, if_pos rfl]
  obtain ⟨a0, ha0, hag0⟩ := h.active
  have hold : i < ld → old ∈ as ∧ Agree old p.rom i := by
    intro hlt
    rcases hs with e | ⟨h1, l, e, h2, h3⟩
    · omega
    · exact ⟨h1, fun j hj => (h.before j hj (by omega)).symm⟩
  refine ⟨ht, ?_, ⟨?_, ?_⟩, ?_, ?_, ?_, ?_⟩
  · rcases hc with ⟨h1, -⟩ | ⟨⟨a, h1, h2, h3⟩, ⟨b, h4, h5, h6⟩, -⟩
    · exact ⟨a0, ha0, agree_succ.2 ⟨hag0.trans hlow.symm, by rw [hat, h1 a0 ha0 hag0]⟩⟩
    · cases hd : dir
      · exact ⟨a, h1, agree_succ.2 ⟨h2.trans hlow.symm, by rw [hat, h3, hd]⟩⟩
      · exact ⟨b, h4, agree_succ.2 ⟨h5.trans hlow.symm, by rw [hat, h6, hd]⟩⟩
  · intro j hj hz hf
    by_cases e : j = i
    · subst e
      obtain ⟨hf0, b, hb, hb2, hb3⟩ := hf
      rw [hat] at hf0
      rcases hc with ⟨h1, -⟩ | ⟨-, -, -, h4⟩
      · have := h1 b hb (hb2.trans hlow)
        rw [hb3, hf0] at this
        exact absurd this (by simp)
      · rw [hf0] at h4
        simp at h4
        omega
    · refine h.last.1 j (by omega) ?_ ((fork_congr (hlow.mono (by omega))).1 hf)
      rcases hc with ⟨-, h1⟩ | ⟨-, -, -, h1⟩
      · omega
      · cases dir <;> simp at h1 <;> omega
  · have keep : q.lastZero = p.lastZero → q.lastZero = 0 ∨ ∃ j, q.lastZero = j + 1 ∧ j < i + 1 ∧ Fork as q.rom j := by
      intro e
      rcases h.last.2 with g | ⟨j, g1, g2, g3⟩
      · exact .inl (by omega)
      · exact .inr ⟨j, by omega, by omega, (fork_congr (hlow.mono (by omega))).2 g3⟩
    rcases hc with ⟨-, h1⟩ | ⟨-, ⟨b, h4, h5, h6⟩, -, h1⟩
    · exact keep h1
    · cases hd : dir
      · rw [hd] at h1
        exact .inr ⟨i, h1, by omega, by rw [hat, hd], b, h4, h5.trans hlow.symm, h6⟩
      · rw [hd] at h1
        exact keep h1
  · intro j hj hle h1 b hb hb2
    by_cases e : j = i
    · subst e
      rw [hat] at h1
      rcases hc with ⟨g, -⟩ | ⟨-, -, g, -⟩
      · rw [g b hb (hb2.trans hlow), h1]
      · rw [h1, discrepancyDir, if_neg (by omega)] at g
        simp at g
        omega
    · rw [hlow j (by omega)] at h1
      exact h.ones j (by omega) hle h1 b hb (hb2.trans (hlow.mono (by omega)))
  · intro j hj hlt
    by_cases e : j = i
    · subst e
      obtain ⟨h1, h2⟩ := hold (by omega)
      rw [hat]
      rcases hc with ⟨g, -⟩ | ⟨-, -, g, -⟩
      · exact (g old h1 h2).symm
      · rw [g, discrepancyDir, if_pos hlt, addrBit, show j + 1 - 1 = j by omega]
        exact h.rest j hi (Nat.le_refl _)
    · rw [hlow j (by omega)]
      exact h.before j (by omega) hlt
  · intro j hj he
    by_cases e : j = i
    · subst e
      obtain ⟨h1, h2⟩ := hold (by omega)
      rw [hat]
      rcases hc with ⟨g, -⟩ | ⟨-, -, g, -⟩
      · rcases hs with e | ⟨-, l, e, -, hf, b, hb, hb2, hb3⟩
        · omega
        · have el : l = j := by omega
          subst el
          rw [← g b hb (hb2.trans h2), hb3]
      · rw [g, discrepancyDir, if_neg (by omega)]
        simp [he]
    · rw [hlow j (by omega)]
      exact h.atLd j (by omega) he
  · intro j hj hle
    rw [hbit j hj, if_neg (by omega)]
    exact h.rest j hj (by omega)

/-- Among devices that are there, no pair read is idle, and the pass goes on to the next bit (R173–R175). -/
theorem Walked.step {cmds : RomCommands} {as : List Address} {ld i : Nat} {old : Address} {p : PassState}
    (h : Walked cmds as ld old i p) (hs : StartsAt as ld old) (hi : i < 64) :
    ((busReadSlot p.bus).1 && (busReadSlot (busReadSlot p.bus).2).1) = false ∧
    Walked cmds as ld old (i + 1) (positionStep ld (i + 1) (busReadSlot p.bus).1 (busReadSlot (busReadSlot p.bus).2).1
      { p with bus := (busReadSlot (busReadSlot p.bus).2).2 }) := by
  obtain ⟨ds, ht⟩ := h.taking
  obtain ⟨h1, h2, h3⟩ := taking_reads ht hi
  obtain ⟨a0, ha0, hag0⟩ := h.active
  have next : ∀ (dir : Bool) (z : Nat) (q : PassState), Chosen as ld i p dir z → q.lastZero = z →
      q.rom = setAddrBit p.rom (i + 1) dir →
      q.bus = busWriteSlot dir (busReadSlot (busReadSlot p.bus).2).2 → Walked cmds as ld old (i + 1) q := by
    intro dir z q hc hz hr hb
    subst hz
    refine h.next hs hi hc hr ?_
    rw [hb]
    refine h3 dir q.rom (fun j hj => ?_) ?_
    · rw [hr, setAddrBit_getLsbD _ _ _ (by omega), if_neg (by omega)]
    · rw [hr, setAddrBit_getLsbD _ _ _ hi, if_pos (by omega)]
  cases hr1 : (busReadSlot p.bus).1
  · refine ⟨rfl, ?_⟩
    rw [hr1] at h1
    cases hr2 : (busReadSlot (busReadSlot p.bus).2).1
    · rw [hr2] at h2
      simp only [Bool.false_eq_true, false_iff, not_forall] at h1 h2
      obtain ⟨a, ha, hag, hav⟩ := h1
      obtain ⟨b, hb, hbg, hbv⟩ := h2
      refine next (discrepancyDir (i + 1) ld p.rom) _ _
        (.inr ⟨⟨a, ha, hag, by simpa using hav⟩, ⟨b, hb, hbg, by simpa using hbv⟩, rfl, rfl⟩) ?_ ?_ ?_
      · simp only [positionStep, bne_self_eq_false, Bool.false_eq_true, if_false, takeDirection_lastZero]
        generalize discrepancyDir (i + 1) ld p.rom = dir
        cases dir <;> rfl
      · simp [positionStep]
      · simp [positionStep]
    · rw [hr2] at h2
      exact next false _ _ (.inl ⟨h2.1 rfl, rfl⟩) rfl rfl rfl
  · have g1 := h1.1 hr1
    cases hr2 : (busReadSlot (busReadSlot p.bus).2).1
    · exact ⟨rfl, next true _ _ (.inl ⟨g1, rfl⟩) rfl rfl rfl⟩
    · have := h2.1 hr2 a0 ha0 hag0
      rw [g1 a0 ha0 hag0] at this
      exact absurd this (by simp)

/-- The whole walk from bit 64 - n. -/
theorem Walked.walk {cmds : RomCommands} {as : List Address} {ld : Nat} {old : Address} (hs : StartsAt as ld old) (n : Nat)
    (hn : n ≤ 64) {p : PassState} (h : Walked cmds as ld old (64 - n) p) :
    (walkPositions ld n p).1 = none ∧ Walked cmds as ld old 64 (walkPositions ld n p).2 := by
  induction n generalizing p with
  | zero => exact ⟨rfl, h⟩
  | succ n ih =>
    obtain ⟨h1, h2⟩ := h.step hs (by omega)
    rw [show 64 - (n + 1) + 1 = 64 - n by omega] at h2
    rw [walkPositions_succ]
    dsimp only
    rw [h1]
    exact ih (by omega) h2

/-! ## A pass among devices -/

/-- What a pass finds among devices (R185): one of them, the next after the address found before or the first, with the fork
at which the next pass branches. -/
structure PassFinds (cmds : RomCommands) (as : List Address) (ss : SearchState) (old : Address) (b : Bus) (o : SearchOut) :
    Prop where
  found : o.found = true
  code : o.code = .eNone
  mem : o.rom ∈ as
  lfd : o.ss.lfd ≤ 8
  ldf : o.ss.ldf = (o.ss.ld == 0)
  last : IsLastFork as o.rom 64 o.ss.ld
  line : ∃ ds, o.bus.line = .devices cmds ds ∧ ds.map (·.addr) = as
  events : o.bus.history.length = b.history.length + 201
  first : ss.ld = 0 → ∀ a ∈ as, searchKey o.rom ≤ searchKey a
  after : ss.ld ≠ 0 → IsLastFork as old 64 ss.ld →
    searchKey old < searchKey o.rom ∧ ∀ a ∈ as, searchKey old < searchKey a → searchKey o.rom ≤ searchKey a

/-- A pass among at least one device with valid addresses (R172, R185). -/
theorem searchPass_devices {cmds c : RomCommands} {as : List Address} {ds : List Device} {ss : SearchState} {old : Address}
    {b : Bus} (hb : b.line = .devices cmds ds) (hd : ds.map (·.addr) = as) (hne : as ≠ [])
    (hv : ∀ a ∈ as, ValidAddress a) (hc : cmds.searchRom = c.searchRom) (hl : ss.lfd ≤ 8) (hs : StartsAt as ss.ld old) :
    PassFinds cmds as ss old b (searchPass c ss old b) := by
  have hdn : ds.isEmpty = false := by
    cases ds with
    | nil => exact absurd hd.symm (by simpa using hne)
    | cons _ _ => rfl
  have hp := busReset_devices hb
  rw [hdn, Bool.not_false] at hp
  -- the start of the walk
  let p0 : PassState :=
    { lastZero := 0, crc := 0x00#8, lfd := ss.lfd, rom := old, bus := busWriteByte c.searchRom (busReset b).2 }
  have hline : p0.bus.line =
      .devices cmds (ds.map (deviceRun cmds (.reset true :: (byteBits c.searchRom).map .write))) := by
    show (busWriteByte c.searchRom (busReset b).2).line = _
    rw [busWriteByte_replay, busReset_replay, hp, ← busReplay_append]
    exact busReplay_devices _ hb
  have h0 : Walked cmds as ss.ld old (64 - 64) p0 := by
    obtain ⟨a, ha⟩ := List.exists_mem_of_ne_nil _ hne
    refine ⟨⟨_, hline, ?_, ?_⟩, ⟨a, ha, fun j hj => absurd hj (by omega)⟩,
      ⟨fun i hi => absurd hi (by omega), .inl rfl⟩, fun j hj => absurd hj (by omega), fun j hj => absurd hj (by omega),
      fun j hj => absurd hj (by omega), fun _ _ _ => rfl⟩
    · rw [List.map_map, ← hd]
      exact List.map_congr_left fun d _ => by simp
    · intro _ x hx
      obtain ⟨d, _, rfl⟩ := List.mem_map.1 hx
      refine ⟨fun _ => ?_, fun g => absurd (fun j hj => absurd hj (by omega)) g⟩
      rw [deviceRun_cons, deviceRun_romByte _ rfl, if_pos hc.symm]
  obtain ⟨hnone, hw⟩ := h0.walk hs 64 (Nat.le_refl _)
  have hok := (walkPositions_spec ss.ld 64 (Nat.le_refl _) p0 (passStart_ok hl old _)).2.2 hnone
  obtain ⟨-, -, hev⟩ := searchPass_spec c hl old b
  have hpass : searchPass c ss old b = closePass (walkPositions ss.ld 64 p0) := by
    rw [searchPass]
    simp only [hp, if_true, Config.addrBits]
    rfl
  have hev := hev hp
  rw [hpass] at hev ⊢
  generalize walkPositions ss.ld 64 p0 = w at *
  obtain ⟨w1, q⟩ := w
  dsimp only at hnone
  subst hnone
  dsimp only at hw hok
  obtain ⟨a, ha, hag⟩ := hw.active
  have he := eq_of_agree hag
  subst he
  obtain ⟨hv0, hv1⟩ := hv _ ha
  have hcrc : q.crc = 0x00#8 := hok.crc.trans hv1
  have hclose : closePass (none, q) =
      { found := true, code := .eNone, ss := { ld := q.lastZero, lfd := q.lfd, ldf := q.lastZero == 0 }, rom := q.rom
        bus := q.bus } := by
    simp [closePass, hcrc, hv0]
  rw [hclose] at hev ⊢
  obtain ⟨es, idle, hbus, -, hlen, hidle, -⟩ := hev
  have hidle2 : idle = none := by
    cases idle with
    | none => rfl
    | some pos =>
      have := (hidle pos rfl).2.2
      dsimp only at this
      split at this <;> simp at this
  subst hidle2
  obtain ⟨ds', ht⟩ := hw.taking
  refine ⟨rfl, rfl, ha, hok.lfd, rfl, hw.last, ⟨ds', ht.line, ht.addrs⟩, ?_, ?_, ?_⟩
  · dsimp only at hbus ⊢
    rw [hbus]
    simp [hlen, walkLength]
    omega
  · intro hz x hx
    by_contra hlt
    obtain ⟨i, hi, h1, h2, h3⟩ := exists_of_searchKey_lt (Nat.lt_of_not_le hlt)
    have := hw.ones i hi (by omega) h3 x hx h1
    rw [h2] at this
    exact absurd this (by simp)
  · intro hz hlf
    rcases hs with e | ⟨hold, l, e, hl64, hf⟩
    · exact absurd e hz
    have hpre : Agree old q.rom l := fun j hj => (hw.before j (by omega) (by omega)).symm
    have hone : q.rom.getLsbD l = true := hw.atLd l hl64 e
    refine ⟨searchKey_lt hl64 hpre hf.1 hone, fun x hx hgt => ?_⟩
    by_contra hlt
    obtain ⟨i, hi, h1, h2, h3⟩ := exists_of_searchKey_lt (Nat.lt_of_not_le hlt)
    by_cases hil : l < i
    · have := hw.ones i hi (by omega) h3 x hx h1
      rw [h2] at this
      exact absurd this (by simp)
    · by_cases hie : i = l
      · subst hie
        obtain ⟨r, hr, g1, g2, g3⟩ := exists_of_searchKey_lt hgt
        have hax : Agree x old i := h1.trans hpre.symm
        by_cases hri : r < i
        · rw [hax r hri, g2] at g3
          exact absurd g3 (by simp)
        · by_cases hrie : r = i
          · subst hrie
            rw [h2] at g3
            exact absurd g3 (by simp)
          · exact hlf.1 r hr (by omega) ⟨g2, x, hx, g1.symm, g3⟩
      · have := searchKey_lt hi (h1.trans (hpre.symm.mono (by omega))) h2 ((hpre i (by omega)).trans h3)
        omega

/-! ## The enumeration among devices -/

/-- The least of a list whose keys rise is its head. -/
theorem keysRise_first {as : List Address} (h : keysRise as) {x : Address} (hx : x ∈ as)
    (hmin : ∀ a ∈ as, searchKey x ≤ searchKey a) : as[0]? = some x := by
  cases as with
  | nil => simp at hx
  | cons a as =>
    rcases List.mem_cons.1 hx with e | e
    · simp [e]
    · have h1 := (List.pairwise_cons.1 h).1 _ (List.mem_map_of_mem (f := searchKey) e)
      have := hmin a List.mem_cons_self
      omega

/-- In a list whose keys rise, a later entry has a larger key. -/
theorem keysRise_lt {as : List Address} (h : keysRise as) {i j : Nat} (hi : i < as.length) (hj : j < as.length) (hij : i < j) :
    searchKey as[i] < searchKey as[j] := by
  have := List.pairwise_iff_getElem.1 h i j (by simpa using hi) (by simpa using hj) hij
  simpa only [List.getElem_map] using this

/-- In a list whose keys rise, the next key after entry `k` is entry `k + 1`. -/
theorem keysRise_next {as : List Address} (h : keysRise as) {k : Nat} {old x : Address} (hk : as[k]? = some old) (hx : x ∈ as)
    (hlt : searchKey old < searchKey x) (hmin : ∀ a ∈ as, searchKey old < searchKey a → searchKey x ≤ searchKey a) :
    as[k + 1]? = some x := by
  have hp := fun i j hi hj => keysRise_lt h (i := i) (j := j) hi hj
  obtain ⟨hkl, rfl⟩ := List.getElem?_eq_some_iff.1 hk
  obtain ⟨m, hm, rfl⟩ := List.mem_iff_getElem.1 hx
  have h1 : k < m := by
    rcases Nat.lt_trichotomy k m with g | g | g
    · exact g
    · subst g; omega
    · have := hp m k hm hkl g
      omega
  by_cases h2 : m = k + 1
  · subst h2
    exact List.getElem?_eq_getElem hm
  · have h3 := hp (k + 1) m (by omega) hm (by omega)
    have h4 := hmin as[k + 1] (List.getElem_mem _) (hp k (k + 1) hkl (by omega) (by omega))
    omega

/-- The loop of ENUM among devices, with the first `n` of them, in the order `ks` of their keys, found. -/
structure EnumFinds (cmds : RomCommands) (as ks : List Address) (n : Nat) (a : EnumState) : Prop where
  count : a.n = n
  bound : n ≤ ks.length
  table : ∀ i (h : i < 5), i < n → ks[i]? = some a.table[i]
  lfd : a.ss.lfd ≤ 8
  line : ∃ ds, a.bus.line = .devices cmds ds ∧ ds.map (·.addr) = as
  start : n = 0 → a.ss = SearchState.init
  state : 0 < n → ks[n - 1]? = some a.rom ∧ IsLastFork as a.rom 64 a.ss.ld ∧ a.ss.ldf = (a.ss.ld == 0)

/-- `SS.LD` is 0 exactly when every device has been found (R176, R185). -/
theorem EnumFinds.ld_zero {cmds : RomCommands} {as ks : List Address} {n : Nat} {a : EnumState}
    (h : EnumFinds cmds as ks n a) (hn : 0 < n) (hp : as.Perm ks) (hk : keysRise ks) : a.ss.ld = 0 ↔ n = ks.length := by
  obtain ⟨h1, h2, -⟩ := h.state hn
  obtain ⟨hl, he⟩ := List.getElem?_eq_some_iff.1 h1
  have hpw := fun i j hi hj => keysRise_lt hk (i := i) (j := j) hi hj
  constructor
  · intro hz
    by_contra hne
    have hlt : n < ks.length := by have := h.bound; omega
    have := hpw (n - 1) n hl hlt (by omega)
    rw [he] at this
    obtain ⟨i, hi, g1, g2, g3⟩ := exists_of_searchKey_lt this
    exact h2.1 i hi (by omega) ⟨g2, ks[n], hp.mem_iff.2 (List.getElem_mem _), g1.symm, g3⟩
  · intro hlen
    by_contra hz
    rcases h2.2 with e | ⟨i, -, hi, g1, b, hb, g2, g3⟩
    · exact hz e
    have hlt := searchKey_lt hi g2.symm g1 g3
    obtain ⟨m, hm, rfl⟩ := List.mem_iff_getElem.1 (hp.mem_iff.1 hb)
    rw [← he] at hlt
    rcases Nat.lt_trichotomy m (n - 1) with g | g | g
    · have := hpw m (n - 1) hm hl g
      omega
    · subst g; omega
    · omega

/-- A call of ENUM's loop among devices: the next device while one is left, else "no more devices" (R179, R185). -/
theorem EnumFinds.call {cmds : RomCommands} {cfg : Config} {as ks : List Address} {n : Nat} {a : EnumState}
    (h : EnumFinds cmds as ks n a) (hc : cmds.searchRom = cfg.cmds.searchRom) (hne : as ≠ [])
    (hv : ∀ x ∈ as, ValidAddress x) (hp : as.Perm ks) (hk : keysRise ks) :
    if n = ks.length then searchNext cfg a.ss a.rom a.bus =
      { found := false, code := .eNone, ss := if cfg.noMoreResetsState then SearchState.init else a.ss, rom := a.rom
        bus := a.bus }
    else ks[n]? = some (searchNext cfg a.ss a.rom a.bus).rom ∧
      PassFinds cmds as a.ss a.rom a.bus (searchNext cfg a.ss a.rom a.bus) := by
  obtain ⟨ds, hl, hd⟩ := h.line
  by_cases h0 : n = 0
  · have hi := h.start h0
    have hkn : ks ≠ [] := fun e => hne (by rw [e] at hp; exact hp.eq_nil)
    rw [if_neg (by rw [h0]; exact fun e => hkn (List.length_eq_zero_iff.1 e.symm))]
    have hld : a.ss.ld = 0 := by rw [hi]; rfl
    have hf : a.ss.ldf = false := by rw [hi]; rfl
    have hpass := searchPass_devices hl hd hne hv hc h.lfd (old := a.rom) (.inl hld)
    rw [searchNext, hf]
    simp only [Bool.false_eq_true, if_false]
    refine ⟨?_, hpass⟩
    rw [h0]
    exact keysRise_first hk (hp.mem_iff.1 hpass.mem) (fun x hx => hpass.first hld x (hp.mem_iff.2 hx))
  · have hn : 0 < n := by omega
    obtain ⟨h1, h2, h3⟩ := h.state hn
    have hz := h.ld_zero hn hp hk
    split
    · next e =>
      have : a.ss.ldf = true := by rw [h3]; simpa using hz.2 e
      rw [searchNext, this]
      rfl
    · next e =>
      have hld : a.ss.ld ≠ 0 := fun g => e (hz.1 g)
      have hf : a.ss.ldf = false := by rw [h3]; simpa using hld
      have hmem : a.rom ∈ as := hp.mem_iff.2 (List.mem_of_getElem? h1)
      have hpass := searchPass_devices hl hd hne hv hc h.lfd (old := a.rom)
        (.inr ⟨hmem, by rcases h2.2 with g | g; exacts [absurd g hld, g]⟩)
      rw [searchNext, hf]
      simp only [Bool.false_eq_true, if_false]
      refine ⟨?_, hpass⟩
      obtain ⟨g1, g2⟩ := hpass.after hld h2
      have := keysRise_next hk h1 (hp.mem_iff.1 hpass.mem) g1 (fun x hx => g2 x (hp.mem_iff.2 hx))
      rwa [show n - 1 + 1 = n by omega] at this

/-- The loop of ENUM among devices (R183, R185). -/
theorem enumLoop_devices {cmds : RomCommands} {cfg : Config} {as ks : List Address}
    (hc : cmds.searchRom = cfg.cmds.searchRom) (hne : as ≠ []) (hv : ∀ x ∈ as, ValidAddress x) (hp : as.Perm ks)
    (hk : keysRise ks) (k n : Nat) (a : EnumState) (h : EnumFinds cmds as ks n a) (hn : n + k = 5) :
    (enumLoop cfg k a).1 = .eNone ∧ (enumLoop cfg k a).2.n = min ks.length 5 ∧
    (∀ i (h : i < 5), i < min ks.length 5 → ks[i]? = some (enumLoop cfg k a).2.table[i]) ∧
    (5 ≤ ks.length → ((enumLoop cfg k a).2.ss.ldf = true ↔ ks.length = 5)) ∧
    (enumLoop cfg k a).2.bus.history.length = a.bus.history.length + 201 * (min ks.length 5 - n) := by
  induction k generalizing n a with
  | zero =>
    have h5 : n = 5 := by omega
    subst h5
    have hb := h.bound
    have e : min ks.length 5 = 5 := by omega
    refine ⟨rfl, by rw [e]; exact h.count, fun i hi _ => h.table i hi hi, fun _ => ?_, by rw [e]; simp [enumLoop]⟩
    rw [show (enumLoop cfg 0 a).2.ss.ldf = (a.ss.ld == 0) from (h.state (by omega)).2.2, beq_iff_eq,
      h.ld_zero (by omega) hp hk]
    omega
  | succ k ih =>
    have hcall := h.call (cfg := cfg) hc hne hv hp hk
    have hb := h.bound
    rw [enumLoop]
    generalize searchNext cfg a.ss a.rom a.bus = o at *
    split at hcall
    · next e =>
      have e5 : min ks.length 5 = n := by omega
      subst hcall
      refine ⟨rfl, by rw [e5]; exact h.count, fun i hi hlt => h.table i hi (by omega), fun g => by omega, ?_⟩
      rw [e5]
      simp
    · next e =>
      obtain ⟨h1, hf⟩ := hcall
      have h' : EnumFinds cmds as ks (n + 1)
          { n := a.n + 1, table := a.table.setIfInBounds a.n o.rom, ss := o.ss, rom := o.rom, bus := o.bus } := by
        refine ⟨by rw [h.count], by omega, fun i hi hlt => ?_, hf.lfd, hf.line, fun g => by omega,
          fun _ => ⟨by simpa using h1, hf.last, hf.ldf⟩⟩
        rw [h.count]
        by_cases g : n = i
        · subst g; simp [h1]
        · dsimp only
          rw [Vector.getElem_setIfInBounds_ne _ (by omega)]
          exact h.table i hi (by omega)
      obtain ⟨g1, g2, g3, g4, g5⟩ := ih (n + 1) _ h' (by omega)
      simp only [hf.found, if_true]
      refine ⟨g1, g2, g3, g4, ?_⟩
      have hev := hf.events
      rw [g5]
      dsimp only
      omega

end Sys2Proof.Machine
end

