-- ==== Sys2Proof/Laws/Outcomes.lean ====
section
/-! SUPPORT. IDENTIFY's device loop seen through the outcome of each device (44_identity.md R233, R236, R237): what reading and
decoding a device depends on, and one equation of the loop for each outcome. -/

namespace Sys2Proof.Machine

/-- Two states agree on all that reading and decoding a device depends on. -/
structure SameInputs (s t : State) : Prop where
  cfg : s.cfg = t.cfg
  count : s.count = t.count
  devtab : s.devtab = t.devtab
  bus : s.bus = t.bus
  recbuf : s.recbuf = t.recbuf

theorem setDeverr_same (i : Nat) (c : ErrCode) (s : State) : SameInputs (setDeverr i c s) s := ⟨rfl, rfl, rfl, rfl, rfl⟩

theorem memrdBody_congr (i : Nat) {s t : State} (h : SameInputs s t) :
    (memrdBody i s).1 = (memrdBody i t).1 ∧ (memrdBody i s).2.attempts = (memrdBody i t).2.attempts ∧
    SameInputs (memrdBody i s).2 (memrdBody i t).2 := by
  obtain ⟨h1, h2, h3, h4, h5⟩ := h
  unfold memrdBody
  rw [show deviceOperand i s = deviceOperand i t by simp [deviceOperand, h2, h3]]
  cases deviceOperand i t with
  | none => exact ⟨rfl, rfl, h1, h2, h3, h4, h5⟩
  | some a =>
    dsimp only
    rw [show familySupported s.cfg a = familySupported t.cfg a by rw [h1]]
    split
    · exact ⟨by simp [h4, h1], by simp [h4, h1], h1, h2, h3, by simp [h4, h1], by simp [h4, h5, h1]⟩
    · exact ⟨rfl, rfl, h1, h2, h3, h4, h5⟩

theorem decodeBody_congr {s t : State} (h : SameInputs s t) :
    (decodeBody s).1 = (decodeBody t).1 ∧ (decodeBody s).2.ident = (decodeBody t).2.ident ∧
    SameInputs (decodeBody s).2 (decodeBody t).2 := by
  obtain ⟨h1, h2, h3, h4, h5⟩ := h
  unfold decodeBody
  rw [h1, h5]
  split
  · exact ⟨rfl, rfl, rfl, h2, h3, h4, rfl⟩
  · exact ⟨rfl, rfl, rfl, h2, h3, h4, rfl⟩

theorem deviceOutcome_congr (i : Nat) {s t : State} (h : SameInputs s t) :
    (deviceOutcome i s).1 = (deviceOutcome i t).1 ∧ SameInputs (deviceOutcome i s).2 (deviceOutcome i t).2 := by
  obtain ⟨m, -, hm⟩ := memrdBody_congr i h
  unfold deviceOutcome
  generalize memrdBody i s = x at *
  generalize memrdBody i t = y at *
  obtain ⟨c, x⟩ := x
  obtain ⟨c', y⟩ := y
  dsimp only at *
  subst m
  split
  · exact ⟨rfl, hm⟩
  · obtain ⟨d1, d2, d3⟩ := decodeBody_congr hm
    rw [d1]
    split
    · exact ⟨rfl, d3⟩
    · exact ⟨congrArg Except.ok d2, d3⟩

/-- The outcomes of the devices depend on those fields only. -/
theorem deviceOutcomes_congr (n i : Nat) {s t : State} (h : SameInputs s t) :
    deviceOutcomes n i s = deviceOutcomes n i t := by
  induction n generalizing i s t with
  | zero => rfl
  | succ n ih =>
    obtain ⟨a, b⟩ := deviceOutcome_congr i h
    simp only [deviceOutcomes, a, ih (i + 1) b]

@[simp] theorem deviceOutcomes_length (n i : Nat) (s : State) : (deviceOutcomes n i s).length = n := by
  induction n generalizing i s with
  | zero => rfl
  | succ n ih => simp [deviceOutcomes, ih]

/-- Reading and decoding a device writes neither the parameters nor DEVERR. -/
theorem deviceOutcome_frame (i : Nat) (s : State) :
    (deviceOutcome i s).2.cfg = s.cfg ∧ (deviceOutcome i s).2.deverr = s.deverr := by
  have h : LoopFrame s (deviceOutcome i s).2 ∧ (deviceOutcome i s).2.deverr = s.deverr := by
    have hm := (memrdBody_spec i s).1
    unfold deviceOutcome
    generalize memrdBody i s = x at *
    obtain ⟨c, x⟩ := x
    dsimp only at *
    split
    · rw [hm]; exact ⟨rfl, rfl⟩
    · have hd := (decodeBody_spec x).1
      generalize decodeBody x = y at *
      obtain ⟨c, y⟩ := y
      dsimp only at *
      split <;> (rw [hd, hm]; exact ⟨rfl, rfl⟩)
  exact ⟨by rw [h.1], h.2⟩

/-- The loop's next device, by its outcome (R236). -/
theorem identifyLoop_outcome (n i : Nat) (a : IdentifyState) :
    identifyLoop (n + 1) i a =
      match (deviceOutcome i a.st).1 with
      | .error c => identifyLoop n (i + 1) { a with st := setDeverr i c (deviceOutcome i a.st).2 }
      | .ok d =>
        match roleOf d.role with
        | none => { a with st := setDeverr i .eUnknownBoardRole (deviceOutcome i a.st).2, fatal := true }
        | some r =>
          identifyLoop n (i + 1)
            { a with
              st := setDeverr i .eNone (deviceOutcome i a.st).2
              words := foldIdentity r d a.words
              ok := a.ok + 1
              seen := a.seen ||| roleBit r } := by
  rw [identifyLoop]
  unfold deviceOutcome
  generalize memrdBody i a.st = x
  obtain ⟨c, x⟩ := x
  dsimp only
  by_cases hc : c = .eNone
  · subst hc
    generalize decodeBody x = y
    obtain ⟨c, y⟩ := y
    simp only [ne_eq, not_true_eq_false, if_false]
    by_cases hc : c = .eNone
    · subst hc
      cases h : roleOf y.ident.role <;> simp [h]
    · simp [hc]
  · simp [hc]

/-- A device that is skipped (R237). -/
theorem identifyLoop_error {i : Nat} {a : IdentifyState} {c : ErrCode} {u : State}
    (h : deviceOutcome i a.st = (.error c, u)) (n : Nat) :
    identifyLoop (n + 1) i a = identifyLoop n (i + 1) { a with st := setDeverr i c u } := by
  rw [identifyLoop_outcome, h]

/-- A device with a role outside the three (R237). -/
theorem identifyLoop_fatal {i : Nat} {a : IdentifyState} {d : Identity} {u : State}
    (h : deviceOutcome i a.st = (.ok d, u)) (hr : roleOf d.role = none) (n : Nat) :
    identifyLoop (n + 1) i a = { a with st := setDeverr i .eUnknownBoardRole u, fatal := true } := by
  rw [identifyLoop_outcome, h]
  simp only [hr]

/-- A device whose identity is folded (R230). -/
theorem identifyLoop_fold {i : Nat} {a : IdentifyState} {d : Identity} {u : State} {r : Role}
    (h : deviceOutcome i a.st = (.ok d, u)) (hr : roleOf d.role = some r) (n : Nat) :
    identifyLoop (n + 1) i a = identifyLoop n (i + 1)
      { a with
        st := setDeverr i .eNone u
        words := foldIdentity r d a.words
        ok := a.ok + 1
        seen := a.seen ||| roleBit r } := by
  rw [identifyLoop_outcome, h]
  simp only [hr]

/-- The words of a loop that meets no fatal role are those of its outcomes, folded in order (R233, R236). -/
theorem identifyLoop_words (n i : Nat) (a : IdentifyState) (h : (identifyLoop n i a).fatal = false) :
    (identifyLoop n i a).words = (deviceOutcomes n i a.st).foldl foldOutcome a.words := by
  induction n generalizing i a with
  | zero => rfl
  | succ n ih =>
    rcases ho : deviceOutcome i a.st with ⟨_ | d, u⟩
    · next c =>
      rw [identifyLoop_error ho] at h ⊢
      rw [ih _ _ h, deviceOutcomes, ho, deviceOutcomes_congr n (i + 1) (setDeverr_same i c u)]
      rfl
    · cases hr : roleOf d.role with
      | none => rw [identifyLoop_fatal ho hr] at h; simp at h
      | some r =>
        rw [identifyLoop_fold ho hr] at h ⊢
        rw [ih _ _ h, deviceOutcomes, ho, deviceOutcomes_congr n (i + 1) (setDeverr_same i .eNone u)]
        simp [foldOutcome, hr]

/-- With code 0x0 IDENTIFY leaves the words of the outcomes of the devices ENUM found, folded in order (R233, R236). -/
theorem identifyBody_words {s : State} (h : (identifyBody s).1 = .eNone) :
    ((identifyBody s).2.serial, (identifyBody s).2.revision) =
      (deviceOutcomes (enumBody s).2.count 0 (enumBody s).2).foldl foldOutcome (0#32, 0#32) := by
  have hw := identifyLoop_words (enumBody s).2.count 0
    { st := { (enumBody s).2 with deverr := Vector.replicate 5 .eNotProcessed }
      words := (0#32, 0#32), ok := 0, seen := 0b000#3, fatal := false }
  have hs : SameInputs { (enumBody s).2 with deverr := Vector.replicate 5 .eNotProcessed } (enumBody s).2 :=
    ⟨rfl, rfl, rfl, rfl, rfl⟩
  rw [← deviceOutcomes_congr _ _ hs]
  unfold identifyBody at h ⊢
  generalize enumBody s = e at *
  obtain ⟨c, s1⟩ := e
  dsimp only at *
  generalize identifyLoop s1.count 0 _ = x at *
  unfold identifyClose at h ⊢
  split at h
  · dsimp only at h; split at h <;> simp at h
  · next hx =>
    rw [if_neg hx]
    exact hw (by simp at hx; simpa using hx.1)

/-! ## The devices processed, as commands -/

/-- Two states agree on what processing a device reads or leaves: its inputs, ATTEMPTS and the identity (R236). -/
structure SameDevice (s t : State) : Prop extends SameInputs s t where
  attempts : s.attempts = t.attempts
  ident : s.ident = t.ident

theorem SameDevice.finish (c : ErrCode) {s t : State} (h : SameDevice s t) : SameDevice (finish c s) t :=
  ⟨⟨h.cfg, h.count, h.devtab, h.bus, h.recbuf⟩, h.attempts, h.ident⟩

theorem SameDevice.memrd (i : Nat) {s t : State} (h : SameDevice s t) :
    (memrdBody i s).1 = (memrdBody i t).1 ∧ SameDevice (memrdBody i s).2 (memrdBody i t).2 := by
  obtain ⟨m1, m2, m3⟩ := memrdBody_congr i h.toSameInputs
  refine ⟨m1, m3, m2, ?_⟩
  rw [(memrdBody_spec i s).1, (memrdBody_spec i t).1]
  exact h.ident

theorem SameDevice.decode {s t : State} (h : SameDevice s t) :
    (decodeBody s).1 = (decodeBody t).1 ∧ SameDevice (decodeBody s).2 (decodeBody t).2 := by
  obtain ⟨d1, d2, d3⟩ := decodeBody_congr h.toSameInputs
  refine ⟨d1, d3, ?_, d2⟩
  rw [(decodeBody_spec s).1, (decodeBody_spec t).1]
  exact h.attempts

/-- The device outcome of R233 is what the commands MEMRD and DECODE give (R236). -/
theorem processesDevice (i : Nat) {s t : State} (h : SameDevice s t) :
    ∃ w, ProcessesDevice i s (deviceOutcome i t).1 w ∧ SameDevice w (deviceOutcome i t).2 := by
  obtain ⟨m1, m2⟩ := h.memrd i
  unfold deviceOutcome
  by_cases hc : (memrdBody i t).1 = .eNone
  · obtain ⟨d1, d2⟩ := (m2.finish (memrdBody i s).1).decode
    have hd : ∀ w, SameDevice w (decodeBody (memrdBody i t).2).2 → w.err = (decodeBody (memrdBody i t).2).1 →
        (if ¬(decodeBody (memrdBody i t).2).1 = ErrCode.eNone then
            (Except.error (decodeBody (memrdBody i t).2).1, (decodeBody (memrdBody i t).2).2)
          else (Except.ok (decodeBody (memrdBody i t).2).2.ident, (decodeBody (memrdBody i t).2).2)) =
        (if w.err = .eNone then .ok w.ident else .error w.err, (decodeBody (memrdBody i t).2).2) := by
      intro w hw he
      rw [he, hw.ident]
      by_cases h0 : (decodeBody (memrdBody i t).2).1 = .eNone <;> simp [h0]
    refine ⟨Machine.finish (decodeBody (Machine.finish (memrdBody i s).1 (memrdBody i s).2)).1
      (decodeBody (Machine.finish (memrdBody i s).1 (memrdBody i s).2)).2, ?_, ?_⟩ <;>
      simp only [hc, ne_eq, not_true_eq_false, if_false, hd _ (d2.finish _) d1]
    · exact ⟨_, exec_eq _ _, .inr ⟨m1.trans hc, exec_eq _ _, rfl⟩⟩
    · exact d2.finish _
  · simp only [hc, ne_eq, not_false_eq_true, if_true]
    exact ⟨_, ⟨_, exec_eq _ _, .inl ⟨fun e => hc (m1.symm.trans e), rfl, congrArg Except.error m1.symm⟩⟩, m2.finish _⟩

theorem SameDevice.setDeverr (i : Nat) (c : ErrCode) {s t : State} (h : SameDevice s t) :
    SameDevice s (setDeverr i c t) :=
  ⟨⟨h.cfg, h.count, h.devtab, h.bus, h.recbuf⟩, h.attempts, h.ident⟩

/-- `us 0`, …, `us m` are the states between the first `m` of the devices from index `i`, whose outcomes are `os`: no outcome
before the last is fatal, and the last is, where devices are left (R237). -/
structure DeviceChain (i : Nat) (os : List (Except ErrCode Identity)) (m : Nat) (us : Nat → State) : Prop where
  bound : m ≤ os.length
  start : m = 0 → os = []
  device : ∀ k, k < m → ∃ o, ProcessesDevice (i + k) (us k) o (us (k + 1)) ∧ os[k]? = some o ∧
    (k + 1 < m → outcomeFatal o = false) ∧ (k + 1 = m → m < os.length → outcomeFatal o = true)

/-- A device before a chain. -/
theorem DeviceChain.cons {i m : Nat} {os : List (Except ErrCode Identity)} {us : Nat → State} {u : State}
    {o : Except ErrCode Identity} (h : DeviceChain (i + 1) os m us) (hp : ProcessesDevice i u o (us 0))
    (ho : outcomeFatal o = false) : DeviceChain i (o :: os) (m + 1) (fun k => Nat.casesOn k u us) := by
  refine ⟨by simpa using h.bound, by simp, fun k hk => ?_⟩
  cases k with
  | zero =>
    refine ⟨o, hp, rfl, fun _ => ho, fun e hl => ?_⟩
    simp [h.start (by omega)] at hl
  | succ k =>
    obtain ⟨o', h1, h2, h3, h4⟩ := h.device k (by omega)
    rw [Nat.add_right_comm, Nat.add_assoc] at h1
    exact ⟨o', h1, h2, fun g => h3 (by omega), fun e g => h4 (by omega) (by simpa using g)⟩

/-- The device loop of IDENTIFY is a chain of commands up to its first fatal outcome, and leaves ATTEMPTS, RECBUF, the identity
and the bus as the last of them (R236, R237, R45). -/
theorem identifyLoop_chain (n i : Nat) (a : IdentifyState) {u : State} (h : SameDevice u a.st) :
    ∃ m us, us 0 = u ∧ DeviceChain i (deviceOutcomes n i a.st) m us ∧ SameDevice (us m) (identifyLoop n i a).st := by
  induction n generalizing i a u with
  | zero => exact ⟨0, fun _ => u, rfl, ⟨by simp, fun _ => rfl, by simp⟩, h⟩
  | succ n ih =>
    obtain ⟨w, hp, hw⟩ := processesDevice i h
    have next : ∀ (c : ErrCode) (b : IdentifyState), b.st = Machine.setDeverr i c (deviceOutcome i a.st).2 →
        outcomeFatal (deviceOutcome i a.st).1 = false → identifyLoop (n + 1) i a = identifyLoop n (i + 1) b →
        ∃ m us, us 0 = u ∧ DeviceChain i (deviceOutcomes (n + 1) i a.st) m us ∧
          SameDevice (us m) (identifyLoop (n + 1) i a).st := by
      intro c b hb ho he
      obtain ⟨m, us, h0, hc, hs⟩ := ih (i + 1) b (hb ▸ hw.setDeverr i c)
      rw [hb, deviceOutcomes_congr n (i + 1) (setDeverr_same i c _)] at hc
      subst h0
      exact ⟨m + 1, _, rfl, hc.cons hp ho, he ▸ hs⟩
    rcases ho : deviceOutcome i a.st with ⟨c | d, v⟩
    · exact next c _ (by rw [ho]) (by rw [ho]; rfl) (identifyLoop_error ho n)
    · cases hr : roleOf d.role with
      | some r => exact next .eNone _ (by rw [ho]) (by rw [ho]; simp [outcomeFatal, hr]) (identifyLoop_fold ho hr n)
      | none =>
        rw [identifyLoop_fatal ho hr]
        rw [ho] at hp hw
        refine ⟨1, fun k => Nat.casesOn k u (fun _ => w), rfl, ⟨by simp, by simp, fun k hk => ?_⟩, hw.setDeverr i _⟩
        obtain rfl : k = 0 := by omega
        exact ⟨_, hp, by simp [deviceOutcomes, ho], by simp, fun _ _ => by simp [outcomeFatal, hr]⟩

end Sys2Proof.Machine
end

