-- ==== Sys2Proof/Laws/PerInstr.lean ====
section
/-! SUPPORT. The family EncodeFields of statements for every command (30_encoding.md R111, R112, R114): the fields of its word. -/

namespace Sys2Proof.Laws.EncodeFields

/-- The word of a well-formed command has RSV = 0 and an assigned OPC (R111, R112, R114). -/
def Statement (i : Instr) : Prop :=
  i.wf = true → fieldRsv (encode i) = 0#16 ∧ opcAssigned (fieldOpc (encode i)) = true

theorem owreset : Statement .owreset := fun _ => by decide +kernel
theorem owwbit (bit : Bool) : Statement (.owwbit bit) := fun _ => by revert bit; decide +kernel
theorem owrbit : Statement .owrbit := fun _ => by decide +kernel
theorem owwbyte (v : Byte) : Statement (.owwbyte v) := fun _ => by revert v; decide +kernel
theorem owrbyte : Statement .owrbyte := fun _ => by decide +kernel
theorem crc8 (v : Byte) : Statement (.crc8 v) := fun _ => by revert v; decide +kernel
theorem srchinit : Statement .srchinit := fun _ => by decide +kernel
theorem srchnext : Statement .srchnext := fun _ => by decide +kernel
theorem enum : Statement .enum := fun _ => by decide +kernel
theorem memrd (idx : Nat) : Statement (.memrd idx) := fun h => by
  have hall : ∀ i : Fin 8,
      fieldRsv (encode (.memrd i.val)) = 0#16 ∧ opcAssigned (fieldOpc (encode (.memrd i.val))) = true := by decide +kernel
  have hle : idx ≤ 7 := of_decide_eq_true h
  exact hall ⟨idx, by omega⟩
theorem decode : Statement .decode := fun _ => by decide +kernel
theorem identify : Statement .identify := fun _ => by decide +kernel

end Sys2Proof.Laws.EncodeFields
end

