-- ==== Sys2Proof/Laws/Turns.lean ====
section
/-! SUPPORT. What a turn and a step do: which function serves the next turn, how it treats an access, every effect a step can
have, and runs of several steps. -/

namespace Sys2Proof.Machine

/-- With a turn pending, a step runs it (R275). -/
theorem step_cons {s : State} {t : Turn} {rest : List Turn} (h : s.pending = t :: rest) :
    step s = runTurn t { s with pending := rest } := by
  simp only [step, nextTurn, h]

/-- With no turn pending, a step lets the engine go on. -/
theorem step_nil {s : State} (h : s.pending = []) : step s = runTurn .engine s := by
  simp only [step, nextTurn, h]

/-- An aligned 32-bit access inside the block passes the checks (R81, R83). -/
theorem checkAccess_ok {off : Nat} (h : off % 4 = 0) (hlt : off < 0x100) : checkAccess off 4 = none := by
  have : ¬ 256 ≤ off := by omega
  simp [checkAccess, alignedWord, h, this]

/-- Only such an access passes them. -/
theorem checkAccess_none {off width : Nat} (h : checkAccess off width = none) : width = 4 ∧ off % 4 = 0 ∧ off < 0x100 := by
  unfold checkAccess at h
  by_cases ha : alignedWord off width = true
  · by_cases hb : 0x100 ≤ off
    · simp [ha, hb] at h
    · simp [alignedWord] at ha
      omega
  · simp [ha] at h

theorem hostAccess_served {a : HostAccess} {s : State} (h : checkAccess (accessPlace a).1 (accessPlace a).2 = none)
    (hr : s.inReset = false) : hostAccess a s = serveAccess a s := by
  simp [hostAccess, h, hr]

theorem hostAccess_refused {a : HostAccess} {r : Refusal} (s : State)
    (h : checkAccess (accessPlace a).1 (accessPlace a).2 = some r) : hostAccess a s = .refused r := by
  simp [hostAccess, h]

theorem runTurn_access (a : HostAccess) (s : State) : runTurn (.access a) s = hostAccess a s := rfl

/-- A step that serves a write (R84). -/
theorem step_write {s : State} {off : Nat} {w : Word} {rest : List Turn}
    (hp : s.pending = .access (.write off 4 w) :: rest) (hr : s.inReset = false) (h : off % 4 = 0) (hlt : off < 0x100) :
    step s = serveAccess (.write off 4 w) { s with pending := rest } := by
  rw [step_cons hp, runTurn_access, hostAccess_served (by exact checkAccess_ok h hlt) (by exact hr)]

/-- A step that serves a read (R84). -/
theorem step_read {s : State} {off : Nat} {rest : List Turn}
    (hp : s.pending = .access (.read off 4) :: rest) (hr : s.inReset = false) (h : off % 4 = 0) (hlt : off < 0x100) :
    step s = .next (hostRead off { s with pending := rest }) := by
  rw [step_cons hp, runTurn_access, hostAccess_served (by exact checkAccess_ok h hlt) (by exact hr)]
  rfl

/-- A step that starts a command, or refuses its word (R261). -/
theorem step_issue {s : State} {w : Word} {rest : List Turn} (hp : s.pending = .issue w :: rest)
    (hr : s.inReset = false) : step s = writeCmd false w { s with pending := rest } := by
  rw [step_cons hp]
  simp [runTurn, hr]

/-- Only three offsets of the block take a write (R84). -/
theorem regAt_plain {off : Nat} (hlt : off < 0x100) (h0 : off ≠ 0x00) (h4 : off ≠ 0x04) (hc : off ≠ 0x0C) :
    regAt off ≠ .cmd ∧ regAt off ≠ .status ∧ regAt off ≠ .crc := by
  have h : ∀ o : Fin 0x100, o.val ≠ 0x00 → o.val ≠ 0x04 → o.val ≠ 0x0C →
      regAt o.val ≠ .cmd ∧ regAt o.val ≠ .status ∧ regAt o.val ≠ .crc := by decide +kernel
  exact h ⟨off, hlt⟩ h0 h4 hc

/-- The offsets from 0x8C up are reserved (R48). -/
theorem regAt_reserved {off : Nat} (hlt : off < 0x100) (h : 0x8C ≤ off) : regAt off = .reserved := by
  have h' : ∀ o : Fin 0x100, 0x8C ≤ o.val → regAt o.val = .reserved := by decide +kernel
  exact h' ⟨off, hlt⟩ h

/-- A write of any other register is ignored (R48, R49). -/
theorem regWrite_ignored {r : Reg} (h : r ≠ .status ∧ r ≠ .crc) (w : Word) (s : State) : regWrite r w s = s := by
  cases r <;> simp_all [regWrite]

theorem serveAccess_write {off width : Nat} (h : regAt off ≠ .cmd) (w : Word) (s : State) :
    serveAccess (.write off width w) s = .next (regWrite (regAt off) w s) := by
  simp [serveAccess, h]

theorem serveAccess_cmd (width : Nat) (w : Word) (s : State) :
    serveAccess (.write 0x00 width w) s = writeCmd true w s := rfl

theorem serveAccess_read (off width : Nat) (s : State) : serveAccess (.read off width) s = .next (hostRead off s) := rfl

theorem writeCmd_busy {s : State} (h : s.busy = true) (whole : Bool) (w : Word) :
    writeCmd whole w s = .next (setOverrun s) := by
  simp [writeCmd, h]

theorem writeCmd_illegal {s : State} {w : Word} (h : s.busy = false) (hd : decodeWord w = none) (whole : Bool) :
    writeCmd whole w s = .next (acceptIllegal w s) := by
  simp [writeCmd, h, hd]

theorem writeCmd_command {s : State} {w : Word} {i : Instr} (h : s.busy = false) (hd : decodeWord w = some i)
    (whole : Bool) : writeCmd whole w s = if whole then exec i (acceptCommand w i s) else .next (acceptCommand w i s) := by
  simp [writeCmd, h, hd]

theorem hostRead_idle {s : State} (h : s.busy = false) (off : Nat) :
    hostRead off s = { s with readData := regRead (regAt off) s } := by
  simp [hostRead, h]

theorem hostRead_busy {s : State} (h : s.busy = true) (off : Nat) :
    hostRead off s =
      { s with
        readData := regReadBusy (regAt off) (Config.freeRead s.freeReads off) s
        freeReads := s.freeReads + 1 } := by
  simp [hostRead, h]

/-- A register's word does not depend on the turns still to come. -/
theorem regRead_pending (r : Reg) (rest : List Turn) (s : State) : regRead r { s with pending := rest } = regRead r s := by
  cases r <;> rfl

/-- The engine's step with an idle engine (R274). -/
theorem engineTurn_idle {s : State} (h : s.engine = .idle) : engineTurn s = .next s := by
  simp [engineTurn, h]

/-- What `exec` answers is `finish` of the command's writes. -/
theorem exec_next {i : Instr} {s t : State} (h : exec i s = .next t) :
    t = finish (commandBody i s).1 (commandBody i s).2 := by
  rw [exec_eq] at h
  injection h with h
  exact h.symm

/-! ## What a step can do -/

/-- Every way a step can answer a next state, with the state it leaves (R84, R261, R266, R275, R291, R295): the one inversion
that statements about all steps go through. -/
inductive StepEffect (s : State) : State → Prop where
  /-- Nothing but the turn is used up: an ignored write, a turn in reset, an idle engine. -/
  | quiet : StepEffect s { s with pending := s.pending.tail }
  /-- A read. -/
  | read (v : Word) (n : Nat) : StepEffect s { s with readData := v, freeReads := n, pending := s.pending.tail }
  /-- A write of STATUS. -/
  | status (w : Word) : StepEffect s (writeStatus w { s with pending := s.pending.tail })
  /-- A write of CRC while idle. -/
  | crc (w : Word) (hidle : s.engine = .idle) :
    StepEffect s { s with crc := w.extractLsb' 0 8, pending := s.pending.tail }
  /-- A write of CMD or CRC while busy. -/
  | overrun (hbusy : s.busy = true) : StepEffect s (setOverrun { s with pending := s.pending.tail })
  /-- An illegal word. -/
  | illegal (w : Word) (hidle : s.engine = .idle) (hd : decodeWord w = none) :
    StepEffect s (acceptIllegal w { s with pending := s.pending.tail })
  /-- A command is started. -/
  | start (w : Word) (i : Instr) (hidle : s.engine = .idle) (hd : decodeWord w = some i) :
    StepEffect s (acceptCommand w i { s with pending := s.pending.tail })
  /-- A command that the host writes runs to its completion. -/
  | whole (w : Word) (i : Instr) (rest : List Turn) (hp : s.pending = .access (.write 0x00 4 w) :: rest)
      (hidle : s.engine = .idle) (hr : s.inReset = false) (hd : decodeWord w = some i) :
    StepEffect s (finish (commandBody i (acceptCommand w i { s with pending := rest })).1
      (commandBody i (acceptCommand w i { s with pending := rest })).2)
  /-- The engine makes one more primitive of a running command. -/
  | engine (i : Instr) (start : Bus) (k : Nat) (es : List BusEvent) (he : s.engine = .running i start k) :
    StepEffect s
      { s with bus := busReplay es start, engine := .running i start (k + 1), pending := s.pending.tail }
  /-- The engine completes a running command. -/
  | complete (i : Instr) (start : Bus) (k : Nat) (he : s.engine = .running i start k) (hr : s.inReset = false) :
    StepEffect s (finish (commandBody i (setBus start { s with pending := s.pending.tail })).1
      (commandBody i (setBus start { s with pending := s.pending.tail })).2)
  /-- The reset input changes. -/
  | reset (asserted : Bool) (rest : List Turn) (hp : s.pending = .resetPin asserted :: rest) :
    StepEffect s (resetInput asserted { s with pending := rest })

theorem writeCmd_effect {whole : Bool} {w : Word} {s t : State} (hr : s.inReset = false)
    (hp : whole = true → ∃ rest, s.pending = .access (.write 0x00 4 w) :: rest)
    (h : writeCmd whole w { s with pending := s.pending.tail } = .next t) : StepEffect s t := by
  unfold writeCmd at h
  split at h
  · next hb => injection h with h; exact h ▸ .overrun hb
  · next hb =>
    have hidle : s.engine = .idle := (busy_eq_false s).1 (Bool.not_eq_true _ ▸ hb)
    split at h
    · next hd => injection h with h; exact h ▸ .illegal w hidle hd
    · next i hd =>
      cases whole
      · injection h with h; exact h ▸ .start w i hidle hd
      · obtain ⟨rest, hp⟩ := hp rfl
        rw [show s.pending.tail = rest by rw [hp]; rfl] at h
        exact exec_next h ▸ .whole w i rest hp hidle hr hd

theorem engineTurn_effect {s t : State} (hr : s.inReset = false)
    (h : engineTurn { s with pending := s.pending.tail } = .next t) : StepEffect s t := by
  unfold engineTurn at h
  dsimp only at h
  split at h
  · injection h with h; exact h ▸ .quiet
  · next i start k he =>
    rw [exec_eq] at h
    dsimp only at h
    split at h
    · injection h with h; exact h ▸ .engine i start k _ he
    · injection h with h; exact h ▸ .complete i start k he hr

theorem hostAccess_effect {a : HostAccess} {rest : List Turn} {s t : State} (hp : s.pending = .access a :: rest)
    (h : hostAccess a { s with pending := s.pending.tail } = .next t) : StepEffect s t := by
  unfold hostAccess at h
  split at h
  · cases h
  · next hc =>
    split at h
    · injection h with h
      cases a
      · exact h ▸ .read _ _
      · exact h ▸ .quiet
    · next hr =>
      have hr : s.inReset = false := by simpa using hr
      cases a with
      | read off width =>
        rw [serveAccess_read] at h
        injection h with h
        subst h
        unfold hostRead
        split
        · exact .read _ _
        · exact .read _ _
      | write off width w =>
        obtain ⟨hw, -, hlt⟩ := checkAccess_none hc
        by_cases hcmd : regAt off = .cmd
        · have hoff : off = 0 := by
            have : ∀ o : Fin 0x100, regAt o.val = .cmd → o.val = 0 := by decide +kernel
            exact this ⟨off, hlt⟩ hcmd
          subst hoff hw
          rw [serveAccess_cmd] at h
          exact writeCmd_effect hr (fun _ => ⟨rest, hp⟩) h
        · rw [serveAccess_write hcmd] at h
          injection h with h
          subst h
          cases hreg : regAt off with
          | status => exact .status w
          | crc =>
            simp only [regWrite, writeCrc]
            split
            · next hb => exact .overrun hb
            · next hb => exact .crc w ((busy_eq_false s).1 (Bool.not_eq_true _ ▸ hb))
          | _ => exact .quiet

/-- A step that answers a next state has one of these effects. -/
theorem step_effect {s t : State} (h : step s = .next t) : StepEffect s t := by
  cases hp : s.pending with
  | nil =>
    rw [step_nil hp] at h
    rw [show s = { s with pending := s.pending.tail } by
      cases s; dsimp only at hp; rw [hp]; rfl] at h
    simp only [runTurn] at h
    split at h
    · injection h with h; exact h ▸ .quiet
    · next hr => exact engineTurn_effect (by simpa using hr) h
  | cons x rest =>
    rw [step_cons hp, show rest = s.pending.tail by rw [hp]; rfl] at h
    cases x with
    | access a => exact hostAccess_effect hp h
    | issue w =>
      simp only [runTurn] at h
      split at h
      · injection h with h; exact h ▸ .quiet
      · next hr => exact writeCmd_effect (by simpa using hr) (by simp) h
    | engine =>
      simp only [runTurn] at h
      split at h
      · injection h with h; exact h ▸ .quiet
      · next hr => exact engineTurn_effect (by simpa using hr) h
    | resetPin b =>
      simp only [runTurn] at h
      injection h with h
      rw [show s.pending.tail = rest by rw [hp]; rfl] at h
      exact h ▸ .reset b rest hp

/-! ## Runs -/

theorem hostRun_next (M : Host.Core) (k : Nat) {s t : M.State} (h : M.step s = .next t) : M.run (k + 1) s = M.run k t := by
  simp only [Host.Core.run, h]

theorem hostRun_split (M : Host.Core) {k : Nat} {s t : M.State} (h : M.run (k + 1) s = .next t) :
    ∃ u, M.step s = .next u ∧ M.run k u = .next t := by
  simp only [Host.Core.run] at h
  split at h
  · next u hu => exact ⟨u, hu, h⟩
  · cases h
  · cases h

/-- A run begins with its first step. -/
theorem run_next {s t : State} (h : step s = .next t) (k : Nat) : core.run (k + 1) s = core.run k t :=
  hostRun_next core k h

theorem run_split {k : Nat} {s t : State} (h : core.run (k + 1) s = .next t) :
    ∃ u : State, step s = .next u ∧ core.run k u = .next t := hostRun_split core h

/-- Two runs after each other are one run. -/
theorem run_add {a : Nat} {s t : State} (h : core.run a s = .next t) (b : Nat) : core.run (a + b) s = core.run b t := by
  induction a generalizing s with
  | zero => cases h; rw [Nat.zero_add]
  | succ a ih =>
    obtain ⟨u, hu, h⟩ := run_split h
    rw [show a + 1 + b = (a + b) + 1 by omega, run_next hu]
    exact ih h

end Sys2Proof.Machine
end

