-- ==== Sys2Proof/Machine/HostProgram.lean ====
section
/-! DEFINITION. The host agent's programs (30_encoding.md R117–R119; 60_exceptions.md R276): assembler statements, their expansion, and the run
of a host program over the machine's step. The host agent is outside OWID; it reaches it by register accesses only. What R119 leaves open of the
agent is [log 16, DESIGN CHOICE]. -/

namespace Sys2Proof.Machine

/-- A host statement (R119). -/
inductive Stmt where
  | wr (off : Nat) (v : Word)
  | rd (off : Nat) (name : String)
  | poll
  | expect (off : Nat) (v : Word)
  | label (l : String)
  | br (name : String) (mask v : Word) (l : String)
  | jmp (l : String)
  | halt
deriving DecidableEq, Repr

/-- A source statement: a command (R117), a pseudo-instruction (R118) or a host statement (R119). -/
inductive Source where
  | owreset | owwbit (b : Nat) | owrbit | owwbyte (v : Nat) | owrbyte | crc8 (v : Nat)
  | srchinit | srchnext | enum | memrd (i : Nat) | decode | identify
  | owwbytes (vs : List Nat)
  | owmatch (a : List Nat)
  | owreadmem (off16 : Nat)
  | owsearchcmd
  | crcclr
  | crcbytes (vs : List Nat)
  | clrstatus
  | host (s : Stmt)
deriving DecidableEq, Repr

/-- A command statement "means write the encoded word to CMD, then poll" (R117). -/
def commandStmts (i : Instr) : List Stmt := [.wr 0x00 (encode i), .poll]

/-- A byte operand of the assembler: 0..255, else an assembly error (R117). -/
def asmByte (v : Nat) : Option Byte := if v < 256 then some (BitVec.ofNat 8 v) else none

/-- A 16-bit operand of the assembler (R118). -/
def asmHalf (v : Nat) : Option (BitVec 16) := if v < 65536 then some (BitVec.ofNat 16 v) else none

/-- `owwbyte` for each of these bytes. -/
def writeByteStmts (vs : List Byte) : List Stmt := vs.flatMap (fun v => commandStmts (.owwbyte v))

/-- Assemble one source statement for an instance's command bytes (R117, R118); none is an assembly error. -/
def assembleOne (cmds : RomCommands) : Source → Option (List Stmt)
  | .owreset => some (commandStmts .owreset)
  | .owwbit b => if b ≤ 1 then some (commandStmts (.owwbit (b == 1))) else none
  | .owrbit => some (commandStmts .owrbit)
  | .owwbyte v => (asmByte v).map (fun x => commandStmts (.owwbyte x))
  | .owrbyte => some (commandStmts .owrbyte)
  | .crc8 v => (asmByte v).map (fun x => commandStmts (.crc8 x))
  | .srchinit => some (commandStmts .srchinit)
  | .srchnext => some (commandStmts .srchnext)
  | .enum => some (commandStmts .enum)
  | .memrd i => if i ≤ 7 then some (commandStmts (.memrd i)) else none
  | .decode => some (commandStmts .decode)
  | .identify => some (commandStmts .identify)
  | .owwbytes vs => (vs.mapM asmByte).map writeByteStmts
  | .owmatch a =>
    if a.length = 8 then
      (a.mapM asmByte).map (fun xs => commandStmts .owreset ++ writeByteStmts (cmds.matchRom :: xs))
    else none
  | .owreadmem off16 =>
    (asmHalf off16).map (fun o => writeByteStmts [cmds.readMem, o.extractLsb' 0 8, o.extractLsb' 8 8])
  | .owsearchcmd => some (writeByteStmts [cmds.searchRom])
  | .crcclr => some [.wr 0x0C 0x00000000#32]
  | .crcbytes vs => (vs.mapM asmByte).map (fun xs => xs.flatMap (fun v => commandStmts (.crc8 v)))
  | .clrstatus => some [.wr 0x04 0x00000012#32]
  | .host s => some [s]

/-- Assemble a program: its statements in order; none if one is an assembly error. -/
def assemble (cmds : RomCommands) (src : List Source) : Option (List Stmt) :=
  (src.mapM (assembleOne cmds)).map List.flatten

/-- The host agent: its program, the statement it is at, the names that `rd` has set (newest first), whether it has ended, and
whether an `expect` has failed (R119); and how its accesses interleave with the engine, which no rule fixes (R52, R275) and
which is therefore data of the agent. [log 16, DESIGN CHOICE] -/
structure HostAgent where
  prog : List Stmt
  /-- A `wr` to CMD runs the command it makes OWID accept whole, before the next statement (R52); else it only starts it, and
  the engine moves by single steps (R275). -/
  whole : Bool
  /-- The numbers of engine steps that come before the next statements, first first; none when the list has ended. -/
  gaps : List Nat
  pos : Nat
  names : List (String × Word)
  halted : Bool
  failed : Bool
deriving DecidableEq, Repr

/-- The host agent and OWID. -/
structure System where
  host : HostAgent
  owid : State
deriving DecidableEq, Repr

/-- OWID after a turn the host agent asks for, ahead of those pending. -/
def turnNow (t : Turn) (s : State) : Host.Outcome State Fault Refusal := step { s with pending := t :: s.pending }

/-- The agent at the next statement. -/
def hostNext (h : HostAgent) : HostAgent := { h with pos := h.pos + 1 }

/-- The agent at a label (R119), or a refusal of the program. -/
def hostJump (l : String) (x : System) : Host.Outcome System Fault Refusal :=
  match x.host.prog.findIdx? (· == .label l) with
  | some p => .next { x with host := { x.host with pos := p } }
  | none => .refused (.hostLabelMissing l)

/-- A read by the host agent, and what it does with the word. -/
def hostLoad (off : Nat) (x : System) (k : Word → State → Host.Outcome System Fault Refusal) :
    Host.Outcome System Fault Refusal :=
  match turnNow (.access (.read off 4)) x.owid with
  | .next t => k t.readData t
  | .fault r => .fault r
  | .refused r => .refused r

/-- These many engine steps (R275). -/
def engineTurns : Nat → State → Host.Outcome State Fault Refusal
  | 0, s => .next s
  | n + 1, s =>
    match turnNow .engine s with
    | .next t => engineTurns n t
    | .fault r => .fault r
    | .refused r => .refused r

/-- The turn of a `wr`: a write to CMD by an agent that does not run commands whole only starts the command. [log 16, DESIGN
CHOICE] -/
def writeTurn (h : HostAgent) (off : Nat) (v : Word) : Turn :=
  if off = 0x00 ∧ h.whole = false then .issue v else .access (.write off 4 v)

/-- One statement of the host agent (R119). With `whole` a `wr` to CMD runs the accepted command to its completion before the
next statement, so that no later statement meets BUSY = 1 or sets OVR; without it, later statements may. [log 16, DESIGN
CHOICE] A `poll` that sees BUSY = 1 lets the engine make a step and stays where it is. -/
def hostStmt (s : Stmt) (x : System) : Host.Outcome System Fault Refusal :=
  match s with
  | .wr off v =>
    match turnNow (writeTurn x.host off v) x.owid with
    | .next t => .next { host := hostNext x.host, owid := t }
    | .fault r => .fault r
    | .refused r => .refused r
  | .rd off name => hostLoad off x (fun w t =>
      .next { host := { hostNext x.host with names := (name, w) :: x.host.names }, owid := t })
  | .poll => hostLoad 0x04 x (fun w t =>
      if w.getLsbD 0 then
        match turnNow .engine t with
        | .next t' => .next { x with owid := t' }
        | .fault r => .fault r
        | .refused r => .refused r
      else .next { host := hostNext x.host, owid := t })
  | .expect off v => hostLoad off x (fun w t =>
      .next { host := { hostNext x.host with failed := x.host.failed || w != v }, owid := t })
  | .label _ => .next { x with host := hostNext x.host }
  | .br name mask v l =>
    match x.host.names.lookup name with
    | none => .refused (.hostNameUnset name)
    | some w => if w &&& mask = v then hostJump l x else .next { x with host := hostNext x.host }
  | .jmp l => hostJump l x
  | .halt => .next { x with host := { x.host with halted := true } }

/-- The statement the agent is at; past the end of its program it has ended. -/
def hostNow (x : System) : Host.Outcome System Fault Refusal :=
  match x.host.prog[x.host.pos]? with
  | some s => hostStmt s x
  | none => .next { x with host := { x.host with halted := true } }

/-- One step of the host agent: the engine steps that come before its statement, then the statement. -/
def hostStep (x : System) : Host.Outcome System Fault Refusal :=
  if x.host.halted then .next x
  else
    match engineTurns (x.host.gaps.headD 0) x.owid with
    | .next t => hostNow { host := { x.host with gaps := x.host.gaps.tail }, owid := t }
    | .fault r => .fault r
    | .refused r => .refused r

/-- `n` steps of the host agent. -/
def hostRun : Nat → System → Host.Outcome System Fault Refusal
  | 0, x => .next x
  | n + 1, x =>
    match hostStep x with
    | .next y => hostRun n y
    | .fault r => .fault r
    | .refused r => .refused r

end Sys2Proof.Machine
end

