-- ==== Sys2Proof/Machine/Assembler.lean ====
section
/-! DEFINITION. The text of host programs (30_encoding.md R117–R119): tokens, numbers, register names, one statement per line. It
is the assembler's side of the host agent; OWID sees only the accesses of the assembled program. The details of the grammar that R117
leaves open are [log 17, DESIGN CHOICE]. -/

namespace Sys2Proof.Machine

/-! ## Tokens -/

/-- A token of a line: a word, or the comma that separates operands. -/
inductive Token where
  | word (s : String)
  | comma
deriving DecidableEq, Repr

/-- The word read so far (its characters newest first), if any, ahead of the tokens that follow. -/
def closeWord (acc : List Char) (ts : List Token) : List Token :=
  if acc.isEmpty then ts else .word (String.ofList acc.reverse) :: ts

/-- The tokens of a line: blanks separate words, a comma is a token, `;` starts a comment (R117). -/
def tokenize : List Char → List Char → List Token
  | acc, [] => closeWord acc []
  | acc, c :: cs =>
    if c = ';' then closeWord acc []
    else if c = ',' then closeWord acc (.comma :: tokenize [] cs)
    else if c = ' ' ∨ c = '\t' ∨ c = '\r' then closeWord acc (tokenize [] cs)
    else tokenize (c :: acc) cs

/-- The lines of a text, the characters of the line being read newest first. -/
def splitLines : List Char → List Char → List (List Char)
  | acc, [] => [acc.reverse]
  | acc, c :: cs => if c = '\n' then acc.reverse :: splitLines [] cs else splitLines (c :: acc) cs

/-! ## Numbers and names -/

/-- The value of a digit in a base. -/
def digitValue (base : Nat) (c : Char) : Option Nat :=
  let v :=
    if '0' ≤ c ∧ c ≤ '9' then c.toNat - '0'.toNat
    else if 'a' ≤ c ∧ c ≤ 'f' then c.toNat - 'a'.toNat + 10
    else if 'A' ≤ c ∧ c ≤ 'F' then c.toNat - 'A'.toNat + 10
    else base
  if v < base then some v else none

/-- The number whose digits follow `n`. -/
def digitsValue (base : Nat) : Nat → List Char → Option Nat
  | n, [] => some n
  | n, c :: cs =>
    match digitValue base c with
    | some d => digitsValue base (n * base + d) cs
    | none => none

/-- A number: decimal, or hexadecimal after `0x` (R117). -/
def numeral (s : String) : Option Nat :=
  match s.toList with
  | [] => none
  | '0' :: 'x' :: d :: ds => digitsValue 16 0 (d :: ds)
  | d :: ds => digitsValue 10 0 (d :: ds)

/-- A 32-bit number. -/
def numeralWord (s : String) : Option Word :=
  match numeral s with
  | some n => if n < 2 ^ 32 then some (BitVec.ofNat 32 n) else none
  | none => none

/-- The register names that stand for offsets (R119). -/
def regNames : List (String × Nat) :=
  [("CMD", 0x00), ("STATUS", 0x04), ("DATA", 0x08), ("CRC", 0x0C), ("SEARCH", 0x10), ("DEVCOUNT", 0x14), ("ROMLO", 0x18),
    ("ROMHI", 0x1C), ("DEVTAB0LO", 0x20), ("DEVTAB0HI", 0x24), ("DEVTAB1LO", 0x28), ("DEVTAB1HI", 0x2C)] ++
  [("DEVTAB2LO", 0x30), ("DEVTAB2HI", 0x34), ("DEVTAB3LO", 0x38), ("DEVTAB3HI", 0x3C), ("DEVTAB4LO", 0x40),
    ("DEVTAB4HI", 0x44), ("RECBUF0", 0x48), ("RECBUF1", 0x4C), ("RECBUF2", 0x50), ("RECBUF3", 0x54), ("RECBUF4", 0x58)] ++
  [("RECBUF5", 0x5C), ("RECBUF6", 0x60), ("RECBUF7", 0x64), ("IDENT0", 0x68), ("IDENT1", 0x6C), ("SERIAL", 0x70),
    ("REVISION", 0x74), ("MEMDIAG", 0x78), ("IDDIAG", 0x7C), ("ACC_CPU", 0x80), ("ACC_DISPLAY", 0x84),
    ("ACC_CARRIER", 0x88)]

/-- An offset operand: a register name or a number (R119). -/
def offsetOperand (s : String) : Option Nat :=
  match regNames.lookup s with
  | some off => some off
  | none => numeral s

/-! ## Statements -/

/-- Operands separated by commas. -/
def operands : List Token → Option (List String)
  | [] => some []
  | [.word w] => some [w]
  | .word w :: .comma :: .word v :: rest =>
    match operands (.word v :: rest) with
    | some ws => some (w :: ws)
    | none => none
  | _ => none

/-- A statement with one number as its operand. -/
def withNumber (args : List String) (k : Nat → Source) : Option Source :=
  match args with
  | [a] => (numeral a).map k
  | _ => none

/-- A statement with a list of numbers as its operands, at least one. -/
def withNumbers (args : List String) (k : List Nat → Source) : Option Source :=
  if args.isEmpty then none else (args.mapM numeral).map k

/-- A statement without an operand. -/
def withNothing (args : List String) (s : Source) : Option Source := if args.isEmpty then some s else none

/-- `wr OFF, v32` and `expect OFF, v32` (R119). -/
def withOffsetWord (args : List String) (k : Nat → Word → Stmt) : Option Source :=
  match args with
  | [o, v] =>
    match offsetOperand o, numeralWord v with
    | some off, some w => some (.host (k off w))
    | _, _ => none
  | _ => none

/-- `br name, mask, v, L` (R119). -/
def withBranch (args : List String) : Option Source :=
  match args with
  | [name, m, v, l] =>
    match numeralWord m, numeralWord v with
    | some mask, some w => some (.host (.br name mask w l))
    | _, _ => none
  | _ => none

/-- `jmp L` (R119). -/
def withLabel (args : List String) : Option Source :=
  match args with
  | [l] => some (.host (.jmp l))
  | _ => none

/-- The statement of a mnemonic and its operands (R117, R118, R119). -/
def parseStmt (m : String) (args : List String) : Option Source :=
  match m with
  | "owreset" => withNothing args .owreset
  | "owwbit" => withNumber args .owwbit
  | "owrbit" => withNothing args .owrbit
  | "owwbyte" => withNumber args .owwbyte
  | "owrbyte" => withNothing args .owrbyte
  | "crc8" => withNumber args .crc8
  | "srchinit" => withNothing args .srchinit
  | "srchnext" => withNothing args .srchnext
  | "enum" => withNothing args .enum
  | "memrd" => withNumber args .memrd
  | "decode" => withNothing args .decode
  | "identify" => withNothing args .identify
  | "owwbytes" => withNumbers args .owwbytes
  | "owmatch" => withNumbers args .owmatch
  | "owreadmem" => withNumber args .owreadmem
  | "owsearchcmd" => withNothing args .owsearchcmd
  | "crcclr" => withNothing args .crcclr
  | "crcbytes" => withNumbers args .crcbytes
  | "clrstatus" => withNothing args .clrstatus
  | "wr" => withOffsetWord args .wr
  | "expect" => withOffsetWord args .expect
  | "poll" => withNothing args (.host .poll)
  | "br" => withBranch args
  | "jmp" => withLabel args
  | "halt" => withNothing args (.host .halt)
  | _ => none

/-- `rd OFF -> name` (R119), or a statement with comma-separated operands. -/
def parseTokens : List Token → Option (List Source)
  | [] => some []
  | [.word "rd", .word o, .word "->", .word name] =>
    match offsetOperand o with
    | some off => some [.host (.rd off name)]
    | none => none
  | .word m :: rest =>
    match operands rest with
    | some args => (parseStmt m args).map (fun s => [s])
    | none => none
  | _ => none

/-- The name of a label word `L:` (R119). -/
def labelName (w : String) : Option String :=
  match w.toList.reverse with
  | ':' :: c :: cs => some (String.ofList (c :: cs).reverse)
  | _ => none

/-- One line: a label, a statement, both (as the programs of 95_test_vectors.md write them), or nothing. -/
def parseLine (line : List Char) : Option (List Source) :=
  match tokenize [] line with
  | [] => some []
  | .word w :: rest =>
    match labelName w with
    | some l => (parseTokens rest).map (fun ss => .host (.label l) :: ss)
    | none => parseTokens (.word w :: rest)
  | .comma :: _ => none

/-- A program's text (R117): none if a line is no statement. -/
def parseProgram (text : String) : Option (List Source) :=
  ((splitLines [] text.toList).mapM parseLine).map List.flatten

/-- A program's text, assembled for an instance's command bytes: none on an assembly error (R117). -/
def assembleText (cmds : RomCommands) (text : String) : Option (List Stmt) :=
  match parseProgram text with
  | some src => assemble cmds src
  | none => none

end Sys2Proof.Machine
end

