-- ==== Sys2Proof/Tests/Slice0.lean ====
section
/-! SUPPORT. The model's own tests: ill-formed terms, words decoded bit by bit, vectors of 95_test_vectors.md (their numbers in the
docstrings), and for every statement with hypotheses a state and operands that meet them. -/

namespace Sys2Proof.Tests

open Sys2Proof.Machine

set_option maxRecDepth 20000

/-! ## Helpers -/

/-- The bytes of a text. -/
def ascii (s : String) : List Byte := s.toList.map (fun c => BitVec.ofNat 8 c.toNat)

/-- The example catalog of 95_test_vectors.md, with R7's defaults. -/
def exampleCfg : Config :=
  { families := [0x2D#8, 0x23#8, 0x43#8]
    cmds := RomCommands.default
    boardCatalog := [⟨ascii "SAM9X25-CM", 1#8, 5#8⟩, ⟨ascii "SAM9X25", 1#8, 4#8⟩, ⟨ascii "TM43", 2#8, 3#8⟩,
      ⟨ascii "SAM9X5-EK", 3#8, 7#8⟩, ⟨ascii "ROLE9", 9#8, 1#8⟩]
    vendorCatalog := [⟨ascii "EMBEST", 2#8⟩, ⟨ascii "FLEX", 3#8⟩, ⟨ascii "RONETIX", 4#8⟩]
    defaultSerial := 0x11112222#32
    defaultRevision := 0x33334444#32
    noMoreResetsState := false
    timing := Timing.default
    clkPerUs := 1
    base := 0 }

/-- The reset state with the example instance on this line. -/
def onLine (l : Line) : State := { State.reset with cfg := exampleCfg, bus := { Bus.reset with line := l } }

/-- The reset state with these ideal devices attached. -/
def onDevices (ds : List Device) : State := onLine (.devices RomCommands.default ds)

/-- A device with this address and memory. -/
def dev (a : Address) (m : List Byte) : Device := { addr := a, mem := m, phase := .inactive }

/-- The state a command leaves. -/
def after (i : Instr) (s : State) : State :=
  match exec i s with
  | .next t => t
  | .fault _ => s
  | .refused _ => s

/-- The state a step leaves. -/
def stepped (s : State) : State :=
  match step s with
  | .next t => t
  | .fault _ => s
  | .refused _ => s

/-- Device A of 95_test_vectors.md: 2D 01 00 00 00 00 00 E0. -/
def addrA : Address := 0xE00000000000012D#64
/-- Device B: 2D 02 00 00 00 00 00 B9. -/
def addrB : Address := 0xB90000000000022D#64
/-- Device C: 23 10 20 30 40 50 60 60. -/
def addrC : Address := 0x6060504030201023#64
/-- Device U: 01 02 03 04 05 06 07 0F. -/
def addrU : Address := 0x0F07060504030201#64
/-- Device X: 2D 03 00 00 00 00 00 00, an invalid CRC. -/
def addrX : Address := 0x000000000000032D#64

/-- The first 16 bytes of record rCPU. -/
def cpuLow : List Byte :=
  [0x20#8, 0x45#8, 0x4D#8, 0x42#8, 0x45#8, 0x53#8, 0x54#8, 0x20#8, 0x20#8, 0x20#8, 0x20#8, 0x43#8, 0x4E#8, 0x53#8, 0x41#8, 0x4D#8]
/-- Bytes 16..26 of record rCPU. -/
def cpuHigh : List Byte :=
  [0x39#8, 0x58#8, 0x32#8, 0x35#8, 0x2D#8, 0x43#8, 0x4D#8, 0x20#8, 0x20#8, 0x0C#8, 0x22#8]
/-- Record rCPU. -/
def cpuBytes : List Byte := cpuLow ++ cpuHigh ++ [0x42#8, 0x31#8, 0x41#8, 0x41#8, 0x00#8]
/-- Record rCPU with the revision characters of V-DEC-2: mapping 'B', revId 'c', bom '3'. -/
def swapBytes : List Byte := cpuLow ++ cpuHigh ++ [0x42#8, 0x63#8, 0x33#8, 0x42#8, 0x00#8]

/-- A record from 32 bytes. -/
def recordOf (bs : List Byte) : Record := Vector.ofFn (fun j => bs.getD j.val 0x00#8)

/-- The state with a device table of one entry. -/
def withEntry (a : Address) (s : State) : State := { s with count := 1, devtab := #v[a, 0#64, 0#64, 0#64, 0#64] }

/-- The state with a running OWRESET. -/
def busyState (turns : List Turn) : State :=
  { onDevices [dev addrA cpuBytes] with
    engine := .running .owreset (onDevices [dev addrA cpuBytes]).bus 0
    pending := turns }

/-! ## Well-formedness: ill-formed terms for the checks -/

/-- The check of an instance refuses a BASE that is no multiple of 4 (log entry 20). -/
theorem test_config_wf : exampleCfg.wf = true ∧ ({ exampleCfg with base := 2 }).wf = false := by decide +kernel

/-- The check refuses a MEMRD index that does not fit 3 bits. -/
theorem test_wf_refuses_memrd_8 : (Instr.memrd 8).wf = false := by decide
theorem test_wf_accepts_memrd_7 : (Instr.memrd 7).wf = true := by decide

/-! ## Decoding: a word written out from its pattern of R114, for every command -/

theorem test_decode_owreset : decodeWord 0b00000000000000000000000000000001#32 = some .owreset := by decide +kernel
theorem test_decode_owwbit_1 : decodeWord 0b00000000000000000000000100000010#32 = some (.owwbit true) := by decide +kernel
theorem test_decode_owwbit_0 : decodeWord 0b00000000000000000000000000000010#32 = some (.owwbit false) := by decide +kernel
theorem test_decode_owrbit : decodeWord 0b00000000000000000000000000000011#32 = some .owrbit := by decide +kernel
theorem test_decode_owwbyte : decodeWord 0b00000000000000001000000000000100#32 = some (.owwbyte 0x80#8) := by decide +kernel
theorem test_decode_owrbyte : decodeWord 0b00000000000000000000000000000101#32 = some .owrbyte := by decide +kernel
theorem test_decode_crc8 : decodeWord 0b00000000000000001111111000000110#32 = some (.crc8 0xFE#8) := by decide +kernel
theorem test_decode_srchinit : decodeWord 0b00000000000000000000000000010000#32 = some .srchinit := by decide +kernel
theorem test_decode_srchnext : decodeWord 0b00000000000000000000000000010001#32 = some .srchnext := by decide +kernel
theorem test_decode_enum : decodeWord 0b00000000000000000000000000010010#32 = some .enum := by decide +kernel
theorem test_decode_memrd : decodeWord 0b00000000000000000000011000100000#32 = some (.memrd 6) := by decide +kernel
theorem test_decode_decode : decodeWord 0b00000000000000000000000000110000#32 = some .decode := by decide +kernel
theorem test_decode_identify : decodeWord 0b00000000000000000000000000110001#32 = some .identify := by decide +kernel

/-- V-ENC-4, 5, 6, 7, 11, 12, 13, 14, 16: illegal words. -/
theorem test_decode_illegal :
    [0x00000202#32, 0x0000FE02#32, 0x00010001#32, 0x80000004#32, 0x00000820#32, 0x000000FF#32, 0x00000000#32, 0x00000100#32,
      0x00000130#32].all (fun w => (decodeWord w).isNone) = true := by decide +kernel

/-- R115: each kind of illegal word is rejected by its name; bytes, lowest address first. -/
theorem test_decode_error_names :
    decodeBytes [0x01#8, 0x00#8, 0x01#8, 0x00#8] = .error .reservedHigh ∧
    decodeBytes [0x07#8, 0x00#8, 0x00#8, 0x00#8] = .error .unassignedOpcode ∧
    decodeBytes [0x02#8, 0x02#8, 0x00#8, 0x00#8] = .error .reservedArg ∧
    decodeBytes [0x01#8, 0x00#8, 0x00#8] = .error .truncated := by decide +kernel

/-- The table's numbering of bits: bit 0 is the least significant bit of the one 32-bit word. -/
theorem test_decodeTableWord : decodeTableWord 32 0x00005504 = some (.owwbyte 0x55#8) := by decide +kernel

/-! ## The commands -/

/-- V-BIT-1: STATUS after OWRESET with a device. -/
theorem test_owreset_presence : regRead .status (after .owreset (onDevices [dev addrA []])) = 0x00000006#32 := by
  decide +kernel
/-- V-BIT-2: STATUS after OWRESET on an empty bus. -/
theorem test_owreset_empty : regRead .status (after .owreset (onDevices [])) = 0x00000102#32 := by decide +kernel

/-- V-BIT-3. -/
theorem test_owwbit_event : busHistory (after (.owwbit true) (onDevices [])).bus = [.write true] := by decide +kernel

/-- V-BIT-6, V-BIT-14: OWRBIT writes all 8 bits of DATA. -/
theorem test_owrbit_zero : (after .owrbit { onLine (.script [false]) with data := 0xFF#8 }).data = 0x00#8 := by
  decide +kernel
/-- V-BIT-5: an empty bus reads 1. -/
theorem test_owrbit_empty : (after .owrbit (onDevices [])).data = 0x01#8 := by decide +kernel

/-- V-BIT-10: 0x2D goes out as 1, 0, 1, 1, 0, 1, 0, 0. -/
theorem test_owwbyte_order :
    busHistory (after (.owwbyte 0x2D#8) (onDevices [])).bus =
      [.write true, .write false, .write true, .write true, .write false, .write true, .write false, .write false] := by
  decide +kernel

/-- V-BIT-12: the answers 1, 0, 1, 1, 0, 1, 0, 0 give 0x2D. -/
theorem test_owrbyte_order :
    (after .owrbyte (onLine (.script [true, false, true, true, false, true, false, false]))).data = 0x2D#8 := by
  decide +kernel
/-- V-BIT-13: an empty bus reads 0xFF. -/
theorem test_owrbyte_empty : (after .owrbyte (onDevices [])).data = 0xFF#8 := by decide +kernel

/-- V-CRC-12: from 0xDE, the byte 0x01 gives 0x16. -/
theorem test_crc8_fold : (after (.crc8 0x01#8) { onDevices [] with crc := 0xDE#8 }).crc = 0x16#8 := by decide +kernel
/-- V-CRC-1: "123456789" gives 0xA1. -/
theorem test_crc8_check_value : crcBytes 0x00#8 (ascii "123456789") = 0xA1#8 := by decide +kernel

/-- V-SRCH-9: SRCHINIT from SEARCH = 0x00000209. -/
theorem test_srchinit :
    (let t := after .srchinit { onDevices [] with ss := ⟨9, 2, false⟩, found := true, rom := addrB }
     (regRead .search t, t.found, regRead .romhi t)) = (0x00000000#32, false, 0xB9000000#32) := by decide +kernel

/-- V-SRCH-2, first call: B is found before A and C; LD = 9, LFD = 2. -/
theorem test_srchnext_first :
    (let t := after .srchnext (onDevices [dev addrA [], dev addrB [], dev addrC []])
     (regRead .search t, regRead .romlo t, t.bus.history.length)) = (0x00000209#32, 0x0000022D#32, 201) := by
  decide +kernel
/-- V-SRCH-5b: the bus goes idle at position 5. -/
theorem test_srchnext_idle :
    (let t := after .srchnext (onLine (.script
       [false, true, false, false, true, true, false, true, false, true, true]))
     (t.err, t.found, regRead .romlo t, t.bus.history.length)) = (.eBusIdleDuringSearch, false, 0x0000000D#32, 23) := by
  decide +kernel

/-- V-SRCH-8: A is kept, the pass for X fails. -/
theorem test_enum_keeps_found :
    (let t := after .enum (onDevices [dev addrA [], dev addrX []])
     (t.err, regRead .devcount t, regRead (.devtab 0 true) t, regRead .search t)) =
      (.eChecksumMismatch, 0x00000001#32, 0xE0000000#32, 0x00000000#32) := by decide +kernel
/-- V-SRCH-2: the enumeration's order, its last entry and SEARCH. -/
theorem test_enum_order :
    (let t := after .enum (onDevices [dev addrA [], dev addrB [], dev addrC []])
     (t.devtab[0], t.devtab[1], t.devtab[2], regRead .search t)) = (addrB, addrA, addrC, 0x00010200#32) := by
  decide +kernel

/-- V-MEM-1: ATTEMPTS, a word of RECBUF, the events of two passes. -/
theorem test_memrd_reads :
    (let t := after (.memrd 0) (withEntry addrA (onDevices [dev addrA cpuBytes]))
     (regRead .memdiag t, regRead (.recbuf 1) t, t.bus.history.length)) = (0x00000001#32, 0x20545345#32, 706) := by
  decide +kernel
/-- V-MEM-8: the addressed device is absent, another answers presence. -/
theorem test_memrd_absent :
    (let t := after (.memrd 0) (withEntry addrA (onDevices [dev addrC cpuBytes]))
     (t.err, regRead (.recbuf 7) t)) = (.eNone, 0xFFFFFFFF#32) := by decide +kernel

/-- V-DEC-2: the mapping byte 'B' swaps revision id and bom revision. -/
theorem test_decode_swap :
    (let t := after .decode { onDevices [] with recbuf := recordOf swapBytes }
     (regRead .ident0 t, regRead .ident1 t)) = (0x42020501#32, 0x00004333#32) := by decide +kernel
/-- V-DEC-12: both names are unknown. -/
theorem test_decode_board_first : (after .decode (onDevices [])).err = .eUnknownBoardName := by decide +kernel

/-- V-ID-2: one board, end to end. -/
theorem test_identify_one_board :
    (let t := after .identify (onDevices [dev addrA cpuBytes])
     (regRead .serial t, regRead .revision t, regRead .iddiag t, t.bus.history.length)) =
      (0x04500000#32, 0x00200400#32, 0x016FFFF0#32, 907) := by decide +kernel
/-- V-ID-6: an empty bus falls back to the default words. -/
theorem test_identify_empty :
    (let t := after .identify (onDevices [])
     (regRead .status t, regRead .serial t, regRead .iddiag t)) = (0x00000B62#32, 0x11112222#32, 0x000FFFFF#32) := by
  decide +kernel

/-! ## Host accesses and engine steps -/

/-- V-REG-7: a write to CMD while an OWRESET runs sets OVR; then the OWRESET completes with STATUS = 0x16. -/
theorem test_overrun :
    regRead .status (stepped (stepped (busyState [.access (.write 0x00 4 0x00000003#32), .engine]))) = 0x00000016#32 := by
  decide +kernel

/-- V-REG-5: a write to CRC keeps bits 7..0. -/
theorem test_write_crc :
    regRead .crc (stepped { onDevices [] with pending := [.access (.write 0x0C 4 0x000001FF#32)] }) = 0x000000FF#32 := by
  decide +kernel

/-- P1's text, in part, is assembled to its words. -/
theorem test_assemble :
    assembleText RomCommands.default "crcclr ; clear\ngood: crc8 0x2D\n rd CRC -> c\n br c, 0xFF, 0x00, good\n halt" =
      some [.wr 0x0C 0#32, .label "good", .wr 0x00 0x00002D06#32, .poll, .rd 0x0C "c", .br "c" 0xFF#32 0x00#32 "good",
        .halt] := by decide +kernel
/-- R117: an operand out of range is an assembly error. -/
theorem test_assemble_error : assembleText RomCommands.default "memrd 8" = none := by decide +kernel

/-- P6's form: a host program with no presence check runs to its end, on an empty bus, and reads 0xFF. -/
theorem test_host_program :
    (match hostRun 8
        { host := { prog := (assemble RomCommands.default [.owreset, .owrbyte, .host (.rd 0x08 "b0"), .host .halt]).getD []
                    whole := true, gaps := [], pos := 0, names := [], halted := false, failed := false }
          owid := onDevices [] } with
      | .next x => (x.host.halted, x.host.names, regRead .status x.owid)
      | .fault _ => (false, [], 0#32)
      | .refused _ => (false, [], 0#32)) = (true, [("b0", 0x000000FF#32)], 0x00000002#32) := by decide +kernel

/-- R295: an agent that runs commands step by step and does not poll loses the second command, and OVR says so. -/
theorem test_host_overrun :
    (match hostRun 2
        { host := { prog := [.wr 0x00 0x00000005#32, .wr 0x00 0x00000001#32]
                    whole := false, gaps := [0, 3], pos := 0, names := [], halted := false, failed := false }
          owid := onDevices [] } with
      | .next x => (x.owid.busy, x.owid.ovr, x.owid.cmdLast, x.owid.bus.history.length)
      | .fault _ => (false, false, 0#32, 0)
      | .refused _ => (false, false, 0#32, 0)) = (true, true, 0x00000005#32, 3) := by decide +kernel

/-! ## Witnesses: for every statement with hypotheses, a state and operands that meet them

Each theorem names its statement; several clauses have a case each, at the boundary values of their ranges. -/

/-- The state with these turns to come. -/
def turning (turns : List Turn) : State := { onDevices [dev addrA cpuBytes] with pending := turns }

theorem witness_DecodeOfEncodeIsTheCommand : (Instr.memrd 7).wf = true ∧ (Instr.memrd 0).wf = true := by decide

theorem witness_DecodedWordIsItsEncoding :
    decodeWord 0x00000720#32 = some (.memrd 7) ∧ decodeWord 0x0000FF04#32 = some (.owwbyte 0xFF#8) := by decide +kernel

theorem witness_StepRunsTheWrittenCommand :
    ((turning [.access (.write 0x00 4 0x00000031#32)]).pending = .access (.write 0x00 4 0x00000031#32) :: [] ∧
      (turning [.access (.write 0x00 4 0x00000031#32)]).inReset = false ∧
      (turning [.access (.write 0x00 4 0x00000031#32)]).engine = .idle ∧
      decodeWord 0x00000031#32 = some .identify) ∧
    decodeTableWord 32 0x00000720 = some (.memrd 7) := by
  refine ⟨⟨rfl, rfl, rfl, ?_⟩, ?_⟩ <;> decide +kernel

theorem witness_AcceptanceAndCompletionFields :
    (turning [.issue 0x00000012#32]).pending = .issue 0x00000012#32 :: [] ∧
    (turning [.issue 0x00000012#32]).inReset = false ∧ (turning [.issue 0x00000012#32]).engine = .idle ∧
    decodeWord 0x00000012#32 = some .enum := by
  refine ⟨rfl, rfl, rfl, ?_⟩; decide +kernel

theorem witness_IllegalWordCompletesAtOnce :
    ((turning [.access (.write 0x00 4 0x00000000#32)]).pending = .access (.write 0x00 4 0x00000000#32) :: [] ∧
      (turning [.issue 0x00010001#32]).pending = .issue 0x00010001#32 :: [] ∧
      (turning [.issue 0x00010001#32]).inReset = false ∧ (turning [.issue 0x00010001#32]).engine = .idle ∧
      decodeWord 0x00000000#32 = none ∧ decodeWord 0x00010001#32 = none) ∧
    (State.reset.engine = .idle ∧ State.reset.bus.present = false ∧ State.reset.found = false ∧
      State.reset.ovr = false ∧ State.reset.idValid = false ∧ State.reset.defaults = false) := by
  refine ⟨⟨rfl, rfl, rfl, rfl, ?_, ?_⟩, rfl, rfl, rfl, rfl, rfl, rfl⟩ <;> decide +kernel

/-- The offsets 0x00, 0x0C (busy), 0x04, and of the ignored ones the first, the last and a reserved one; and a write to CMD by the
turn `issue`. -/
theorem witness_WritesThatAcceptNoCommand :
    (∀ off ∈ [0x00, 0x0C, 0x04, 0x08, 0x8C, 0xFC],
      (busyState [.access (.write off 4 0x12#32)]).pending = .access (.write off 4 0x12#32) :: [] ∧
      (busyState [.access (.write off 4 0x12#32)]).inReset = false ∧ off % 4 = 0 ∧ off < 0x100 ∧
      (busyState [.access (.write off 4 0x12#32)]).busy = true) ∧
    (busyState [.issue 0x12#32]).pending = .issue 0x12#32 :: [] ∧ (busyState [.issue 0x12#32]).inReset = false ∧
    (busyState [.issue 0x12#32]).busy = true := by
  refine ⟨?_, rfl, rfl, rfl⟩
  intro off h
  simp only [List.mem_cons, List.not_mem_nil, or_false] at h
  rcases h with rfl | rfl | rfl | rfl | rfl | rfl <;> exact ⟨rfl, rfl, rfl, by decide, rfl⟩

theorem witness_IdleWriteLoadsCrc :
    (turning [.access (.write 0x0C 4 0x1FF#32)]).pending = .access (.write 0x0C 4 0x1FF#32) :: [] ∧
    (turning [.access (.write 0x0C 4 0x1FF#32)]).inReset = false ∧
    (turning [.access (.write 0x0C 4 0x1FF#32)]).engine = .idle := ⟨rfl, rfl, rfl⟩

/-- The offsets 0x00, 0x8C and 0xFC. -/
theorem witness_IdleReadsHaveNoSideEffect : ∀ off ∈ [0x00, 0x8C, 0xFC],
    (turning [.access (.read off 4)]).pending = .access (.read off 4) :: [] ∧
    (turning [.access (.read off 4)]).inReset = false ∧ (turning [.access (.read off 4)]).engine = .idle ∧
    off % 4 = 0 ∧ off < 0x100 := by
  intro off h
  simp only [List.mem_cons, List.not_mem_nil, or_false] at h
  rcases h with rfl | rfl | rfl <;> exact ⟨rfl, rfl, rfl, rfl, by decide⟩

/-- The offsets 0x04, 0x00 and 0xFC; bits 0, 4 and 31. -/
theorem witness_ReadsWhileBusyAreFree : ∀ off ∈ [0x04, 0x00, 0xFC],
    (busyState [.access (.read off 4)]).pending = .access (.read off 4) :: [] ∧
    (busyState [.access (.read off 4)]).inReset = false ∧ (busyState [.access (.read off 4)]).busy = true ∧
    off % 4 = 0 ∧ off < 0x100 ∧ (31 < 32 ∧ (off ≠ 0x04 ∨ (31 ≠ 0 ∧ 31 ≠ 4))) := by
  intro off h
  simp only [List.mem_cons, List.not_mem_nil, or_false] at h
  rcases h with rfl | rfl | rfl <;> exact ⟨rfl, rfl, rfl, rfl, by decide, by decide⟩

theorem witness_UnalignedAccessIsRefused :
    ((1 ≠ 4 ∨ 0x00 % 4 ≠ 0) ∧ (turning [.access (.read 0x00 1)]).pending = .access (.read 0x00 1) :: []) ∧
    ((4 ≠ 4 ∨ 0x02 % 4 ≠ 0) ∧ (turning [.access (.write 0x02 4 0#32)]).pending = .access (.write 0x02 4 0#32) :: []) ∧
    exampleCfg.base % 4 = 0 ∧ offsetOfAddress exampleCfg 0xFF = some 0xFF ∧ (4 ≠ 4 ∨ 0xFF % 4 ≠ 0) ∧
    (turning [.access (.read 0xFF 4)]).pending = .access (.read 0xFF 4) :: [] := by
  exact ⟨⟨by decide, rfl⟩, ⟨by decide, rfl⟩, by decide, by decide, by decide, rfl⟩

theorem witness_AccessOutsideTheBlock :
    offsetOfAddress { exampleCfg with base := 0x1000 } 0x10FF = some 0xFF ∧
    offsetOfAddress { exampleCfg with base := 0x1000 } 0x1100 = none ∧ 0x100 ≤ 0x100 ∧ 0x100 % 4 = 0 ∧
    (turning [.access (.read 0x100 4)]).pending = .access (.read 0x100 4) :: [] ∧
    (turning [.access (.write 0x100 4 0#32)]).pending = .access (.write 0x100 4 0#32) :: [] := by
  refine ⟨?_, ?_, ?_, ?_, rfl, rfl⟩ <;> decide +kernel

theorem witness_StepAnswersForLegalAccesses :
    AccessesLegal (turning [.access (.read 0xFC 4), .engine, .access (.write 0x00 4 1#32)]) := by
  intro a h
  simp only [turning, List.mem_cons, List.not_mem_nil, or_false, Turn.access.injEq] at h
  rcases h with rfl | h | rfl
  · rfl
  · cases h
  · rfl

/-- A legal state at the upper ends of the ranges. -/
def fullState : State :=
  { onDevices [] with ss := ⟨64, 8, false⟩, count := 5, full := true, attempts := 10, okcount := 5, found := true }

theorem witness_SearchAndCountLayout : fullState.Legal :=
  ⟨⟨by decide, by decide, by decide⟩, by decide, fun i h hi => absurd h (by simp [fullState] at hi; omega), .inl rfl,
    by decide, by decide, by decide, rfl, by decide, by decide, by intro _ _ _ h; cases h⟩

theorem witness_StatusWordLayout :
    (ErrCode.eNone, 0x0#4) ∈ errorCodes ∧ (onDevices []).err = .eNone ∧ (ErrCode.eNotProcessed, 0xF#4) ∈ errorCodes ∧
    ({ onDevices [] with err := .eNotProcessed }).err = .eNotProcessed := by decide

theorem witness_IdentityWordsLayout :
    fullState.okcount ≤ 5 ∧ (ErrCode.eNone, 0x0#4) ∈ errorCodes ∧ fullState.deverr[0] = .eNone ∧
    (ErrCode.eNotProcessed, 0xF#4) ∈ errorCodes ∧
    ({ fullState with deverr := Vector.replicate 5 .eNotProcessed }).deverr[4] = .eNotProcessed := by decide

theorem witness_AccessorRegistersSliceTheWords :
    (0x88, 0, 5, 0, 15) ∈ [(0x80, 20, 25, 10, 21), (0x84, 10, 15, 5, 18), (0x88, 0, 5, 0, 15)] := by decide

theorem witness_ResetInputFromAnyState :
    (busyState [.resetPin true]).pending = .resetPin true :: [] ∧
    (busyState [.resetPin false]).pending = .resetPin false :: [] := ⟨rfl, rfl⟩

theorem witness_NothingIsServedInReset :
    ({ turning [.access (.write 0x00 4 1#32)] with inReset := true }).inReset = true ∧ 0xFC % 4 = 0 ∧ 0xFC < 0x100 ∧
    ({ turning [.issue 1#32] with inReset := true }).pending = .issue 1#32 :: [] ∧
    ({ turning [.engine] with inReset := true }).pending = .engine :: [] ∧
    ({ turning [.access (.read 0xFC 4)] with inReset := true }).pending = .access (.read 0xFC 4) :: [] ∧
    ({ turning [] with inReset := true }).pending = [] := by
  exact ⟨rfl, rfl, by decide, rfl, rfl, rfl, rfl⟩

theorem witness_IdleEngineHoldsItsState :
    (turning [.engine]).engine = .idle ∧ (turning [.engine]).pending = .engine :: [] ∧ (turning []).engine = .idle ∧
    (turning []).pending = [] := ⟨rfl, rfl, rfl, rfl⟩

/-- A script with a level left, and ideal devices, attached and none. -/
theorem witness_OwresetReportsPresence :
    (onLine (.script [false])).bus.line = .script (false :: []) ∧
    (onDevices []).bus.line = .devices RomCommands.default [] ∧
    (onDevices [dev addrA []]).bus.line = .devices RomCommands.default [dev addrA []] := ⟨rfl, rfl, rfl⟩

theorem witness_OwwbitWritesOneBit : (onLine (.script [true])).bus.line = .script [true] := rfl

theorem witness_OwrbitReadsOneBit :
    (onLine (.script [true])).bus.line = .script (true :: []) ∧
    (onDevices [dev addrA []]).bus.line = .devices RomCommands.default [dev addrA []] ∧
    (∀ d ∈ [dev addrA []], deviceLevel d = true) := by
  refine ⟨rfl, rfl, ?_⟩; decide +kernel

theorem witness_OwrbyteReadsLsbFirst :
    (onLine (.script [true, false, true, true, false, true, false, false])).bus.line =
      .script (true :: false :: true :: true :: false :: true :: false :: false :: []) ∧
    (onDevices [dev addrA []]).bus.line = .devices RomCommands.default [dev addrA []] ∧
    (∀ d ∈ [dev addrA []], d.phase = .inactive) := by
  refine ⟨rfl, rfl, ?_⟩; decide +kernel

theorem witness_SlotAndPassDurations :
    Timing.default.wf = true ∧ (List.replicate 64 (PairRead.mk false true false)).length = 64 := by decide +kernel

theorem witness_SrchnextNoMoreDevices :
    ({ onDevices [] with ss := ⟨0, 2, true⟩ }).ss.ldf = true ∧
    ({ onDevices [] with ss := ⟨0, 2, true⟩, cfg := { exampleCfg with noMoreResetsState := true } }).ss.ldf = true :=
  ⟨rfl, rfl⟩

/-- A pass state whose line answers this pair next. -/
def passAt (id cmp : Bool) : PassState :=
  { lastZero := 0, crc := 0x00#8, lfd := 0, rom := addrB, bus := { Bus.reset with line := .script [id, cmp] } }

/-- Positions 64 (n = 0) and 1 (n = 63); each pair; at (0,0) the positions below, at and above LD = 9; the stored address. -/
theorem witness_SearchPositionByReadPair :
    (0 < 64 ∧ 63 < 64) ∧
    (∀ id cmp : Bool, (passAt id cmp).bus.line = .script (id :: cmp :: [])) ∧
    (∀ pos ∈ [2, 9, 10], ∃ (dir zero : Bool) (rom : Address), ¬ (false = true ∧ false = true) ∧
      dir = (if false ≠ false then false
        else if 64 - (64 - pos) < 9 then (passAt false false).rom.getLsbD (64 - (64 - pos) - 1)
        else if 64 - (64 - pos) = 9 then true
        else false) ∧
      zero = (false == false && !dir) ∧
      (∀ i, i < 64 → rom.getLsbD i =
        if i = 64 - (64 - pos) - 1 then dir else (passAt false false).rom.getLsbD i)) := by
  refine ⟨by decide, fun _ _ => rfl, ?_⟩
  intro pos h
  have hp : 64 - (64 - pos) = pos := by
    simp only [List.mem_cons, List.not_mem_nil, or_false] at h
    omega
  exact ⟨_, _, setAddrBit (passAt false false).rom (64 - (64 - pos)) _, by simp, rfl, rfl, fun i hi =>
    setAddrBit_getLsbD _ _ i hi⟩

theorem witness_SrchnextOutcomeAndFrame :
    (onLine (.script [true])).ss.legal ∧ (onLine (.script [true])).bus.line = .script (true :: []) ∧
    (onDevices []).bus.line = .devices RomCommands.default [] ∧ (onDevices []).ss.ldf = false ∧ fullState.ss.legal :=
  ⟨⟨by decide, by decide, by decide⟩, rfl, rfl, rfl, ⟨by decide, by decide, by decide⟩⟩

/-- A pass that ends in each way: at its reset, at an idle pair at position 1 and later, with a CRC that is not 0, with the zero
address, and with a device. -/
theorem witness_SrchnextFollowsThePairsItReads :
    (fullState.ss.legal ∧ fullState.ss.ldf = false) ∧
    [onLine (.script [true]), onLine (.script [false, true, true]), onLine (.script [false, true, false, true, true]),
      onDevices [dev addrX []], onDevices [dev 0#64 []], onDevices [dev addrA []]].map (fun s => (after .srchnext s).err) =
      [.eBusResetTimeout, .eSearchNoResponse, .eBusIdleDuringSearch, .eChecksumMismatch, .eZeroAddress, .eNone] := by
  refine ⟨⟨⟨by decide, by decide, by decide⟩, rfl⟩, ?_⟩
  decide +kernel

theorem witness_SearchPassEvents : fullState.ss.legal ∧ fullState.ss.ldf = false :=
  ⟨⟨by decide, by decide, by decide⟩, rfl⟩

/-- An enumeration ended by an error (COUNT = 1, V-SRCH-8), and one with no room left (COUNT = 5). -/
theorem witness_EnumOutcomeAndFrame :
    ((after .enum (onDevices [dev addrA [], dev addrX []])).err ≠ .eNone ∧
      (after .enum (onDevices [dev addrA [], dev addrX []])).count = 1) ∧
    (after .enum (onDevices ([0x3D00000000000001#64, 0x7A00000000000002#64, 0x4700000000000003#64, 0xF400000000000004#64,
      0xC900000000000005#64].map (dev · [])))).count = 5 := by
  decide +kernel

/-- No device; and the three devices of V-SRCH-2, whose order is B, A, C. -/
theorem witness_EnumFindsDevicesInKeyOrder :
    (onDevices []).bus.line = .devices RomCommands.default [] ∧
    RomCommands.default.searchRom = (onDevices []).cfg.cmds.searchRom ∧
    (onDevices [dev addrA [], dev addrB [], dev addrC []]).bus.line =
      .devices RomCommands.default [dev addrA [], dev addrB [], dev addrC []] ∧
    (∀ d ∈ [dev addrA [], dev addrB [], dev addrC []], ValidAddress d.addr) ∧
    ([dev addrA [], dev addrB [], dev addrC []].map (·.addr)).Perm [addrB, addrA, addrC] ∧
    keysRise [addrB, addrA, addrC] ∧ keysRise [] := by
  refine ⟨rfl, rfl, rfl, ?_, List.Perm.swap _ _ _, ?_, List.Pairwise.nil⟩
  · intro d h
    simp only [List.mem_cons, List.not_mem_nil, or_false] at h
    rcases h with rfl | rfl | rfl <;> exact ⟨by decide, by decide +kernel⟩
  · unfold keysRise; decide +kernel

theorem witness_OnlyMemrdHasBadOperands :
    (onDevices []).count ≤ 0 ∧ fullState.count ≤ 5 ∧
    exec (.memrd 0) (onDevices []) = .next (after (.memrd 0) (onDevices [])) ∧
    (after (.memrd 0) (onDevices [])).err = .eBadOperand := ⟨by decide, by decide, rfl, rfl⟩

theorem witness_MemrdUnsupportedFamily :
    0 < (withEntry addrU (onDevices [])).count ∧ (withEntry addrU (onDevices [])).devtab[0]? = some addrU ∧
    addrU.extractLsb' 0 8 ∉ (withEntry addrU (onDevices [])).cfg.families := by
  refine ⟨by decide, rfl, ?_⟩; decide +kernel

/-- Two different records. -/
def pairsOf (k : Nat) : List (Record × Record) := List.replicate k (recordOf cpuBytes, recordOf swapBytes)

theorem pairsOf_ne (k : Nat) : ∀ p ∈ pairsOf k, p.1 ≠ p.2 := by
  intro p h
  rw [List.eq_of_mem_replicate h]
  intro e
  have e' : recordOf cpuBytes = recordOf swapBytes := e
  have : (recordOf cpuBytes)[28] = (recordOf swapBytes)[28] := by rw [e']
  revert this
  decide +kernel

/-- No attempt and nine attempts before, in the first and in the second pass. -/
theorem witness_MemrdStopsAtResetFailure : ∀ k ∈ [0, 9], ∀ mid ∈ [[], passLevels (recordOf cpuBytes)],
    ∃ s : State, 0 < s.count ∧ s.devtab[0]? = some addrA ∧ addrA.extractLsb' 0 8 ∈ s.cfg.families ∧
      (pairsOf k).length < 10 ∧ (∀ p ∈ pairsOf k, p.1 ≠ p.2) ∧ (mid = [] ∨ ∃ r, mid = passLevels r) ∧
      s.bus.line = .script ((pairsOf k).flatMap attemptLevels ++ mid ++ true :: []) := by
  intro k hk mid hm
  refine ⟨withEntry addrA (onLine (.script ((pairsOf k).flatMap attemptLevels ++ mid ++ true :: []))), ?_, rfl, ?_, ?_,
    pairsOf_ne k, ?_, rfl⟩
  · show 0 < 1
    decide
  · show addrA.extractLsb' 0 8 ∈ exampleCfg.families
    decide +kernel
  · simp only [List.mem_cons, List.not_mem_nil, or_false] at hk
    simp only [pairsOf, List.length_replicate]
    omega
  · simp only [List.mem_cons, List.not_mem_nil, or_false] at hm
    rcases hm with rfl | rfl
    · exact .inl rfl
    · exact .inr ⟨_, rfl⟩

/-- k = 0 and k = 9, which succeed, and k = 10, which does not. -/
theorem witness_MemrdRetriesUntilTwoPassesAgree : ∀ k ∈ [0, 9, 10],
    ∃ s : State, 0 < s.count ∧ s.devtab[0]? = some addrA ∧ addrA.extractLsb' 0 8 ∈ s.cfg.families ∧
      (∀ p ∈ pairsOf k, p.1 ≠ p.2) ∧
      ((pairsOf k).length ≤ 9 ∧
          s.bus.line = .script ((pairsOf k).flatMap attemptLevels ++
            attemptLevels (recordOf cpuBytes, recordOf cpuBytes) ++ []) ∨
        (pairsOf k).length = 10 ∧ s.bus.line = .script ((pairsOf k).flatMap attemptLevels ++ [])) := by
  intro k hk
  simp only [List.mem_cons, List.not_mem_nil, or_false] at hk
  have hf : addrA.extractLsb' 0 8 ∈ exampleCfg.families := by decide +kernel
  by_cases h : k = 10
  · subst h
    exact ⟨withEntry addrA (onLine (.script ((pairsOf 10).flatMap attemptLevels ++ []))), Nat.zero_lt_one, rfl, hf, pairsOf_ne 10,
      .inr ⟨by simp [pairsOf], rfl⟩⟩
  · exact ⟨withEntry addrA (onLine (.script ((pairsOf k).flatMap attemptLevels ++
      attemptLevels (recordOf cpuBytes, recordOf cpuBytes) ++ []))), Nat.zero_lt_one, rfl, hf, pairsOf_ne k,
      .inl ⟨by simp only [pairsOf, List.length_replicate]; omega, rfl⟩⟩

theorem witness_MemrdReadsTheAddressedDevice :
    (withEntry addrA (onDevices [dev addrC [], dev addrA cpuBytes])).bus.line =
      .devices RomCommands.default [dev addrC [], dev addrA cpuBytes] ∧
    RomCommands.default.matchRom ≠ RomCommands.default.searchRom ∧
    ([dev addrC [], dev addrA cpuBytes].map (·.addr)).Nodup ∧ dev addrA cpuBytes ∈ [dev addrC [], dev addrA cpuBytes] ∧
    0 < (withEntry addrA (onDevices [])).count ∧ (withEntry addrA (onDevices [])).devtab[0]? = some (dev addrA cpuBytes).addr ∧
    (dev addrA cpuBytes).addr.extractLsb' 0 8 ∈ exampleCfg.families := by
  refine ⟨rfl, ?_, ?_, by simp, by decide, rfl, ?_⟩ <;> decide +kernel

/-- The name of record rCPU is not begun by "TM43"; its first board entry is the first of the catalog, and that of "SAM9X25-EK"
(V-DEC-14) the second. -/
theorem witness_DecodeLooksUpFirstMatches :
    (∀ e ∈ [(⟨ascii "TM43", 2#8, 3#8⟩ : BoardEntry)], ¬ e.name <+: ascii "SAM9X25-CM") ∧
    FirstBoard exampleCfg.boardCatalog (ascii "SAM9X25-CM") ⟨ascii "SAM9X25-CM", 1#8, 5#8⟩ ∧
    FirstBoard exampleCfg.boardCatalog (ascii "SAM9X25-EK") ⟨ascii "SAM9X25", 1#8, 4#8⟩ ∧
    (∀ e ∈ exampleCfg.vendorCatalog, ¬ e.name <+: ascii "ACME") ∧
    FirstVendor exampleCfg.vendorCatalog (ascii "EMBEST") ⟨ascii "EMBEST", 2#8⟩ := by
  refine ⟨by decide +kernel, ⟨[], _, rfl, by decide +kernel, by simp⟩,
    ⟨[⟨ascii "SAM9X25-CM", 1#8, 5#8⟩], _, rfl, by decide +kernel, by decide +kernel⟩, by decide +kernel,
    ⟨[], _, rfl, by decide +kernel, by simp⟩⟩

/-- Two records that differ in bytes 0, 12, 25, 26 and 31 only. -/
theorem witness_DecodeIgnoresUnusedBytes :
    ∀ j (h : j < 32), recordByteUsed j = true →
      (recordOf cpuBytes)[j] =
        (recordOf (((((cpuBytes.set 0 1#8).set 12 2#8).set 25 3#8).set 26 4#8).set 31 5#8))[j] := by
  have hall : ∀ j : Fin 32, recordByteUsed j.val = true →
      (recordOf cpuBytes)[j] =
        (recordOf (((((cpuBytes.set 0 1#8).set 12 2#8).set 25 3#8).set 26 4#8).set 31 5#8))[j] := by decide +kernel
  exact fun j h => hall ⟨j, h⟩

theorem witness_RevisionCharactersNormalise :
    (0x41#8 ≤ 0x5A#8 ∧ 0x61#8 ≤ 0x7A#8 ∧ ¬ (0x61#8 ≤ 0x7B#8 ∧ 0x7B#8 ≤ 0x7A#8) ∧ ¬ (0x41#8 ≤ 0x40#8)) ∧
    (recordOf swapBytes)[30] = 0x42#8 ∧ (recordOf cpuBytes)[30] ≠ 0x42#8 := by decide +kernel

/-- Ids at both ends, revision codes 'A' and 'Z', revision ids '0' and '9'. -/
theorem witness_FoldReadsBackThroughAccessors :
    [(Role.display, (⟨2#8, 0#8, 31#8, 0x5A#8, 0x39#8, 0#8⟩ : Identity)), (.cpu, ⟨1#8, 31#8, 0#8, 0x41#8, 0x30#8, 0#8⟩),
        (.carrier, ⟨3#8, 7#8, 4#8, 0x42#8, 0x31#8, 0#8⟩)].Perm
      [(.cpu, ⟨1#8, 31#8, 0#8, 0x41#8, 0x30#8, 0#8⟩), (.display, ⟨2#8, 0#8, 31#8, 0x5A#8, 0x39#8, 0#8⟩),
        (.carrier, ⟨3#8, 7#8, 4#8, 0x42#8, 0x31#8, 0#8⟩)] ∧
    (∀ d ∈ [(⟨1#8, 31#8, 0#8, 0x41#8, 0x30#8, 0#8⟩ : Identity), ⟨2#8, 0#8, 31#8, 0x5A#8, 0x39#8, 0#8⟩,
        ⟨3#8, 7#8, 4#8, 0x42#8, 0x31#8, 0#8⟩],
      d.boardId < 0x20#8 ∧ d.vendorId < 0x20#8 ∧ 0x41#8 ≤ d.revCode ∧ d.revCode ≤ 0x5A#8 ∧ 0x30#8 ≤ d.revId ∧
        d.revId ≤ 0x39#8) := by
  exact ⟨List.Perm.swap _ _ _, by decide +kernel⟩

/-- The identity of a CPU board, and one of role 9. -/
def cpuIdentity : Identity := ⟨1#8, 5#8, 2#8, 0x42#8, 0x31#8, 0x41#8⟩

/-- Both values of DEFAULTS (V-AGG-1, V-AGG-7, V-AGG-8), a missing role and one that is present. -/
theorem witness_FallbackAndMissingRoles :
    (aggregate exampleCfg [.ok cpuIdentity, .error .eUnknownVendorName]).defaults = false ∧
    (aggregate exampleCfg []).defaults = true ∧
    (aggregate exampleCfg [.ok cpuIdentity, .ok { cpuIdentity with role := 9#8 }]).defaults = true ∧
    (aggregate exampleCfg [.ok cpuIdentity]).missing.getLsbD 2 = true ∧
    (aggregate exampleCfg [.ok cpuIdentity]).missing.getLsbD 0 = false := by decide +kernel

/-- Two boards, the first of role 9. -/
def role9First : State :=
  onDevices [dev addrA (cpuLow.take 13 ++ ascii "ROLE9 SAM9X25-" ++ cpuBytes.drop 27), dev addrC cpuBytes]

/-- As in V-ID-5: the first outcome is fatal (n = 1 < COUNT = 2), the second device is not read: H = 402 + 706. -/
theorem witness_IdentifyOutcomeAndFrame :
    exec .enum role9First = .next (after .enum role9First) ∧ (after .enum role9First).count = 2 ∧
    outcomeFatal (deviceOutcome 0 (after .enum role9First)).1 = true ∧
    (after .identify role9First).bus.history.length = 1108 := by
  refine ⟨rfl, ?_⟩
  decide +kernel

theorem witness_IdentifyRefinesAggregate :
    exec .enum (onDevices [dev addrA cpuBytes]) = .next (after .enum (onDevices [dev addrA cpuBytes])) := rfl

theorem witness_IdentifyDeviceCodes :
    exec .enum (onDevices []) = .next (after .enum (onDevices [])) := rfl

theorem witness_StepKeepsLegalStates :
    fullState.Legal ∧ step { fullState with pending := [.engine] } = .next (stepped { fullState with pending := [.engine] }) :=
  ⟨witness_SearchAndCountLayout, rfl⟩

theorem witness_ParametersNeverChange :
    step (turning [.resetPin true]) = .next (stepped (turning [.resetPin true])) ∧
    exec .identify (onDevices []) = .next (after .identify (onDevices [])) := ⟨rfl, rfl⟩

theorem witness_OnlyIdentifyWritesTheIdentityWords :
    step (turning [.access (.write 0x00 4 0x00000012#32)]) = .next (stepped (turning [.access (.write 0x00 4 0x00000012#32)])) ∧
    ¬ RunsIdentify (turning [.access (.write 0x00 4 0x00000012#32)]) ∧
    ¬ AssertsReset (turning [.access (.write 0x00 4 0x00000012#32)]) := by
  refine ⟨rfl, ?_, ?_⟩
  · rintro (⟨start, k, h⟩ | ⟨w, rest, h, hd⟩)
    · cases h
    · injection h with h1 h2
      injection h1 with h1
      injection h1 with h1 h2 h3
      subst h3
      revert hd
      decide +kernel
  · rintro ⟨rest, h⟩
    injection h with h1 h2
    cases h1

theorem witness_EventsPerCommandAreBounded : fullState.ss.legal ∧ fullState.bus.dqOe = false :=
  ⟨⟨by decide, by decide, by decide⟩, rfl⟩

theorem witness_OtherCommandsIgnoreTheSearch : outsideSearch (.memrd 0) = true ∧ outsideSearch .decode = true := by decide

theorem witness_EngineStepsEqualTheAtomicCommand :
    (onDevices [dev addrA []]).engine = .idle ∧ (onDevices [dev addrA []]).inReset = false ∧
    (onDevices [dev addrA []]).pending = [] ∧ decodeWord 0x00000010#32 = some .srchinit ∧
    decodeWord 0x00000011#32 = some .srchnext := by
  refine ⟨rfl, rfl, rfl, ?_, ?_⟩ <;> decide +kernel

end Sys2Proof.Tests
end

section
/-! The legal states through the commands and the turns (10_state.md R32, R35, R38–R46, R51; 60_exceptions.md R260). -/

namespace Sys2Proof.Machine

/-! ## The legal states: what each update needs -/

/-- The initial SearchState is in its ranges (R38, R170). -/
theorem SearchState.init_legal : SearchState.init.legal := ⟨by decide, by decide, by decide⟩

/-- A completion keeps the legal states with every code but `E_NOT_PROCESSED` (R260, R261). -/
theorem State.Legal.finish {s : State} (h : s.Legal) {c : ErrCode} (hc : c ≠ .eNotProcessed) : (finish c s).Legal :=
  { h with err := hc, start := fun _ _ _ he => nomatch he }

theorem State.Legal.setBus {s : State} (h : s.Legal) {b : Bus} (hb : b.dqOe = false) : (setBus b s).Legal :=
  { h with dq := hb }

theorem State.Legal.setPending {s : State} (h : s.Legal) (ts : List Turn) : State.Legal { s with pending := ts } :=
  { h with }

theorem State.Legal.setData {s : State} (h : s.Legal) (v : Byte) : State.Legal { s with data := v } :=
  { h with }

/-- Accepting a command starts it from a released pin (R51, R261). -/
theorem State.Legal.acceptCommand {s : State} (h : s.Legal) (w : Word) (i : Instr) : (acceptCommand w i s).Legal :=
  { h with start := fun _ _ _ he => by cases he; exact h.dq }

/-! ## The legal states through the commands -/

/-- Every command leaves DQ released (R133). -/
theorem commandBody_dqOe (i : Instr) {s : State} (h : s.bus.dqOe = false) : (commandBody i s).2.bus.dqOe = false := by
  obtain ⟨es, he⟩ := commandBody_bus i s
  rw [he]
  exact busReplay_dqOe es h

/-- DECODE always writes a legal identity (R43, R227). -/
theorem decodeBody_ident_legal (s : State) : (decodeBody s).2.ident.legal := by
  obtain ⟨-, ⟨-, -, hcode, hcode', hid, hid'⟩ | ⟨-, -, hzero⟩⟩ := decodeBody_spec s
  · exact .inr ⟨hcode, hcode', hid, hid'⟩
  · exact .inl hzero

theorem memrdBody_ident (i : Nat) (s : State) : (memrdBody i s).2.ident = s.ident := by
  rw [(memrdBody_spec i s).1]

/-- Reading and decoding a device keeps the identity legal (R43). -/
theorem deviceOutcome_ident_legal (i : Nat) {s : State} (h : s.ident.legal) : (deviceOutcome i s).2.ident.legal := by
  have hm := memrdBody_ident i s
  have hd := decodeBody_ident_legal (memrdBody i s).2
  simp only [deviceOutcome]
  split
  · rwa [hm]
  · split
    · exact hd
    · exact hd

/-- IDENTIFY's device loop keeps the identity legal (R43, R236). -/
theorem identifyLoop_ident_legal (n i : Nat) {a : IdentifyState} (h : a.st.ident.legal) :
    (identifyLoop n i a).st.ident.legal := by
  induction n generalizing i a with
  | zero => exact h
  | succ n ih =>
    have ho := deviceOutcome_ident_legal i h
    rw [identifyLoop_outcome]
    split
    · exact ih (i + 1) ho
    · split
      · exact ho
      · exact ih (i + 1) ho

/-- IDENTIFY leaves a legal identity (R43, R236). -/
theorem identifyBody_ident_legal {s : State} (h : s.ident.legal) : (identifyBody s).2.ident.legal := by
  have hl : ∀ a : IdentifyState, (identifyClose a).2.ident = a.st.ident := fun a => by
    unfold identifyClose; split <;> rfl
  simp only [identifyBody, hl]
  exact identifyLoop_ident_legal _ _ h

theorem State.Legal.enumBody {s : State} (h : s.Legal) : (enumBody s).2.Legal := by
  obtain ⟨-, htable, hss, -⟩ := enumBody_spec s
  exact { h with search := hss, count := htable.bound, table := htable.clear, dq := commandBody_dqOe .enum h.dq }

theorem State.Legal.memrdBody {s : State} (h : s.Legal) (idx : Nat) : (memrdBody idx s).2.Legal := by
  obtain ⟨hframe, -, hatt, -⟩ := memrdBody_spec idx s
  have hdq := commandBody_dqOe (.memrd idx) h.dq
  rw [hframe]
  exact { h with attempts := hatt, dq := hdq }

theorem State.Legal.decodeBody {s : State} (h : s.Legal) : (decodeBody s).2.Legal := by
  have hident := decodeBody_ident_legal s
  rw [(decodeBody_spec s).1]
  exact { h with ident := hident }

/-- IDENTIFY keeps the legal states: ENUM's part from its table, the rest from the loop and the way it closes (R236). -/
theorem State.Legal.identifyBody {s : State} (h : s.Legal) : (identifyBody s).2.Legal := by
  obtain ⟨hframe, -, hend, hok, hcount, hdevtab, hss, hatt⟩ := identifyBody_spec s
  have henum := h.enumBody
  have hident := identifyBody_ident_legal h.ident
  have hdq := commandBody_dqOe .identify h.dq
  have hmissing : (Machine.identifyBody s).2.defaults = true → (Machine.identifyBody s).2.missing = 0#3 := by
    rcases hend with ⟨-, hd, -⟩ | ⟨-, -, -, -, hm⟩
    · simp [hd]
    · exact fun _ => hm
  have hcount5 : (Machine.identifyBody s).2.count ≤ 5 := hcount ▸ henum.count
  have htable : TableClear (Machine.identifyBody s).2.count (Machine.identifyBody s).2.devtab := by
    rw [hcount, hdevtab]; exact henum.table
  have hsearch : (Machine.identifyBody s).2.ss.legal := hss ▸ henum.search
  rw [hframe]
  exact { h with
    search := hsearch, count := hcount5, table := htable, ident := hident, attempts := hatt h.attempts
    okcount := Nat.le_trans hok hcount5, dq := hdq, defaults := fun _ => rfl, missing := hmissing }

/-- Every command keeps the legal states. -/
theorem State.Legal.commandBody {s : State} (h : s.Legal) (i : Instr) : (commandBody i s).2.Legal := by
  cases i with
  | enum => exact h.enumBody
  | memrd idx => exact h.memrdBody idx
  | decode => exact h.decodeBody
  | identify => exact h.identifyBody
  | srchinit => exact { h with search := SearchState.init_legal }
  | srchnext =>
    obtain ⟨hld, hlfd, hldf⟩ := h.search
    have hok := (searchNext_spec s.cfg hld hlfd hldf s.rom s.bus).1
    exact { h with search := ⟨hok.legalLd, hok.legalLfd, hok.legalLdf⟩, dq := commandBody_dqOe .srchnext h.dq }
  | crc8 v => exact { h with }
  | owreset => exact h.setBus (commandBody_dqOe .owreset h.dq)
  | owwbit bit => exact h.setBus (commandBody_dqOe (.owwbit bit) h.dq)
  | owwbyte v => exact h.setBus (commandBody_dqOe (.owwbyte v) h.dq)
  | owrbit => exact (h.setBus (commandBody_dqOe .owrbit h.dq)).setData _
  | owrbyte => exact (h.setBus (commandBody_dqOe .owrbyte h.dq)).setData _

/-- A command run to its completion keeps the legal states (R261). -/
theorem State.Legal.completed {s : State} (h : s.Legal) (i : Instr) :
    (Machine.finish (Machine.commandBody i s).1 (Machine.commandBody i s).2).Legal :=
  (h.commandBody i).finish (commandBody_code_processed i s)

/-! ## The legal states through the turns -/

/-- The reset state is legal (R290). -/
theorem State.Legal.reset : State.reset.Legal where
  search := SearchState.init_legal
  count := by decide
  table := fun i hi _ => by simp [State.reset]
  ident := .inl rfl
  attempts := by decide
  okcount := by decide
  err := by decide
  dq := rfl
  defaults := by decide
  missing := by decide
  start := fun _ _ _ he => nomatch he

/-- Both edges of the reset input keep the legal states: asserting it leaves the reset values, which are legal (R291). -/
theorem State.Legal.resetInput {s : State} (h : s.Legal) (asserted : Bool) : (resetInput asserted s).Legal := by
  cases asserted with
  | false => exact { h with }
  | true => exact { State.Legal.reset with }

/-- Every effect a step can have keeps the legal states. -/
theorem State.Legal.stepEffect {s t : State} (h : s.Legal) (e : StepEffect s t) : t.Legal := by
  have hp := h.setPending s.pending.tail
  cases e with
  | quiet => exact hp
  | read v n => exact { h with }
  | status w => exact { h with }
  | crc w hidle => exact { h with }
  | overrun hbusy => exact { h with }
  | illegal w hidle hd => exact { h with err := by simp }
  | start w i hidle hd => exact hp.acceptCommand w i
  | whole w i rest hpend hidle hr hd => exact ((h.setPending rest).acceptCommand w i).completed i
  | engine i start k es he =>
    have hdq := h.start i start k he
    exact { h with dq := busReplay_dqOe es hdq, start := fun _ _ _ he' => by cases he'; exact hdq }
  | complete i start k he hr => exact (hp.setBus (h.start i start k he)).completed i
  | reset asserted rest hpend => exact (h.setPending rest).resetInput asserted

/-- Settles O52: the legal states are an invariant, effect by effect of a step. -/
theorem stepKeepsLegalStates : Obligations.StepKeepsLegalStates := by
  unfold Obligations.StepKeepsLegalStates
  exact fun s t h hstep => h.stepEffect (step_effect hstep)

end Sys2Proof.Machine
end

section
/-! What IDENTIFY leaves in DEVERR (10_state.md R46; 44_identity.md R236, R237), and that nothing but IDENTIFY and reset writes
the identity words, their flags and the items of IDDIAG (10_state.md R35, R44, R46). -/

namespace Sys2Proof.Machine

/-- DEVERR of the device with index `j` of those whose outcomes are `os`: the code of its outcome; the value before, `old`, where
the loop has no such device or has ended at an earlier fatal outcome (R46, R237). -/
def deverrAfter (os : List (Except ErrCode Identity)) (j : Nat) (old : ErrCode) : ErrCode :=
  match os[j]? with
  | none => old
  | some o => if (os.take j).any outcomeFatal then old else outcomeCode o

@[simp] theorem deverrAfter_nil (j : Nat) (old : ErrCode) : deverrAfter [] j old = old := rfl

@[simp] theorem deverrAfter_zero (o : Except ErrCode Identity) (os : List (Except ErrCode Identity)) (old : ErrCode) :
    deverrAfter (o :: os) 0 old = outcomeCode o := rfl

/-- A device that does not end the loop leaves the codes of the later ones to them. -/
theorem deverrAfter_succ {o : Except ErrCode Identity} (h : outcomeFatal o = false) (os : List (Except ErrCode Identity))
    (j : Nat) (old : ErrCode) : deverrAfter (o :: os) (j + 1) old = deverrAfter os j old := by
  simp [deverrAfter, h]

/-- After a fatal outcome no device is processed (R237). -/
theorem deverrAfter_succ_fatal {o : Except ErrCode Identity} (h : outcomeFatal o = true)
    (os : List (Except ErrCode Identity)) (j : Nat) (old : ErrCode) : deverrAfter (o :: os) (j + 1) old = old := by
  simp only [deverrAfter, List.take_succ_cons, List.any_cons, h, Bool.true_or, if_true]
  split <;> rfl

/-- The loop's next device, by whether its outcome is fatal: its code goes to its DEVERR entry either way (R236, R237). -/
theorem identifyLoop_next (n i : Nat) (a : IdentifyState) :
    ∃ b : IdentifyState, b.st = setDeverr i (outcomeCode (deviceOutcome i a.st).1) (deviceOutcome i a.st).2 ∧
      identifyLoop (n + 1) i a = if outcomeFatal (deviceOutcome i a.st).1 then b else identifyLoop n (i + 1) b := by
  rcases ho : deviceOutcome i a.st with ⟨c | d, u⟩
  · exact ⟨_, rfl, identifyLoop_error ho n⟩
  · cases hr : roleOf d.role with
    | none =>
      have hf : outcomeFatal (.ok d) = true := by simp [outcomeFatal, hr]
      exact ⟨_, by simp [outcomeCode, hr], (identifyLoop_fatal ho hr n).trans (if_pos hf).symm⟩
    | some r =>
      have hf : ¬ outcomeFatal (.ok d) = true := by simp [outcomeFatal, hr]
      exact ⟨_, by simp [outcomeCode, hr], (identifyLoop_fold ho hr n).trans (if_neg hf).symm⟩

/-- The device loop leaves the DEVERR entries before its first device (R236). -/
theorem identifyLoop_deverr_before (n i : Nat) (a : IdentifyState) {k : Nat} (h5 : k < 5) (hk : k < i) :
    (identifyLoop n i a).st.deverr[k] = a.st.deverr[k] := by
  induction n generalizing i a with
  | zero => rfl
  | succ n ih =>
    obtain ⟨b, hb, hloop⟩ := identifyLoop_next n i a
    have hkeep : b.st.deverr[k] = a.st.deverr[k] := by
      simp only [hb, setDeverr_deverr, (deviceOutcome_frame i a.st).2]
      exact Vector.getElem_setIfInBounds_ne _ (by omega)
    rw [hloop]
    split
    · exact hkeep
    · rw [ih (i + 1) b (by omega), hkeep]

/-- The device loop writes the outcomes' codes to DEVERR, from its first device on (R236, R237). -/
theorem identifyLoop_deverr (n i : Nat) (a : IdentifyState) (j : Nat) (h : i + j < 5) :
    (identifyLoop n i a).st.deverr[i + j] = deverrAfter (deviceOutcomes n i a.st) j a.st.deverr[i + j] := by
  induction n generalizing i a j with
  | zero => rfl
  | succ n ih =>
    obtain ⟨b, hb, hloop⟩ := identifyLoop_next n i a
    have hdeverr : b.st.deverr = a.st.deverr.setIfInBounds i (outcomeCode (deviceOutcome i a.st).1) := by
      rw [hb, setDeverr_deverr, (deviceOutcome_frame i a.st).2]
    have hos : deviceOutcomes n (i + 1) (deviceOutcome i a.st).2 = deviceOutcomes n (i + 1) b.st := by
      rw [hb, deviceOutcomes_congr n (i + 1) (setDeverr_same i _ _)]
    rw [hloop, deviceOutcomes]
    cases j with
    | zero =>
      have hi : b.st.deverr[i] = outcomeCode (deviceOutcome i a.st).1 := by simp [hdeverr]
      simp only [Nat.add_zero, deverrAfter_zero]
      split
      · exact hi
      · rw [identifyLoop_deverr_before n (i + 1) b _ (Nat.lt_succ_self i), hi]
    | succ j =>
      have hkeep : b.st.deverr[i + (j + 1)] = a.st.deverr[i + (j + 1)] := by
        simp only [hdeverr]
        exact Vector.getElem_setIfInBounds_ne _ (by omega)
      split
      · next hf => rw [deverrAfter_succ_fatal hf, hkeep]
      · next hf =>
        rw [deverrAfter_succ (by simpa using hf), hos, ← hkeep]
        have hnext := ih (i + 1) b j (by omega)
        simp only [Nat.add_assoc, Nat.add_comm 1 j] at hnext
        exact hnext

/-- IDENTIFY's last step leaves DEVERR (R236). -/
@[simp] theorem identifyClose_deverr (a : IdentifyState) : (identifyClose a).2.deverr = a.st.deverr := by
  unfold identifyClose; split <;> rfl

/-- DEVERR after IDENTIFY, from the outcomes of the devices ENUM found: not processed unless the loop reached it (R46, R236). -/
theorem identifyBody_deverr (s : State) {i : Nat} (h : i < 5) :
    (identifyBody s).2.deverr[i] =
      deverrAfter (deviceOutcomes (enumBody s).2.count 0 (enumBody s).2) i .eNotProcessed := by
  have hs : SameInputs { (enumBody s).2 with deverr := Vector.replicate 5 .eNotProcessed } (enumBody s).2 :=
    ⟨rfl, rfl, rfl, rfl, rfl⟩
  have hloop := identifyLoop_deverr (enumBody s).2.count 0
    { st := { (enumBody s).2 with deverr := Vector.replicate 5 .eNotProcessed }
      words := (0#32, 0#32), ok := 0, seen := 0b000#3, fatal := false } i (by omega)
  simp only [Nat.zero_add, Vector.getElem_replicate, deviceOutcomes_congr _ _ hs] at hloop
  simpa only [identifyBody, identifyClose_deverr] using hloop

/-- Settles O51: the loop writes each device's code, up to the first fatal outcome, over `E_NOT_PROCESSED`. -/
theorem identifyDeviceCodes : Obligations.IdentifyDeviceCodes := by
  unfold Obligations.IdentifyDeviceCodes
  intro s u hu
  obtain rfl := exec_next hu
  refine ⟨_, exec_eq .identify s, fun i h => ?_⟩
  have hos : SameInputs (finish (enumBody s).1 (enumBody s).2) (enumBody s).2 := ⟨rfl, rfl, rfl, rfl, rfl⟩
  exact (identifyBody_deverr s h).trans (by rw [← deviceOutcomes_congr _ _ hos]; rfl)

/-! ## Who writes the identity words -/

/-- The items that only IDENTIFY and reset write (R44, R46): SERIAL, REVISION, ID_VALID, DEFAULTS and those of IDDIAG. -/
def identityItems (s : State) : Word × Word × Bool × Bool × Vector ErrCode 5 × BitVec 3 × Nat :=
  (s.serial, s.revision, s.idValid, s.defaults, s.deverr, s.missing, s.okcount)

/-- No command but IDENTIFY writes the identity items. -/
theorem commandBody_identityItems {i : Instr} (h : i ≠ .identify) (s : State) :
    identityItems (commandBody i s).2 = identityItems s := by
  cases i with
  | identify => exact absurd rfl h
  | memrd idx => simp only [commandBody]; rw [(memrdBody_spec idx s).1]; rfl
  | decode => simp only [commandBody]; rw [(decodeBody_spec s).1]; rfl
  | enum => simp only [commandBody]; rw [(enumBody_spec s).1]; rfl
  | _ => simp [commandBody, identityItems]

/-- A step that neither runs an IDENTIFY nor asserts the reset input leaves the identity items. -/
theorem stepEffect_identityItems {s t : State} (e : StepEffect s t) (hrun : ¬ RunsIdentify s) (hreset : ¬ AssertsReset s) :
    identityItems t = identityItems s := by
  cases e with
  | whole w i rest hp hidle hr hd =>
    have hi : i ≠ .identify := fun hi => hrun (.inr ⟨w, rest, hp, hi ▸ hd⟩)
    exact commandBody_identityItems hi _
  | complete i start k he hr =>
    have hi : i ≠ .identify := fun hi => hrun (.inl ⟨start, k, hi ▸ he⟩)
    exact commandBody_identityItems hi _
  | reset asserted rest hp =>
    cases asserted with
    | false => rfl
    | true => exact absurd ⟨rest, hp⟩ hreset
  | _ => rfl

/-- Settles O55, effect by effect of a step. -/
theorem onlyIdentifyWritesTheIdentityWords : Obligations.OnlyIdentifyWritesTheIdentityWords := by
  unfold Obligations.OnlyIdentifyWritesTheIdentityWords
  intro s t hstep hrun hreset
  simpa [identityItems] using stepEffect_identityItems (step_effect hstep) hrun hreset

end Sys2Proof.Machine
end

section
/-! The host's writes to CMD and CRC of an idle OWID (10_state.md R34, R37; 30_encoding.md R110; 60_exceptions.md R261), and the
command in one step and by engine steps (10_state.md R52, R85; 60_exceptions.md R275). -/

namespace Sys2Proof.Machine

/-! ## A write to CMD or CRC while idle -/

/-- The bytes of a word, put together again, are the word (R82). -/
theorem wordOfBytes_wordByte (x : Word) :
    wordOfBytes (wordByte x 0) (wordByte x 1) (wordByte x 2) (wordByte x 3) = x := by
  simp only [wordOfBytes, wordByte]
  refine BitVec.eq_of_getLsbD_eq fun j hj => ?_
  simp only [BitVec.getLsbD_append, BitVec.getLsbD_extractLsb']
  grind

/-- A table word decodes as the word it is. -/
theorem decodeWord_tableWord {nbits w : Nat} {i : Instr} (h : decodeTableWord nbits w = some i) :
    decodeWord (tableWord nbits w) = some i := by
  simp only [decodeTableWord, decodeBytes, wordOfBytes_wordByte] at h
  cases hd : decodeWord (tableWord nbits w) with
  | none => simp [hd] at h
  | some j => simpa [hd] using h

/-- A step in which the host writes a command's word to CMD of an idle OWID runs the command (R52). -/
theorem step_runsCommand {s : State} {w : Word} {rest : List Turn} {i : Instr}
    (hp : s.pending = .access (.write 0x00 4 w) :: rest) (hr : s.inReset = false) (hidle : s.engine = .idle)
    (hd : decodeWord w = some i) : step s = exec i (acceptCommand w i { s with pending := rest }) := by
  rw [step_write hp hr rfl (by decide), serveAccess_cmd, writeCmd_command (by exact busy_of_idle hidle) hd]
  rfl

/-- A step in which the host only issues the command's word leaves OWID at the command's start (R261, R275). -/
theorem step_startsCommand {s : State} {w : Word} {rest : List Turn} {i : Instr} (hp : s.pending = .issue w :: rest)
    (hr : s.inReset = false) (hidle : s.engine = .idle) (hd : decodeWord w = some i) :
    step s = .next (acceptCommand w i { s with pending := rest }) := by
  rw [step_issue hp hr, writeCmd_command (by exact busy_of_idle hidle) hd]
  rfl

/-- Settles O5: `withFetchWord` is one of the states in which the host's next turn is such a write. -/
theorem stepRunsTheWrittenCommand : Obligations.StepRunsTheWrittenCommand := by
  unfold Obligations.StepRunsTheWrittenCommand
  refine ⟨fun s w rest i hp hr hidle hd => step_runsCommand hp hr hidle hd, fun s nbits w i h => ?_⟩
  exact step_runsCommand (s := s.withFetchWord nbits w) rfl rfl rfl (decodeWord_tableWord h)

/-- A write of CRC while idle (R37). -/
theorem writeCrc_idle {s : State} (h : s.busy = false) (w : Word) : writeCrc w s = { s with crc := w.extractLsb' 0 8 } := by
  simp [writeCrc, h]

/-- Settles O9: the write is served at CRC's offset, of an engine that is idle. -/
theorem idleWriteLoadsCrc : Obligations.IdleWriteLoadsCrc := by
  unfold Obligations.IdleWriteLoadsCrc
  intro s w rest hp hr hidle
  rw [step_write hp hr rfl (by decide), serveAccess_write (by decide)]
  exact congrArg Host.Outcome.next (writeCrc_idle (s := { s with pending := rest }) (busy_of_idle hidle) w)

/-! ## A command by engine steps -/

/-- What a command does and leaves does not depend on where the engine stands: its completion makes the engine idle (R261). -/
theorem exec_engine (i : Instr) (e : Engine) (s : State) : exec i { s with engine := e } = exec i s := by
  have hbody : commandBody i { s with engine := e } = _ := commandBody_withOutside { s with engine := e } i s
  rw [exec_eq, exec_eq, hbody, ← commandBody_outside i s]
  rfl

/-- Every command answers a state whose bus has made some events since. -/
theorem exec_replay (i : Instr) (s : State) : ∃ t es, exec i s = .next t ∧ t.bus = busReplay es s.bus := by
  obtain ⟨es, h⟩ := commandBody_bus i s
  exact ⟨_, es, exec_eq i s, h⟩

/-- A step with no turn pending, outside reset, is the engine's. -/
theorem step_engineTurn {s : State} (hp : s.pending = []) (hr : s.inReset = false) : step s = engineTurn s := by
  rw [step_nil hp]
  simp [runTurn, hr]

/-- One engine step of a running command with the events `es` (R275): one more of its events, or the whole result once the last
one is due. -/
theorem engineTurn_running {s t : State} {i : Instr} {start : Bus} {k : Nat} {es : List BusEvent}
    (he : s.engine = .running i start k) (hexec : exec i (setBus start s) = .next t) (hbus : t.bus = busReplay es start) :
    engineTurn s =
      if k + 1 < es.length then
        .next { s with bus := busReplay (es.take (k + 1)) start, engine := .running i start (k + 1) }
      else .next t := by
  have hlen : t.bus.history.length - start.history.length = es.length := by simp [hbus]
  have hes : (busHistory t.bus).drop start.history.length = es := by simp [hbus, busHistory]
  simp only [engineTurn, he, hexec, hlen, hes]

/-- The state after an accepted command with the events `es` has made the first `k` of them (log 7): nothing but the bus and the
engine has moved. -/
def runningState (w : Word) (i : Instr) (es : List BusEvent) (k : Nat) (s : State) : State :=
  { s with cmdLast := w, done := false, engine := .running i s.bus k, bus := busReplay (es.take k) s.bus }

section
variable {w : Word} {i : Instr} {es : List BusEvent} {s t : State}
  (hp : s.pending = []) (hr : s.inReset = false)
  (hexec : exec i (acceptCommand w i s) = .next t) (hbus : t.bus = busReplay es s.bus)
include hp hr hexec hbus

/-- An engine step of the command makes one more of its events and writes no result, or is the last. -/
theorem step_runningState (k : Nat) :
    step (runningState w i es k s) =
      if k + 1 < es.length then .next (runningState w i es (k + 1) s) else .next t := by
  have hrun : exec i (setBus s.bus (runningState w i es k s)) = .next t :=
    (exec_engine i (.running i s.bus k) (acceptCommand w i s)).trans hexec
  rw [step_engineTurn (s := runningState w i es k s) hp hr, engineTurn_running rfl hrun hbus]
  rfl

/-- As long as the last event is not due, engine steps only count the events up. -/
theorem run_runningState (k : Nat) (hk : k < max 1 es.length) :
    core.run k (runningState w i es 0 s) = .next (runningState w i es k s) := by
  induction k with
  | zero => rfl
  | succ k ih =>
    have hstep := step_runningState hp hr hexec hbus k
    rw [if_pos (by omega)] at hstep
    exact (run_add (ih (by omega)) 1).trans (run_next hstep 0)

/-- The engine steps of a whole command, one for each event and at least one, end in the command's result. -/
theorem run_runningState_complete : core.run (max 1 es.length) (runningState w i es 0 s) = .next t := by
  obtain ⟨k, hk⟩ : ∃ k, max 1 es.length = k + 1 := ⟨max 1 es.length - 1, by omega⟩
  have hlast := step_runningState hp hr hexec hbus k
  rw [if_neg (by omega)] at hlast
  rw [hk]
  exact (run_add (run_runningState hp hr hexec hbus k (by omega)) 1).trans (run_next hlast 0)

end

/-- Settles O58: the first step accepts the command, each later one makes one of its events, the last one also completes it. -/
theorem engineStepsEqualTheAtomicCommand : Obligations.EngineStepsEqualTheAtomicCommand := by
  unfold Obligations.EngineStepsEqualTheAtomicCommand
  intro s w i hidle hr hp hd
  have hs : { s with pending := [] } = s := by rw [← hp]
  obtain ⟨t, es, hexec, hbus⟩ := exec_replay i (acceptCommand w i s)
  have hwhole := step_runsCommand (s := { s with pending := [.access (.write 0x00 4 w)] }) rfl hr hidle hd
  have hstart := step_startsCommand (s := { s with pending := [.issue w] }) rfl hr hidle hd
  simp only [hs] at hwhole hstart
  have hrun (k : Nat) : core.run (1 + k) { s with pending := [.issue w] } = core.run k (runningState w i es 0 s) := by
    rw [Nat.add_comm]; exact run_next hstart k
  refine ⟨t, es, hwhole.trans hexec, ?_, ?_, fun k hk => ?_⟩
  · rw [hbus, busHistory_replay]; rfl
  · exact (hrun _).trans (run_runningState_complete hp hr hexec hbus)
  · exact (hrun k).trans (run_runningState hp hr hexec hbus k hk)

end Sys2Proof.Machine
end

section
/-! The layouts of the register words (10_state.md R35–R47; 20_memory.md R82; 60_exceptions.md R260): what a slice of a word built
of fields or of bytes is. -/

namespace Sys2Proof.Machine

/-! ## Slices of a word built of fields -/

theorem fieldAt_getLsbD {w : Nat} (v : BitVec w) (lo : Nat) {i : Nat} (hi : i < 32) :
    (fieldAt v lo).getLsbD i = (decide (lo ≤ i) && v.getLsbD (i - lo)) := by
  by_cases h : lo ≤ i
  · simp [fieldAt, hi, h, Nat.not_lt.2 h]
  · simp [fieldAt, h, Nat.lt_of_not_le h]

/-- The slice at a field's own place is the field. -/
theorem extractLsb'_fieldAt {w : Nat} (v : BitVec w) {lo : Nat} (h : lo + w ≤ 32) : (fieldAt v lo).extractLsb' lo w = v := by
  refine BitVec.eq_of_getLsbD_eq fun j hj => ?_
  rw [BitVec.getLsbD_extractLsb', fieldAt_getLsbD v lo (by omega)]
  simp [hj]

/-- A bit apart from a field reads 0. -/
theorem fieldAt_getLsbD_apart {w : Nat} (v : BitVec w) {lo i : Nat} (h : i < lo ∨ lo + w ≤ i) (hi : i < 32) :
    (fieldAt v lo).getLsbD i = false := by
  rw [fieldAt_getLsbD v lo hi]
  rcases h with h | h
  · simp [Nat.not_le.2 h]
  · simp [BitVec.getLsbD_of_ge v (i - lo) (by omega)]

/-- A slice apart from a field reads 0. -/
theorem extractLsb'_fieldAt_apart {w : Nat} (v : BitVec w) {lo a n : Nat} (h : a + n ≤ lo ∨ lo + w ≤ a) (h32 : a + n ≤ 32) :
    (fieldAt v lo).extractLsb' a n = 0#n := by
  refine BitVec.eq_of_getLsbD_eq fun j hj => ?_
  rw [BitVec.getLsbD_extractLsb', fieldAt_getLsbD_apart v (by omega) (by omega)]
  simp

/-- A flag is a field of one bit. -/
theorem flagAt_eq_fieldAt (b : Bool) (lo : Nat) : flagAt b lo = fieldAt (BitVec.ofBool b) lo := rfl

/-- The bit at a flag's own place is the flag. -/
theorem fieldAt_ofBool_getLsbD (b : Bool) {lo : Nat} (h : lo < 32) : (fieldAt (BitVec.ofBool b) lo).getLsbD lo = b := by
  rw [fieldAt_getLsbD _ _ h]
  cases b <;> simp

/-- The table of R260 gives each code the number that ERR and DEVERR show. -/
theorem errBits_of_mem_errorCodes {c : ErrCode} {n : BitVec 4} (h : (c, n) ∈ errorCodes) : errBits c = n := by
  have hall : ∀ p ∈ errorCodes, errBits p.1 = p.2 := by decide
  exact hall _ h

/-! ## Words of fields -/

/-- Settles O15: each bit and slice of STATUS is the place of one of its fields, or of none. -/
theorem statusWordLayout : Obligations.StatusWordLayout := by
  unfold Obligations.StatusWordLayout
  intro s
  have herr : (regRead .status s).extractLsb' 8 4 = errBits s.err := by
    simp (disch := omega) only [regRead, statusWord, flagAt_eq_fieldAt, BitVec.extractLsb'_or, extractLsb'_fieldAt,
      extractLsb'_fieldAt_apart, BitVec.zero_or]
  have hhigh : (regRead .status s).extractLsb' 12 20 = 0#20 := by
    simp (disch := omega) only [regRead, statusWord, flagAt_eq_fieldAt, BitVec.extractLsb'_or, extractLsb'_fieldAt_apart,
      BitVec.or_zero]
  have hcode : ∀ c n, (c, n) ∈ errorCodes → s.err = c → (regRead .status s).extractLsb' 8 4 = n := fun c n hc he =>
    herr.trans (errBits_of_mem_errorCodes (he ▸ hc))
  refine ⟨rfl, ?_, ?_, ?_, ?_, ?_, ?_, ?_, ?_, herr, hcode, hhigh⟩
  all_goals
    simp (disch := omega) only [regRead, statusWord, flagAt_eq_fieldAt, BitVec.getLsbD_or, fieldAt_ofBool_getLsbD,
      fieldAt_getLsbD_apart, Bool.or_false, Bool.false_or]

/-- The fields of SEARCH (R38), where LD and LFD fit theirs. -/
theorem searchWord_fields {ss : SearchState} (hld : ss.ld < 128) (hlfd : ss.lfd < 16) :
    ((searchWord ss).extractLsb' 0 7).toNat = ss.ld ∧ (searchWord ss).getLsbD 7 = false ∧
    ((searchWord ss).extractLsb' 8 4).toNat = ss.lfd ∧ (searchWord ss).extractLsb' 12 4 = 0#4 ∧
    (searchWord ss).getLsbD 16 = ss.ldf ∧ (searchWord ss).extractLsb' 17 15 = 0#15 := by
  refine ⟨?_, ?_, ?_, ?_, ?_, ?_⟩
  all_goals
    simp (disch := omega) only [searchWord, flagAt_eq_fieldAt, BitVec.extractLsb'_or, BitVec.getLsbD_or, extractLsb'_fieldAt,
      extractLsb'_fieldAt_apart, fieldAt_ofBool_getLsbD, fieldAt_getLsbD_apart, BitVec.zero_or, BitVec.or_zero, Bool.or_false,
      Bool.false_or, BitVec.toNat_ofNat, Nat.mod_eq_of_lt]

/-- The fields of DEVCOUNT (R40), where COUNT fits its own. -/
theorem devcountWord_fields {s : State} (h : s.count < 8) :
    ((devcountWord s).extractLsb' 0 3).toNat = s.count ∧ (devcountWord s).extractLsb' 3 5 = 0#5 ∧
    (devcountWord s).getLsbD 8 = s.full ∧ (devcountWord s).extractLsb' 9 23 = 0#23 := by
  refine ⟨?_, ?_, ?_, ?_⟩
  all_goals
    simp (disch := omega) only [devcountWord, flagAt_eq_fieldAt, BitVec.extractLsb'_or, BitVec.getLsbD_or, extractLsb'_fieldAt,
      extractLsb'_fieldAt_apart, fieldAt_ofBool_getLsbD, fieldAt_getLsbD_apart, BitVec.or_zero, Bool.false_or,
      BitVec.toNat_ofNat, Nat.mod_eq_of_lt]

/-- The field of MEMDIAG (R45), where ATTEMPTS fits it. -/
theorem memdiagWord_fields {s : State} (h : s.attempts < 16) :
    ((memdiagWord s).extractLsb' 0 4).toNat = s.attempts ∧ (memdiagWord s).extractLsb' 4 28 = 0#28 := by
  refine ⟨?_, ?_⟩
  all_goals
    simp (disch := omega) only [memdiagWord, extractLsb'_fieldAt, extractLsb'_fieldAt_apart, BitVec.toNat_ofNat,
      Nat.mod_eq_of_lt]

/-- Settles O16: in a legal state each number fits its field. -/
theorem searchAndCountLayout : Obligations.SearchAndCountLayout := by
  unfold Obligations.SearchAndCountLayout
  intro s h
  obtain ⟨hld, hlfd, -⟩ := h.search
  exact ⟨⟨rfl, searchWord_fields (by omega) (by omega)⟩, ⟨rfl, devcountWord_fields (Nat.lt_of_le_of_lt h.count (by decide))⟩,
    ⟨rfl, memdiagWord_fields (Nat.lt_of_le_of_lt h.attempts (by decide))⟩⟩

/-- The slices of an accessor register (R47): its four fields, and 0 between them. -/
theorem accessorWord_fields (ob ov oc oi : Nat) (serial revision : Word) :
    (accessorWord ob ov oc oi serial revision).extractLsb' 0 5 = serial.extractLsb' ob 5 ∧
    (accessorWord ob ov oc oi serial revision).extractLsb' 8 5 = serial.extractLsb' ov 5 ∧
    (accessorWord ob ov oc oi serial revision).extractLsb' 16 5 = revision.extractLsb' oc 5 ∧
    (accessorWord ob ov oc oi serial revision).extractLsb' 24 3 = revision.extractLsb' oi 3 ∧
    (accessorWord ob ov oc oi serial revision).extractLsb' 5 3 = 0#3 ∧
    (accessorWord ob ov oc oi serial revision).extractLsb' 13 3 = 0#3 ∧
    (accessorWord ob ov oc oi serial revision).extractLsb' 21 3 = 0#3 ∧
    (accessorWord ob ov oc oi serial revision).extractLsb' 27 5 = 0#5 := by
  refine ⟨?_, ?_, ?_, ?_, ?_, ?_, ?_, ?_⟩
  all_goals
    simp (disch := omega) only [accessorWord, BitVec.extractLsb'_or, extractLsb'_fieldAt, extractLsb'_fieldAt_apart,
      BitVec.zero_or, BitVec.or_zero]

/-- Settles O19: the three registers are one accessor word at the offsets of their role. -/
theorem accessorRegistersSliceTheWords : Obligations.AccessorRegistersSliceTheWords := by
  unfold Obligations.AccessorRegistersSliceTheWords
  intro s off ob ov oc oi h
  have hword : regRead (regAt off) s = accessorWord ob ov oc oi s.serial s.revision := by
    simp only [List.mem_cons, Prod.mk.injEq, List.not_mem_nil, or_false] at h
    rcases h with ⟨rfl, rfl, rfl, rfl, rfl⟩ | ⟨rfl, rfl, rfl, rfl, rfl⟩ | ⟨rfl, rfl, rfl, rfl, rfl⟩
    · rfl
    · rfl
    · rfl
  rw [hword]
  exact accessorWord_fields ob ov oc oi s.serial s.revision

/-- The DEVERR fields of IDDIAG (R46). -/
theorem iddiagWord_deverr (s : State) {i : Nat} (h : i < 5) :
    (iddiagWord s).extractLsb' (4 * i) 4 = errBits s.deverr[i] := by
  interval_cases i
  all_goals
    simp (disch := omega) only [iddiagWord, BitVec.extractLsb'_or, extractLsb'_fieldAt, extractLsb'_fieldAt_apart,
      BitVec.zero_or, BitVec.or_zero]

/-- The fields of IDDIAG above DEVERR (R46), OKCOUNT where it fits its own. -/
theorem iddiagWord_fields (s : State) :
    (iddiagWord s).extractLsb' 20 3 = s.missing ∧ (iddiagWord s).getLsbD 23 = false ∧
    (s.okcount < 8 → ((iddiagWord s).extractLsb' 24 3).toNat = s.okcount) ∧
    (iddiagWord s).extractLsb' 27 5 = 0#5 := by
  refine ⟨?_, ?_, fun h => ?_, ?_⟩
  all_goals
    simp (disch := omega) only [iddiagWord, BitVec.extractLsb'_or, BitVec.getLsbD_or, extractLsb'_fieldAt,
      extractLsb'_fieldAt_apart, fieldAt_getLsbD_apart, BitVec.zero_or, BitVec.or_zero, Bool.or_false, BitVec.toNat_ofNat,
      Nat.mod_eq_of_lt]

/-! ## Words of bytes -/

/-- The lanes of a word of four bytes (R82). -/
theorem wordByte_wordOfBytes (b0 b1 b2 b3 : Byte) {k : Nat} (hk : k < 4) :
    wordByte (wordOfBytes b0 b1 b2 b3) k = [b0, b1, b2, b3][k] := by
  have hbit (j : Nat) (hj : j < 8) : (wordOfBytes b0 b1 b2 b3).getLsbD (8 * k + j) = [b0, b1, b2, b3][k].getLsbD j := by
    simp only [wordOfBytes, BitVec.getLsbD_append]
    interval_cases k <;> grind
  refine BitVec.eq_of_getLsbD_eq fun j hj => ?_
  rw [wordByte, BitVec.getLsbD_extractLsb', hbit j hj]
  simp [hj]

/-- The lanes of half an address are its bytes (R39, R41). -/
theorem wordByte_addressWord (a : Address) (hi : Bool) {k : Nat} (hk : k < 4) :
    wordByte (addressWord a hi) k = addrByte a ((if hi then 4 else 0) + k) := by
  refine BitVec.eq_of_getLsbD_eq fun j hj => ?_
  have hlane : 8 * k + j < 32 := by omega
  simp only [wordByte, addressWord, addrByte, BitVec.getLsbD_extractLsb', hj, hlane, decide_true, Bool.true_and]
  congr 1
  cases hi
  · simp
  · simp; omega

/-- The lanes of a word of RECBUF are its record bytes (R42). -/
theorem wordByte_recbufWord (r : Record) (k : Nat) {m : Nat} (hm : m < 4) :
    wordByte (recbufWord r k) m = r[4 * k + m]?.getD 0x00#8 := by
  have hword : recbufWord r k = wordOfBytes (r[4 * k + 0]?.getD 0x00#8) (r[4 * k + 1]?.getD 0x00#8)
      (r[4 * k + 2]?.getD 0x00#8) (r[4 * k + 3]?.getD 0x00#8) := rfl
  rw [hword, wordByte_wordOfBytes _ _ _ _ hm]
  interval_cases m <;> rfl

/-- The offsets of the device table (R33). -/
theorem regAt_devtab {i : Nat} (h : i < 5) :
    regAt (0x20 + 8 * i) = .devtab i false ∧ regAt (0x24 + 8 * i) = .devtab i true := by
  have hall : ∀ i : Fin 5, regAt (0x20 + 8 * i.val) = .devtab i.val false ∧ regAt (0x24 + 8 * i.val) = .devtab i.val true := by
    decide
  exact hall ⟨i, h⟩

/-- The offsets of the record buffer (R33). -/
theorem regAt_recbuf {k : Nat} (h : k < 8) : regAt (0x48 + 4 * k) = .recbuf k := by
  have hall : ∀ k : Fin 8, regAt (0x48 + 4 * k.val) = .recbuf k.val := by decide
  exact hall ⟨k, h⟩

/-- Settles O17: DATA and CRC are fields, the others are words of bytes. -/
theorem dataWordsLayout : Obligations.DataWordsLayout := by
  unfold Obligations.DataWordsLayout
  intro s
  refine ⟨⟨?_, ?_⟩, fun k hk => ⟨?_, ?_⟩, fun i h k hk => ?_, fun j h => ?_⟩
  · exact BitVec.shiftLeft_zero _
  · exact BitVec.shiftLeft_zero _
  · exact (wordByte_addressWord s.rom false hk).trans (by simp)
  · exact wordByte_addressWord s.rom true hk
  · have hentry : s.devtab[i]?.getD 0#64 = s.devtab[i] := by simp [h]
    rw [(regAt_devtab h).1, (regAt_devtab h).2, regRead, regRead, hentry]
    exact ⟨(wordByte_addressWord s.devtab[i] false hk).trans (by simp), wordByte_addressWord s.devtab[i] true hk⟩
  · rw [regAt_recbuf (by omega), regRead, wordByte_recbufWord _ _ (Nat.mod_lt j (by decide)), Nat.div_add_mod]
    simp [h]

/-- IDENT1 is a word of the bytes REV_ID, BOM_REV and two zeros (R43). -/
theorem ident1Word_eq (d : Identity) : ident1Word d = wordOfBytes d.revId d.bomRev 0x00#8 0x00#8 := rfl

/-- The upper half of IDENT1 reads 0 (R43). -/
theorem ident1Word_high (d : Identity) : (ident1Word d).extractLsb' 16 16 = 0#16 :=
  (BitVec.extractLsb'_append_eq_of_le (xhi := 0x0000#16 ++ d.bomRev) (xlo := d.revId) (by decide)).trans
    BitVec.extractLsb'_append_eq_left

/-- Settles O18: IDENT0 and IDENT1 are words of bytes, IDDIAG is one of fields. -/
theorem identityWordsLayout : Obligations.IdentityWordsLayout := by
  unfold Obligations.IdentityWordsLayout
  intro s
  obtain ⟨hmissing, h23, hok, hhigh⟩ := iddiagWord_fields s
  have hident0 : regRead (regAt 0x68) s = wordOfBytes s.ident.role s.ident.boardId s.ident.vendorId s.ident.revCode := rfl
  have hident1 : regRead (regAt 0x6C) s = wordOfBytes s.ident.revId s.ident.bomRev 0x00#8 0x00#8 := ident1Word_eq s.ident
  refine ⟨?_, ⟨?_, ?_, ident1Word_high s.ident⟩, ⟨rfl, rfl⟩, fun i h => ⟨iddiagWord_deverr s h, fun c n hc he => ?_⟩, hmissing, h23,
    fun h => hok (by omega), hhigh⟩
  · simp [hident0, wordByte_wordOfBytes]
  · simp [hident1, wordByte_wordOfBytes]
  · simp [hident1, wordByte_wordOfBytes]
  · exact (iddiagWord_deverr s h).trans (errBits_of_mem_errorCodes (he ▸ hc))

end Sys2Proof.Machine
end

section
/-! Host accesses and the bus (20_memory.md R81, R83, R84, R97): which accesses a step refuses, that it answers all others
(60_exceptions.md R262, R268), and what MEMRD reads from ideal devices (43_memory_read.md R200, R201). -/

namespace Sys2Proof.Machine

/-! ## Refused accesses -/

/-- A step whose access fails the checks is refused for the reason they give (R81, R83). -/
theorem step_access_refused {s : State} {a : HostAccess} {rest : List Turn} {r : Refusal}
    (hp : s.pending = .access a :: rest) (h : checkAccess (accessPlace a).1 (accessPlace a).2 = some r) :
    step s = .refused r := by
  rw [step_cons hp, runTurn_access, hostAccess_refused _ h]

/-- An access that is not an aligned 32-bit one fails the checks, inside the block or not (R83). -/
theorem checkAccess_unaligned {off width : Nat} (h : width ≠ 4 ∨ off % 4 ≠ 0) :
    checkAccess off width = some .accessNotAlignedWord := by
  have ha : alignedWord off width = false := by
    rcases h with h | h
    · simp [alignedWord, h]
    · simp [alignedWord, h]
  simp [checkAccess, ha]

/-- An aligned 32-bit access outside the block fails the checks (R81). -/
theorem checkAccess_outside {off : Nat} (h : off % 4 = 0) (hout : 0x100 ≤ off) :
    checkAccess off 4 = some .accessOutsideBlock := by
  simp [checkAccess, alignedWord, h, hout]

/-- The addresses of the block are BASE and the offsets below 0x100 from it (R81). -/
theorem offsetOfAddress_eq_some_iff (c : Config) (a off : Nat) :
    offsetOfAddress c a = some off ↔ a = c.base + off ∧ off < 0x100 := by
  unfold offsetOfAddress
  split
  · rw [Option.some.injEq]; omega
  · simp only [reduceCtorEq, false_iff]; omega

/-- Settles O12: with BASE a multiple of 4, an address of the block is aligned exactly when its offset is. -/
theorem unalignedAccessIsRefused : Obligations.UnalignedAccessIsRefused := by
  unfold Obligations.UnalignedAccessIsRefused
  intro s off width w rest hp
  have hoffset (h : width ≠ 4 ∨ off % 4 ≠ 0) : step s = .refused .accessNotAlignedWord := by
    rcases hp with hp | hp
    · exact step_access_refused hp (checkAccess_unaligned h)
    · exact step_access_refused hp (checkAccess_unaligned h)
  refine ⟨fun a hbase ha h => hoffset ?_, hoffset⟩
  obtain ⟨haddr, -⟩ := (offsetOfAddress_eq_some_iff s.cfg a off).1 ha
  exact h.imp_right fun h => by omega

/-- Settles O13: such an access is aligned, so that the second check refuses it. -/
theorem accessOutsideTheBlock : Obligations.AccessOutsideTheBlock := by
  unfold Obligations.AccessOutsideTheBlock
  refine ⟨offsetOfAddress_eq_some_iff, fun s off w rest hout h hp => ?_⟩
  rcases hp with hp | hp
  · exact step_access_refused hp (checkAccess_outside h hout)
  · exact step_access_refused hp (checkAccess_outside h hout)

/-! ## Reads of an idle OWID -/

/-- Settles O10: the read is served, and a register's word depends on no turn to come. -/
theorem idleReadsHaveNoSideEffect : Obligations.IdleReadsHaveNoSideEffect := by
  unfold Obligations.IdleReadsHaveNoSideEffect
  intro s off rest hp hr hidle h hlt
  refine ⟨?_, fun h0 => ?_, fun hres => ?_⟩
  · rw [step_read hp hr h hlt, hostRead_idle (by exact busy_of_idle hidle), regRead_pending]
  · subst h0; rfl
  · rw [regAt_reserved hlt hres]; rfl

/-! ## Every turn but a refused access answers -/

theorem writeCmd_answers (whole : Bool) (w : Word) (s : State) : ∃ t, writeCmd whole w s = .next t := by
  cases hb : s.busy with
  | true => exact ⟨_, writeCmd_busy hb whole w⟩
  | false =>
    cases hd : decodeWord w with
    | none => exact ⟨_, writeCmd_illegal hb hd whole⟩
    | some i =>
      rw [writeCmd_command hb hd whole]
      cases whole with
      | true => exact ⟨_, exec_eq i _⟩
      | false => exact ⟨_, rfl⟩

theorem engineTurn_answers (s : State) : ∃ t, engineTurn s = .next t := by
  cases he : s.engine with
  | idle => exact ⟨s, engineTurn_idle he⟩
  | running i start k =>
    obtain ⟨t, es, hexec, hbus⟩ := exec_replay i (setBus start s)
    rw [engineTurn_running he hexec hbus]
    split
    · exact ⟨_, rfl⟩
    · exact ⟨_, rfl⟩

theorem serveAccess_answers (a : HostAccess) (s : State) : ∃ t, serveAccess a s = .next t := by
  cases a with
  | read off width => exact ⟨_, serveAccess_read off width s⟩
  | write off width w =>
    by_cases hcmd : regAt off = .cmd
    · obtain ⟨t, ht⟩ := writeCmd_answers true w s
      exact ⟨t, (if_pos hcmd).trans ht⟩
    · exact ⟨_, serveAccess_write hcmd w s⟩

theorem hostAccess_answers {a : HostAccess} (h : checkAccess (accessPlace a).1 (accessPlace a).2 = none) (s : State) :
    ∃ t, hostAccess a s = .next t := by
  cases hr : s.inReset with
  | true => exact ⟨notServed a s, by simp [hostAccess, h, hr]⟩
  | false => rw [hostAccess_served h hr]; exact serveAccess_answers a s

/-- A turn answers a next state, unless it is an access that fails the checks (R81, R83). -/
theorem runTurn_answers {x : Turn} (h : ∀ a, x = .access a → checkAccess (accessPlace a).1 (accessPlace a).2 = none)
    (s : State) : ∃ t, runTurn x s = .next t := by
  cases x with
  | access a => exact hostAccess_answers (h a rfl) s
  | issue w =>
    simp only [runTurn]
    split
    · exact ⟨s, rfl⟩
    · exact writeCmd_answers false w s
  | engine =>
    simp only [runTurn]
    split
    · exact ⟨s, rfl⟩
    · exact engineTurn_answers s
  | resetPin asserted => exact ⟨_, rfl⟩

/-- With legal accesses to come a step answers a next state. -/
theorem step_answers {s : State} (h : AccessesLegal s) : ∃ t, step s = .next t := by
  cases hp : s.pending with
  | nil => rw [step_nil hp]; exact runTurn_answers (by simp) s
  | cons x rest =>
    rw [step_cons hp]
    refine runTurn_answers (fun a hx => h a ?_) _
    rw [hp, hx]
    exact List.mem_cons_self

/-! ## The turns still to come -/

/-- A command leaves the turns still to come. -/
theorem commandBody_pending (i : Instr) (s : State) : (commandBody i s).2.pending = s.pending :=
  (congrArg State.pending (commandBody_outside i s)).symm

/-- A step uses up one turn and adds none. -/
theorem stepEffect_pending {s t : State} (e : StepEffect s t) : t.pending = s.pending.tail := by
  cases e with
  | whole w i rest hp hidle hr hd => rw [finish_pending, commandBody_pending, hp]; rfl
  | complete i start k he hr => rw [finish_pending, commandBody_pending]; rfl
  | reset asserted rest hp => rw [hp]; cases asserted <;> rfl
  | _ => rfl

/-- Every step leaves legal accesses to come legal. -/
theorem AccessesLegal.step {s t : State} (h : AccessesLegal s) (hstep : Machine.step s = .next t) : AccessesLegal t := by
  intro a ha
  rw [stepEffect_pending (step_effect hstep)] at ha
  exact h a (List.mem_of_mem_tail ha)

/-- Settles O14: no turn but a refused access fails to answer, and a step adds no access to come. -/
theorem stepAnswersForLegalAccesses : Obligations.StepAnswersForLegalAccesses := by
  unfold Obligations.StepAnswersForLegalAccesses
  refine ⟨fun s h => ?_, fun s f => (nomatch f), fun i s => ⟨_, exec_eq i s, rfl, rfl⟩⟩
  obtain ⟨t, ht⟩ := step_answers h
  exact ⟨t, ht, h.step ht⟩

/-! ## MEMRD on the ideal bus -/

/-- MEMRD whose first two passes read one record succeeds in the first attempt (R200, R202, R203). -/
theorem memrdBody_first_attempt {idx : Nat} {s : State} {a : Address} {r : Record} {b1 b2 : Bus}
    (hop : deviceOperand idx s = some a) (hfam : familySupported s.cfg a = true)
    (h1 : readPass s.cfg.cmds a s.bus = (some r, b1)) (h2 : readPass s.cfg.cmds a b1 = (some r, b2)) :
    memrdBody idx s = (.eNone, { s with attempts := 1, recbuf := r, bus := b2 }) := by
  simp [memrdBody, hop, hfam, readAttempts, h1, h2]

/-- A device's record does not change with its phase. -/
theorem deviceRecord_run (cmds : RomCommands) (es : List BusEvent) (d : Device) :
    deviceRecord (deviceRun cmds es d) = deviceRecord d := by
  simp [deviceRecord]

/-- A read pass addressed to an ideal device reads the same record after any events on the bus (R97, R201). -/
theorem readPass_devices_replay {b : Bus} {ds : List Device} {cmds : RomCommands} {d : Device} (es : List BusEvent)
    (h : b.line = .devices cmds ds) (hm : cmds.matchRom ≠ cmds.searchRom) (hn : (ds.map (·.addr)).Nodup) (hd : d ∈ ds) :
    readPass cmds d.addr (busReplay es b) =
      (some (deviceRecord d), busReplay (es ++ readPassEvents cmds d.addr (deviceRecord d)) b) := by
  have hn' : ((ds.map (deviceRun cmds es)).map (·.addr)).Nodup := by
    simpa [List.map_map, Function.comp_def] using hn
  have hpass := readPass_devices (busReplay_devices es h) hm hn' (List.mem_map_of_mem hd)
  rwa [deviceRun_addr, deviceRecord_run, ← busReplay_append] at hpass

@[simp] theorem attemptEvents_length (cmds : RomCommands) (a : Address) (p : Record × Record) :
    (attemptEvents cmds a p).length = 706 := by
  simp [attemptEvents]

/-- A complete read pass leaves PRESENT set (R130, R201). -/
theorem busReplay_readPassEvents_present (cmds : RomCommands) (a : Address) (r : Record) (b : Bus) :
    (busReplay (readPassEvents cmds a r) b).present = true := by
  simp only [readPassEvents, List.cons_append, busReplay_cons]
  rw [busReplay_present_of_no_reset _ (by simp)]
  rfl

/-- MEMRD of an ideal device reads its record in one attempt, whose events are those of two passes (R97, R200, R202). -/
theorem memrdBody_devices {s : State} {idx : Nat} {ds : List Device} {d : Device}
    (hline : s.bus.line = .devices s.cfg.cmds ds) (hm : s.cfg.cmds.matchRom ≠ s.cfg.cmds.searchRom)
    (hn : (ds.map (·.addr)).Nodup) (hd : d ∈ ds) (hop : deviceOperand idx s = some d.addr)
    (hfam : familySupported s.cfg d.addr = true) :
    memrdBody idx s = (.eNone, { s with
      attempts := 1
      recbuf := deviceRecord d
      bus := busReplay (attemptEvents s.cfg.cmds d.addr (deviceRecord d, deviceRecord d)) s.bus }) :=
  memrdBody_first_attempt hop hfam (readPass_devices hline hm hn hd) (readPass_devices_replay _ hline hm hn hd)

/-- Settles O43: both passes read the addressed device's record, so they agree. -/
theorem memrdReadsTheAddressedDevice : Obligations.MemrdReadsTheAddressedDevice := by
  unfold Obligations.MemrdReadsTheAddressedDevice
  intro s idx ds d hline hm hn hd hidx hentry hfam
  have hop : deviceOperand idx s = some d.addr := (if_pos hidx).trans hentry
  have hfam' : familySupported s.cfg d.addr = true := List.contains_iff_mem.2 hfam
  have hexec := exec_eq (.memrd idx) s
  simp only [commandBody, memrdBody_devices hline hm hn hd hop hfam'] at hexec
  refine ⟨_, hexec, by simp only [finish], fun j hj => ?_, ?_, ?_⟩
  · simp [deviceRecord]
  · simp [Nat.add_comm]
  · rw [finish_bus, attemptEvents, busReplay_append]
    exact busReplay_readPassEvents_present _ _ _ _

end Sys2Proof.Machine
end

section
/-! The decoder and the encoder (30_encoding.md R110–R115, R120; 20_memory.md R82): a word by its fields, what a row of the opcode
table matches, and that decoding and encoding are inverse to each other. -/

namespace Sys2Proof

/-! ## A word by its fields (R111) -/

theorem word_eq_fields (w : Word) : w = fieldRsv w ++ fieldArg8 w ++ fieldOpc w := by
  refine BitVec.eq_of_getLsbD_eq fun j hj => ?_
  simp only [fieldRsv, fieldArg8, fieldOpc, BitVec.getLsbD_append, BitVec.getLsbD_extractLsb']
  grind

/-- Two words are equal when their fields are. -/
theorem word_ext_iff {w x : Word} :
    w = x ↔ fieldOpc w = fieldOpc x ∧ fieldArg8 w = fieldArg8 x ∧ fieldRsv w = fieldRsv x := by
  refine ⟨fun h => by simp [h], fun ⟨hopc, harg, hrsv⟩ => ?_⟩
  rw [word_eq_fields w, hopc, harg, hrsv, ← word_eq_fields]

/-- The word of format C with RSV = 0 (R111). -/
def formatC (opc arg : Byte) : Word := 0#16 ++ arg ++ opc

@[simp] theorem fieldOpc_formatC (o a : Byte) : fieldOpc (formatC o a) = o :=
  BitVec.extractLsb'_append_eq_right

@[simp] theorem fieldArg8_formatC (o a : Byte) : fieldArg8 (formatC o a) = a := by
  refine BitVec.eq_of_getLsbD_eq fun j hj => ?_
  simp only [fieldArg8, formatC, BitVec.getLsbD_extractLsb', BitVec.getLsbD_append]
  grind

@[simp] theorem fieldRsv_formatC (o a : Byte) : fieldRsv (formatC o a) = 0#16 := by
  refine BitVec.eq_of_getLsbD_eq fun j hj => ?_
  simp only [fieldRsv, formatC, BitVec.getLsbD_extractLsb', BitVec.getLsbD_append]
  grind

/-- A word with RSV = 0 is the one of its other two fields. -/
theorem formatC_fields {w : Word} (h : fieldRsv w = 0#16) : formatC (fieldOpc w) (fieldArg8 w) = w := by
  rw [word_ext_iff]; simp [h]

/-! ## The rows of the opcode table (R112, R114) -/

/-- Every row masks OPC and RSV whole, and its pattern holds an OPC only. -/
theorem opTable_fields : ∀ r ∈ opTable, fieldOpc r.mask = BitVec.allOnes 8 ∧ fieldRsv r.mask = BitVec.allOnes 16 ∧
    r.pattern = formatC (fieldOpc r.pattern) 0x00#8 := by
  decide

/-- What a row of the table matches: its OPC, with no masked bit of ARG8 and no bit of RSV set. -/
theorem rowMatches_iff {r : OpRow} (hr : r ∈ opTable) (w : Word) :
    rowMatches w r = true ↔
      fieldOpc w = fieldOpc r.pattern ∧ fieldArg8 w &&& fieldArg8 r.mask = 0x00#8 ∧ fieldRsv w = 0#16 := by
  obtain ⟨hopc, hrsv, hpat⟩ := opTable_fields r hr
  have hand : fieldOpc (w &&& r.mask) = fieldOpc w ∧ fieldArg8 (w &&& r.mask) = fieldArg8 w &&& fieldArg8 r.mask ∧
      fieldRsv (w &&& r.mask) = fieldRsv w := by
    simp only [fieldOpc, fieldArg8, fieldRsv, BitVec.extractLsb'_and] at hopc hrsv ⊢
    rw [hopc, hrsv, BitVec.and_allOnes, BitVec.and_allOnes]
    simp
  rw [rowMatches, beq_iff_eq, word_ext_iff, hpat]
  simp [hand]

/-- The OPC of each row and the bits of ARG8 that it marks "must be 0" (R112). -/
theorem opTable_opcs_masks : opTable.map (fun r => (fieldOpc r.pattern, fieldArg8 r.mask)) =
    [(0x01#8, 0xFF#8), (0x02#8, 0xFE#8), (0x03#8, 0xFF#8), (0x04#8, 0x00#8), (0x05#8, 0xFF#8), (0x06#8, 0x00#8),
      (0x10#8, 0xFF#8), (0x11#8, 0xFF#8), (0x12#8, 0xFF#8), (0x20#8, 0xF8#8), (0x30#8, 0xFF#8), (0x31#8, 0xFF#8)] := by
  decide

/-- No two rows have the same OPC (R112). -/
theorem opTable_opcs_distinct : opTable.Pairwise fun r r' => fieldOpc r.pattern ≠ fieldOpc r'.pattern := by
  decide

/-- Two rows that match one word have its OPC, so they are one row (R114). -/
theorem row_unique {w : Word} {r r' : OpRow} (hr : r ∈ opTable) (hr' : r' ∈ opTable) (h : rowMatches w r = true)
    (h' : rowMatches w r' = true) : r = r' := by
  refine List.inj_on_of_nodup_map (List.pairwise_map.2 opTable_opcs_distinct) hr hr' ?_
  rw [← ((rowMatches_iff hr w).1 h).1, ((rowMatches_iff hr' w).1 h').1]

/-- The row that matches a word gives its command, wherever it stands in the table (R120). -/
theorem decodeWord_of_row {w : Word} {r : OpRow} (hr : r ∈ opTable) (h : rowMatches w r = true) :
    decodeWord w = some (r.build w) := by
  cases hf : opTable.find? (rowMatches w) with
  | none => exact absurd h (List.find?_eq_none.1 hf r hr)
  | some r' =>
    rw [decodeWord, hf, row_unique hr (List.mem_of_find?_eq_some hf) h (List.find?_some hf)]; rfl

/-- A word that decodes matches a row, which gives the command. -/
theorem row_of_decodeWord {w : Word} {i : Instr} (h : decodeWord w = some i) :
    ∃ r ∈ opTable, rowMatches w r = true ∧ r.build w = i := by
  obtain ⟨r, hf, hb⟩ := Option.map_eq_some_iff.1 h
  exact ⟨r, List.mem_of_find?_eq_some hf, List.find?_some hf, hb⟩

/-- A word is illegal when for every row its OPC is another, a reserved bit of ARG8 is set, or RSV is not 0 (R115). -/
theorem decodeWord_eq_none_iff {w : Word} : decodeWord w = none ↔
    ∀ p ∈ opTable.map (fun r => (fieldOpc r.pattern, fieldArg8 r.mask)),
      ¬ (fieldOpc w = p.1 ∧ fieldArg8 w &&& p.2 = 0x00#8 ∧ fieldRsv w = 0#16) := by
  rw [decodeWord, Option.map_eq_none_iff, List.find?_eq_none, List.forall_mem_map]
  exact forall₂_congr fun r hr => not_congr (rowMatches_iff hr w)

/-! ## The words of the commands with an operand (R113, R114) -/

/-- An ARG8 operand put above an OPC is the word of format C with these fields. -/
theorem or_shiftLeft_eq_formatC (o a : Byte) : o.setWidth 32 ||| (a.setWidth 32 <<< 8) = formatC o a := by
  refine BitVec.eq_of_getLsbD_eq fun j hj => ?_
  simp only [formatC, BitVec.getLsbD_or, BitVec.getLsbD_setWidth, BitVec.getLsbD_shiftLeft, BitVec.getLsbD_append]
  grind

theorem encode_owwbyte (v : Byte) : encode (.owwbyte v) = formatC 0x04#8 v := or_shiftLeft_eq_formatC 0x04#8 v

theorem encode_crc8 (v : Byte) : encode (.crc8 v) = formatC 0x06#8 v := or_shiftLeft_eq_formatC 0x06#8 v

/-- A row without reserved bits in ARG8 decodes every operand. -/
theorem decodeWord_byteRow {r : OpRow} (hr : r ∈ opTable) (hmask : fieldArg8 r.mask = 0x00#8) (v : Byte) :
    decodeWord (formatC (fieldOpc r.pattern) v) = some (r.build (formatC (fieldOpc r.pattern) v)) := by
  refine decodeWord_of_row hr ((rowMatches_iff hr _).2 ?_)
  simp [hmask]

/-! ## High bits that must be 0 -/

/-- A word whose high bits are 0 is what stands below them. -/
theorem eq_zero_append {n k : Nat} {a : BitVec (n + k)} (h : a.extractLsb' k n = 0#n) : a = 0#n ++ a.extractLsb' 0 k := by
  rw [← h, BitVec.extractLsb'_append_extractLsb'_eq_extractLsb' (by omega)]
  simp

/-- Masked to its high bits a word is 0 exactly when they are. -/
theorem and_highMask_eq_zero_iff {n k : Nat} (a : BitVec (n + k)) :
    a &&& (BitVec.allOnes n ++ 0#k) = 0#(n + k) ↔ a.extractLsb' k n = 0#n := by
  have hhigh : (a &&& (BitVec.allOnes n ++ 0#k)).extractLsb' k n = a.extractLsb' k n := by
    rw [BitVec.extractLsb'_and, BitVec.extractLsb'_append_eq_left, BitVec.and_allOnes]
  refine ⟨fun h => by rw [← hhigh, h, BitVec.extractLsb'_zero], fun h => ?_⟩
  rw [eq_zero_append h, BitVec.and_append]
  simp

/-! ## Decoding and encoding -/

theorem decodeWord_encode {i : Instr} (h : i.wf = true) : decodeWord (encode i) = some i := by
  cases i with
  | owwbyte v =>
    have hrow := decodeWord_byteRow (r := opTable[3]) (List.getElem_mem _) rfl v
    rw [encode_owwbyte]
    exact hrow.trans (by simp [opTable, operandByte])
  | crc8 v =>
    have hrow := decodeWord_byteRow (r := opTable[5]) (List.getElem_mem _) rfl v
    rw [encode_crc8]
    exact hrow.trans (by simp [opTable, operandByte])
  | owwbit bit => cases bit <;> rfl
  | memrd idx =>
    have hle : idx ≤ 7 := of_decide_eq_true h
    interval_cases idx <;> rfl
  | _ => rfl

/-- The rows of OWWBIT, OWWBYTE, CRC8 and MEMRD; the others mark all of ARG8 "must be 0" (R112, R113). -/
theorem opTable_operand_rows : opTable.filter (fun r => fieldArg8 r.mask != BitVec.allOnes 8) =
    [opTable[1], opTable[3], opTable[5], opTable[9]] := rfl

/-- Each row's pattern is the word of a well-formed command of its own. -/
theorem encode_build_pattern : ∀ r ∈ opTable, encode (r.build r.pattern) = r.pattern ∧ (r.build r.pattern).wf = true := by
  decide

/-- A row that matches a word builds the well-formed command whose encoding is the word (R113, R114). -/
theorem encode_build {w : Word} {r : OpRow} (hr : r ∈ opTable) (h : rowMatches w r = true) :
    encode (r.build w) = w ∧ (r.build w).wf = true := by
  obtain ⟨hopc, harg, hrsv⟩ := (rowMatches_iff hr w).1 h
  rw [← formatC_fields hrsv, hopc]
  generalize fieldArg8 w = a at harg
  by_cases hmask : fieldArg8 r.mask = BitVec.allOnes 8
  · have ha : a = 0x00#8 := by rwa [hmask, BitVec.and_allOnes] at harg
    rw [ha, ← (opTable_fields r hr).2.2]
    exact encode_build_pattern r hr
  · have hrow : r ∈ [opTable[1], opTable[3], opTable[5], opTable[9]] :=
      opTable_operand_rows ▸ List.mem_filter.2 ⟨hr, by simpa using hmask⟩
    simp only [List.mem_cons, List.not_mem_nil, or_false] at hrow
    obtain rfl | rfl | rfl | rfl := hrow
    · rw [eq_zero_append ((and_highMask_eq_zero_iff (n := 7) (k := 1) a).1 harg)]
      generalize a.extractLsb' 0 1 = b
      revert b; decide
    · exact ⟨(congrArg encode (by simp [opTable, operandByte])).trans (encode_owwbyte a), rfl⟩
    · exact ⟨(congrArg encode (by simp [opTable, operandByte])).trans (encode_crc8 a), rfl⟩
    · rw [eq_zero_append ((and_highMask_eq_zero_iff (n := 5) (k := 3) a).1 harg)]
      generalize a.extractLsb' 0 3 = b
      revert b; decide

/-- Settles O1: a command's word matches its row, and its bytes make up that word. -/
theorem decodeOfEncodeIsTheCommand : Obligations.DecodeOfEncodeIsTheCommand := by
  unfold Obligations.DecodeOfEncodeIsTheCommand
  refine fun i h => ⟨decodeWord_encode h, fun rest => ?_⟩
  simp [encodeBytes, decodeBytes, Machine.wordOfBytes_wordByte, decodeWord_encode h]

/-- Settles O2: a word's row builds the command whose word it is, and rows that match one word have one OPC. -/
theorem decodedWordIsItsEncoding : Obligations.DecodedWordIsItsEncoding := by
  unfold Obligations.DecodedWordIsItsEncoding
  refine ⟨fun w i h => ?_, fun w => ?_⟩
  · obtain ⟨r, hr, hmatch, rfl⟩ := row_of_decodeWord h
    exact encode_build hr hmatch
  · have hopcs := opTable_opcs_distinct.filter (rowMatches w)
    match hf : opTable.filter (rowMatches w) with
    | [] | [_] => simp
    | r :: r' :: rest =>
      have hr : r ∈ opTable ∧ rowMatches w r = true := List.mem_filter.1 (hf ▸ by simp)
      have hr' : r' ∈ opTable ∧ rowMatches w r' = true := List.mem_filter.1 (hf ▸ by simp)
      rw [hf, row_unique hr.1 hr'.1 hr.2 hr'.2] at hopcs
      simp at hopcs

/-! ## The illegal words (R115) -/

/-- Bits of ARG8 are the bits of the word 8 places above. -/
theorem extractLsb'_fieldArg8 (w : Word) {k n : Nat} (h : k + n ≤ 8) :
    (fieldArg8 w).extractLsb' k n = w.extractLsb' (8 + k) n := by
  ext j hj
  simp [fieldArg8, show k + j < 8 by omega, Nat.add_assoc]

/-- OWWBIT's reserved bits `w[15:9]` are those of ARG8 that its row masks. -/
theorem owwbit_reserved_iff (w : Word) : w.extractLsb' 9 7 = 0#7 ↔ fieldArg8 w &&& 0xFE#8 = 0x00#8 := by
  have hmask := and_highMask_eq_zero_iff (n := 7) (k := 1) (fieldArg8 w)
  rw [extractLsb'_fieldArg8 w (by decide)] at hmask
  exact hmask.symm

/-- MEMRD's reserved bits `w[15:11]` are those of ARG8 that its row masks. -/
theorem memrd_reserved_iff (w : Word) : w.extractLsb' 11 5 = 0#5 ↔ fieldArg8 w &&& 0xF8#8 = 0x00#8 := by
  have hmask := and_highMask_eq_zero_iff (n := 5) (k := 3) (fieldArg8 w)
  rw [extractLsb'_fieldArg8 w (by decide)] at hmask
  exact hmask.symm

/-- Settles O3: with RSV = 0, an unassigned OPC has no row and an assigned one has one, whose masked ARG8 bits decide. -/
theorem illegalWordsAreTheReservedOnes : Obligations.IllegalWordsAreTheReservedOnes := by
  unfold Obligations.IllegalWordsAreTheReservedOnes
  intro w
  have hfRsv : w.extractLsb' 16 16 = fieldRsv w := rfl
  have hfOpc : w.extractLsb' 0 8 = fieldOpc w := rfl
  have hfArg8 : w.extractLsb' 8 8 = fieldArg8 w := rfl
  simp only [decodeWord_eq_none_iff, opTable_opcs_masks, ne_eq, owwbit_reserved_iff, memrd_reserved_iff, hfRsv, hfOpc, hfArg8]
  generalize fieldRsv w = rsv, fieldOpc w = opc, fieldArg8 w = arg
  by_cases hrsv : rsv = 0#16
  · by_cases hopc : opc ∈ [0x01#8, 0x02#8, 0x03#8, 0x04#8, 0x05#8, 0x06#8, 0x10#8, 0x11#8, 0x12#8, 0x20#8, 0x30#8, 0x31#8]
    · have hall : arg &&& 0xFF#8 = arg := BitVec.and_allOnes
      simp only [List.mem_cons, List.not_mem_nil, or_false] at hopc
      rcases hopc with rfl | rfl | rfl | rfl | rfl | rfl | rfl | rfl | rfl | rfl | rfl | rfl <;>
        simp [hrsv, hall]
    · simp only [List.mem_cons, List.not_mem_nil, or_false, not_or] at hopc
      simp [hopc]
  · simp [hrsv]

/-- Settles O4: each word evaluates. -/
theorem writtenOutWordsDecode : Obligations.WrittenOutWordsDecode := by
  unfold Obligations.WrittenOutWordsDecode
  refine ⟨?_, ?_, ?_, ?_, ?_, ?_, ?_⟩ <;> rfl

end Sys2Proof
end

section
/-! The bus primitives as commands (40_bit_protocol.md R134–R141; 70_reset_and_hazards.md R302): what the eight slots of a byte
leave on the bus port, what a script or idle devices make a byte read, and the bus time of events. -/

namespace Sys2Proof.Machine

/-! ## One read slot -/

/-- With ideal devices the bit read is the wired-AND of the levels they leave (R97, R142). -/
theorem busReadSlot_devices {b : Bus} {cmds : RomCommands} {ds : List Device} (h : b.line = .devices cmds ds) :
    (busReadSlot b).1 = ds.all deviceLevel := by
  simp [busReadSlot, readLevel, h]

theorem setWidth_ofBool (b : Bool) : (BitVec.ofBool b).setWidth 8 = if b then 0x01#8 else 0x00#8 := by
  cases b <;> rfl

/-! ## The eight slots of a byte (R135, R136) -/

theorem busWriteByte_eq (v : Byte) (b : Bus) :
    busWriteByte v b = { b with
      dqOe := false
      history := [BusEvent.write (v.getLsbD 7), .write (v.getLsbD 6), .write (v.getLsbD 5), .write (v.getLsbD 4),
        .write (v.getLsbD 3), .write (v.getLsbD 2), .write (v.getLsbD 1), .write (v.getLsbD 0)] ++ b.history
      line := (List.range 8).foldl (fun x i => lineAfter (.write (v.getLsbD i)) x) b.line } := by
  rw [busWriteByte_replay, byteBits_eq]
  rfl

theorem busReadByte_eq (b : Bus) (v : Byte) (hv : (busReadByte b).1 = v) :
    (busReadByte b).2 = { b with
      dqOe := false
      history := [BusEvent.read (v.getLsbD 7), .read (v.getLsbD 6), .read (v.getLsbD 5), .read (v.getLsbD 4),
        .read (v.getLsbD 3), .read (v.getLsbD 2), .read (v.getLsbD 1), .read (v.getLsbD 0)] ++ b.history
      line := (List.range 8).foldl (fun x i => lineAfter (.read (v.getLsbD i)) x) b.line
      samples := b.samples + 8 } := by
  rw [busReadByte_replay, hv, byteBits_eq]
  rfl

/-- With a script the bits of the byte read are its next eight levels. -/
theorem busReadByte_script {b : Bus} {xs rest : List Bool} (hx : xs.length = 8) (h : b.line = .script (xs ++ rest)) :
    byteBits (busReadByte b).1 = xs ∧ (busReadByte b).2.line = .script rest := by
  rw [busReadByte_bits]
  exact busReadBits_script hx h

/-- While every device is off the bus, each read slot reads a released line (R97). -/
theorem busReadBits_inactive (n : Nat) {b : Bus} {cmds : RomCommands} {ds : List Device} (h : b.line = .devices cmds ds)
    (hd : ∀ d ∈ ds, d.phase = .inactive) : (busReadBits n b).1 = List.replicate n true := by
  induction n generalizing b ds with
  | zero => rfl
  | succ n ih =>
    have hbit : (busReadSlot b).1 = true := by
      rw [busReadSlot_devices h, List.all_eq_true]
      intro d hmem
      simp [deviceLevel, hd d hmem]
    have hline := busReplay_devices [.read (busReadSlot b).1] h
    have hoff : ∀ d ∈ ds.map (deviceRun cmds [.read (busReadSlot b).1]), d.phase = .inactive :=
      List.forall_mem_map.2 fun d hmem => deviceRun_inactive (hd d hmem) (by simp)
    rw [← busReadSlot_replay] at hline
    simp [busReadBits, hbit, ih hline hoff, List.replicate_succ]

theorem busReadByte_inactive {b : Bus} {cmds : RomCommands} {ds : List Device} (h : b.line = .devices cmds ds)
    (hd : ∀ d ∈ ds, d.phase = .inactive) : (busReadByte b).1 = 0xFF#8 := by
  rw [← byteOfBits_byteBits (busReadByte b).1, busReadByte_bits, busReadBits_inactive 8 h hd]
  rfl

/-! ## The commands -/

/-- Settles O23: the presence bit is `BusReset`'s, and the script or the devices fix it. -/
theorem owresetReportsPresence : Obligations.OwresetReportsPresence := by
  unfold Obligations.OwresetReportsPresence
  refine ⟨rfl, fun s => ⟨(busReset s.bus).1, ?_, fun l ls h => (busReset_script h).1, fun cmds ds h => busReset_devices h⟩⟩
  rw [exec_eq]
  rfl

/-- Settles O24: the command is one write slot, and a write slot takes no level from a script. -/
theorem owwbitWritesOneBit : Obligations.OwwbitWritesOneBit := by
  unfold Obligations.OwwbitWritesOneBit
  refine ⟨rfl, rfl, fun s bit => ⟨?_, fun ls h => ?_⟩⟩
  · rw [exec_eq]
    rfl
  · rw [h]
    rfl

/-- Settles O25: the bit is `BusReadSlot`'s; with no device driving the line the wired-AND of the devices' levels is 1. -/
theorem owrbitReadsOneBit : Obligations.OwrbitReadsOneBit := by
  unfold Obligations.OwrbitReadsOneBit
  refine ⟨rfl, fun s => ⟨(busReadSlot s.bus).1, ?_, fun l ls h => (busReadSlot_script h).1, fun cmds ds h hd => ?_⟩⟩
  · rw [exec_eq, ← setWidth_ofBool]
    rfl
  · rw [busReadSlot_devices h, List.all_eq_true]
    exact hd

/-- Settles O26, by the bus port after the eight write slots. -/
theorem owwbyteWritesLsbFirst : Obligations.OwwbyteWritesLsbFirst := by
  unfold Obligations.OwwbyteWritesLsbFirst
  refine ⟨fun v => rfl, fun s v => ⟨_, ?_, rfl⟩⟩
  rw [exec_eq, commandBody, busWriteByte_eq]
  rfl

/-- Settles O27, by the bus port after the eight read slots, and what a script and idle devices make the byte. -/
theorem owrbyteReadsLsbFirst : Obligations.OwrbyteReadsLsbFirst := by
  unfold Obligations.OwrbyteReadsLsbFirst
  refine ⟨rfl, fun s => ⟨(busReadByte s.bus).1, (busReadByte s.bus).2.line, ?_, ?_, ?_, ?_⟩⟩
  · have hbus := busReadByte_eq s.bus _ rfl
    rw [exec_eq, commandBody, hbus]
    rfl
  · rw [busReadByte_eq s.bus _ rfl]
  · intro b0 b1 b2 b3 b4 b5 b6 b7 ls h
    obtain ⟨hbits, hline⟩ := busReadByte_script (xs := [b0, b1, b2, b3, b4, b5, b6, b7]) rfl h
    rw [byteBits_eq] at hbits
    exact ⟨by simpa only [List.cons.injEq, and_true] using hbits, hline⟩
  · exact fun cmds ds h hd => busReadByte_inactive h hd

/-! ## Bus time -/

@[simp] theorem busTime_nil (t : Timing) : busTime t [] = 0 := rfl

@[simp] theorem busTime_cons (t : Timing) (e : BusEvent) (es : List BusEvent) :
    busTime t (e :: es) = waveTime (eventWave t e) + busTime t es := by
  simp [busTime, waveform, waveTime]

@[simp] theorem waveTime_reset (t : Timing) (p : Bool) : waveTime (eventWave t (.reset p)) = resetTime t := by
  simp [waveTime, eventWave, resetTime, Nat.add_assoc]

theorem wf_slotTime {t : Timing} (h : t.wf = true) :
    t.w0l + t.rec0 = slotTime t ∧ t.rl + t.msr + t.rrec = slotTime t := by
  simp only [Timing.wf, decide_eq_true_eq] at h
  simp only [slotTime]
  omega

section
variable {t : Timing} (h : t.wf = true)
include h

/-- In a legal timing a written 0 and a written 1 take one slot length (R134). -/
theorem waveTime_write (v : Bool) : waveTime (eventWave t (.write v)) = slotTime t := by
  cases v with
  | false => simpa [waveTime, eventWave] using (wf_slotTime h).1
  | true => simp [waveTime, eventWave, slotTime]

/-- In a legal timing a read slot takes the slot length of a write (R134). -/
theorem waveTime_read (v : Bool) : waveTime (eventWave t (.read v)) = slotTime t := by
  simpa [waveTime, eventWave, Nat.add_assoc] using (wf_slotTime h).2

/-- The bus time of slots alone. -/
theorem busTime_of_no_reset {es : List BusEvent} (hr : ∀ p, BusEvent.reset p ∉ es) :
    busTime t es = es.length * slotTime t := by
  induction es with
  | nil => simp
  | cons e es ih =>
    have hes := ih fun p hp => hr p (List.mem_cons_of_mem _ hp)
    have he : waveTime (eventWave t e) = slotTime t := by
      cases e with
      | reset p => exact absurd List.mem_cons_self (hr p)
      | write v => exact waveTime_write h v
      | read v => exact waveTime_read h v
    rw [busTime_cons, he, hes, List.length_cons, Nat.succ_mul, Nat.add_comm]

theorem busTime_reset_slots {es : List BusEvent} (p : Bool) (hr : ∀ q, BusEvent.reset q ∉ es) :
    busTime t (.reset p :: es) = resetTime t + es.length * slotTime t := by
  rw [busTime_cons, waveTime_reset, busTime_of_no_reset h hr]

end
/-! ## The passes (R172, R182, R201) -/

theorem flatMap_pairEvents_length (ps : List PairRead) : (ps.flatMap PairRead.events).length = 3 * ps.length := by
  simp [List.length_flatMap, PairRead.events, Nat.mul_comm]

theorem flatMap_pairEvents_no_reset (ps : List PairRead) : ∀ p, BusEvent.reset p ∉ ps.flatMap PairRead.events := by
  simp [PairRead.events]

/-- A complete search pass is its reset, eight write slots and three slots for each position. -/
theorem busTime_searchPassEvents {t : Timing} (h : t.wf = true) (cmds : RomCommands) {ps : List PairRead}
    (hp : ps.length = 64) : busTime t (searchPassEvents cmds ps) = resetTime t + 200 * slotTime t := by
  have hes : searchPassEvents cmds ps =
      .reset true :: ((byteBits cmds.searchRom).map .write ++ ps.flatMap PairRead.events) := by
    simp [searchPassEvents, hp]
  have hlen : ((byteBits cmds.searchRom).map BusEvent.write ++ ps.flatMap PairRead.events).length = 200 := by
    simp only [List.length_append, List.length_map, byteBits_length, flatMap_pairEvents_length, hp]
  rw [hes, busTime_reset_slots h, hlen]
  simp only [List.mem_append, not_or]
  exact fun q => ⟨writes_no_reset _ q, flatMap_pairEvents_no_reset ps q⟩

/-- A complete read pass is its reset and 352 slots: of 12 bytes written and 32 bytes read. -/
theorem busTime_readPassEvents {t : Timing} (h : t.wf = true) (cmds : RomCommands) (a : Address) (r : Record) :
    busTime t (readPassEvents cmds a r) = resetTime t + 352 * slotTime t := by
  have hlen := readPassEvents_length cmds a r
  rw [readPassEvents, List.cons_append, List.length_cons, Nat.succ_inj] at hlen
  rw [readPassEvents, List.cons_append, busTime_reset_slots h, hlen]
  simp only [List.mem_append, not_or]
  exact fun q => ⟨writes_no_reset _ q, reads_no_reset _ q⟩

/-- Settles O28: a reset and a slot each have one length, and a pass is its reset and its slots. -/
theorem slotAndPassDurations : Obligations.SlotAndPassDurations := by
  unfold Obligations.SlotAndPassDurations
  have hdef : Timing.default.wf = true := by decide
  refine ⟨fun t h => ⟨fun b => ⟨waveTime_write h b, waveTime_read h b, waveTime_reset t b⟩, fun es => ?_,
    fun cmds ps hp => busTime_searchPassEvents h cmds hp, fun cmds a r => busTime_readPassEvents h cmds a r⟩,
    hdef, rfl, rfl, fun cmds ps hp => busTime_searchPassEvents hdef cmds hp,
    fun cmds a r => busTime_readPassEvents hdef cmds a r⟩
  induction es with
  | nil => simp
  | cons e es ih =>
    rw [busTime_cons, ih]
    cases e with
    | reset p => simp [Nat.succ_mul]; omega
    | write v => simp [waveTime_write h, Nat.succ_mul]; omega
    | read v => simp [waveTime_read h, Nat.succ_mul]; omega

end Sys2Proof.Machine
end

section
/-! The CRC unit (41_crc8.md R160–R163): the bit-serial loop folds `c ^ v` alone, so it is the table lookup, and only `v = c`
folds to 0. -/

namespace Sys2Proof.Machine

/-! ## Folding one byte (R160, R161) -/

/-- A turn of the loop and the shift of the byte keep the loop a function of `c ^ v`. -/
theorem crcStep_xor_ushiftRight (c v : Byte) : crcStep c v ^^^ (v >>> 1) = crcStep (c ^^^ v) 0x00#8 := by
  simp only [crcStep, BitVec.xor_zero, BitVec.ushiftRight_xor_distrib]
  split
  · ac_rfl
  · rfl

/-- The loop folds `c ^ v`, with the bits of `v` it has not reached left over. -/
theorem crcLoop_eq_xor (n : Nat) (c v : Byte) : crcLoop n c v = crcLoop n (c ^^^ v) 0x00#8 ^^^ (v >>> n) := by
  induction n generalizing c v with
  | zero => simp [crcLoop]
  | succ n ih =>
    have hshift : v >>> (n + 1) = v >>> 1 >>> n := by rw [Nat.add_comm, BitVec.shiftRight_add]
    rw [crcLoop, ih, crcStep_xor_ushiftRight, hshift, crcLoop, BitVec.zero_ushiftRight]

theorem crc8_eq_xor (c v : Byte) : crc8 c v = crc8 (c ^^^ v) 0x00#8 := by
  have hv : v >>> 8 = 0x00#8 := BitVec.ushiftRight_eq_zero (Nat.le_refl 8)
  rw [crc8, crcLoop_eq_xor, hv, BitVec.xor_zero, crc8]

/-- The table lists what each byte folds to from 0 (R161). -/
theorem crcTable_eq_map : crcTable = (List.range 256).map (fun x => crc8 (BitVec.ofNat 8 x) 0x00#8) := by
  decide +kernel

theorem crc8_eq_crc8Table (c v : Byte) : crc8 c v = crc8Table c v := by
  rw [crc8_eq_xor, crc8Table, crcTable_eq_map]
  generalize c ^^^ v = x
  simp [List.getElem?_range x.isLt]

/-- Settles O29: the command folds by the loop, which is the table lookup. -/
theorem crc8FoldsByTheTable : Obligations.Crc8FoldsByTheTable := by
  unfold Obligations.Crc8FoldsByTheTable
  refine ⟨fun _ => rfl, fun s v => ?_, by decide +kernel⟩
  rw [← List.getD_eq_getElem?_getD, ← crc8Table, ← crc8_eq_crc8Table]
  exact exec_eq (.crc8 v) s

/-! ## The residue (R163) -/

/-- Where the polynomial is folded in, it sets the bit that the shift cleared: no turn loses a byte that is not 0. -/
theorem crcStep_zero_eq_zero_iff (x : Byte) : crcStep x 0x00#8 = 0x00#8 ↔ x = 0x00#8 := by
  refine ⟨fun h => ?_, by rintro rfl; rfl⟩
  simp only [crcStep, BitVec.xor_zero] at h
  split at h
  · rw [BitVec.xor_eq_zero_iff] at h
    bv_omega
  · next hbit =>
    rw [BitVec.getLsbD, Nat.testBit_zero, decide_eq_true_eq] at hbit
    bv_omega

theorem crcLoop_zero_eq_zero_iff (n : Nat) (x : Byte) : crcLoop n x 0x00#8 = 0x00#8 ↔ x = 0x00#8 := by
  induction n generalizing x with
  | zero => rfl
  | succ n ih => rw [crcLoop, BitVec.zero_ushiftRight, ih, crcStep_zero_eq_zero_iff]

/-- A byte folds to 0 exactly when it is the running CRC. -/
theorem crc8_eq_zero_iff (c v : Byte) : crc8 c v = 0x00#8 ↔ v = c := by
  rw [crc8_eq_xor, crc8, crcLoop_zero_eq_zero_iff, BitVec.xor_eq_zero_iff, eq_comm]

theorem crcBytes_concat (c : Byte) (vs : List Byte) (v : Byte) : crcBytes c (vs ++ [v]) = crc8 (crcBytes c vs) v :=
  List.foldl_concat ..

/-- Settles O30: the last byte folded gives 0 exactly when it is the CRC of the bytes before it. -/
theorem crcResidueIsZero : Obligations.CrcResidueIsZero := by
  unfold Obligations.CrcResidueIsZero
  refine ⟨fun c vs => ?_, fun a => ?_⟩
  · rw [crcBytes_concat, crc8_eq_zero_iff]
  · have hbytes : addrBytes a = (List.range 7).map (addrByte a) ++ [addrByte a 7] := rfl
    rw [hbytes, crcBytes_concat]
    exact crc8_eq_zero_iff _ _

end Sys2Proof.Machine
end

section
/-! The search commands (42_rom_search.md R171–R182): SRCHINIT, the "no more devices" call, one position of a pass by the
pair it reads, and SRCHNEXT: its events, its answer and what it writes. -/

namespace Sys2Proof.Machine

/-! ## Which call is a pass, which walk it makes (R172, R178, R179) -/

theorem searchNext_of_ldf (cfg : Config) {ss : SearchState} (h : ss.ldf = true) (rom : Address) (b : Bus) :
    searchNext cfg ss rom b =
      { found := false, code := .eNone, ss := if cfg.noMoreResetsState then SearchState.init else ss, rom := rom
        bus := b } := by
  rw [searchNext, if_pos h]

theorem searchNext_of_not_ldf (cfg : Config) {ss : SearchState} (h : ss.ldf = false) (rom : Address) (b : Bus) :
    searchNext cfg ss rom b = searchPass cfg.cmds ss rom b := by
  rw [searchNext, if_neg (by simp [h])]

theorem searchPass_of_no_presence (cmds : RomCommands) (ss : SearchState) (rom : Address) {b : Bus}
    (h : (busReset b).1 = false) :
    searchPass cmds ss rom b = searchFailed .eBusResetTimeout rom (busReplay [.reset false] b) := by
  have hb := busReset_replay b
  rw [h] at hb
  simp [searchPass, h, hb]

theorem searchPass_of_presence (cmds : RomCommands) (ss : SearchState) (rom : Address) {b : Bus}
    (h : (busReset b).1 = true) :
    searchPass cmds ss rom b = closePass (walkPositions ss.ld 64
      { lastZero := 0, crc := 0x00#8, lfd := ss.lfd, rom := rom
        bus := busReplay (.reset true :: (byteBits cmds.searchRom).map .write) b }) := by
  have hb := busReset_replay b
  rw [h] at hb
  simp [searchPass, h, hb, busWriteByte_replay, Config.addrBits]

theorem searchNext_of_no_presence (cfg : Config) {ss : SearchState} (hldf : ss.ldf = false) (rom : Address) {b : Bus}
    (hp : (busReset b).1 = false) :
    searchNext cfg ss rom b = searchFailed .eBusResetTimeout rom (busReplay [.reset false] b) := by
  rw [searchNext_of_not_ldf _ hldf, searchPass_of_no_presence _ _ _ hp]

/-! ## SRCHINIT and SRCHNEXT without a pass -/

/-- Settles O31: the command is its two writes, then `finish`. -/
theorem srchinitResetsSearchState : Obligations.SrchinitResetsSearchState := by
  unfold Obligations.SrchinitResetsSearchState
  exact ⟨rfl, exec_eq .srchinit⟩

/-- Settles O32: with LDF = 1 the call is no pass. -/
theorem srchnextNoMoreDevices : Obligations.SrchnextNoMoreDevices := by
  unfold Obligations.SrchnextNoMoreDevices
  intro s h
  rw [exec_eq, commandBody, searchNext_of_ldf _ h]
  rfl

/-! ## One position of a pass -/

/-- An address with these bits is the buffer with the direction stored (R175). -/
theorem eq_setAddrBit {a rom : Address} {pos : Nat} {dir : Bool}
    (h : ∀ i, i < 64 → rom.getLsbD i = if i = pos - 1 then dir else a.getLsbD i) : rom = setAddrBit a pos dir :=
  BitVec.eq_of_getLsbD_eq fun i hi => (h i hi).trans (setAddrBit_getLsbD a dir i hi).symm

theorem takeDirection_eq {pos : Nat} (hpos : 1 ≤ pos) (dir : Bool) (p : PassState) :
    takeDirection pos dir p = { p with
      rom := setAddrBit p.rom pos dir
      crc := if pos % 8 = 0 then crc8 p.crc (addrByte (setAddrBit p.rom pos dir) (pos / 8 - 1)) else p.crc
      bus := busReplay [.write dir] p.bus } := by
  by_cases h : pos % 8 = 0
  · rw [takeDirection, if_pos (by omega), if_pos h, show (pos - 1) / 8 = pos / 8 - 1 by omega]
    rfl
  · rw [takeDirection, if_neg (by omega), if_neg h]
    rfl

theorem markZero_eq (pos : Nat) (dir : Bool) (p : PassState) :
    markZero pos dir p = { p with
      lastZero := if !dir then pos else p.lastZero
      lfd := if (!dir) = true ∧ pos < 9 then pos else p.lfd } := by
  cases dir
  · simp [markZero, Config.familyLimit]
  · simp [markZero]

/-- The step of a position that is not idle (R173–R175): the marks of a discrepancy resolved to 0, the direction stored and
written, a completed byte folded. -/
theorem positionStep_eq (ld : Nat) {pos : Nat} (hpos : 1 ≤ pos) (id cmp : Bool) (p : PassState) {dir zero : Bool}
    (hdir : dir = if id ≠ cmp then id else discrepancyDir pos ld p.rom) (hzero : zero = (id == cmp && !dir)) :
    positionStep ld pos id cmp p =
      { lastZero := if zero then pos else p.lastZero
        lfd := if zero = true ∧ pos < 9 then pos else p.lfd
        rom := setAddrBit p.rom pos dir
        crc := if pos % 8 = 0 then crc8 p.crc (addrByte (setAddrBit p.rom pos dir) (pos / 8 - 1)) else p.crc
        bus := busReplay [.write dir] p.bus } := by
  by_cases h : id = cmp
  · rw [if_neg (by simpa using h)] at hdir
    rw [positionStep, if_neg (by simpa using h), ← hdir, takeDirection_eq hpos, markZero_eq, hzero, beq_iff_eq.2 h,
      Bool.true_and]
  · rw [if_pos h] at hdir
    rw [positionStep, if_pos (by simpa using h), ← hdir, takeDirection_eq hpos, hzero, beq_eq_false_iff_ne.2 h,
      Bool.false_and]
    simp

theorem discrepancyDir_eq (pos ld : Nat) (rom : Address) :
    discrepancyDir pos ld rom = if pos < ld then rom.getLsbD (pos - 1) else if pos = ld then true else false := by
  simp only [discrepancyDir, addrBit]
  split
  · rfl
  · split
    · next h => simpa using h
    · next h => simpa using h

/-- A position whose two reads are known: the idle pair, or the position's step. -/
theorem walkPositions_reads (ld n : Nat) {p : PassState} {id cmp : Bool} {rest : List Bool}
    (h : p.bus.line = .script (id :: cmp :: rest)) :
    walkPositions ld (n + 1) p =
      let q : PassState := { p with bus := busReplay [.read id, .read cmp] p.bus }
      if id && cmp then (some (64 - n), q) else walkPositions ld n (positionStep ld (64 - n) id cmp q) := by
  obtain ⟨hid, hline⟩ := busReadSlot_script h
  have hcmp := (busReadSlot_script hline).1
  have hb1 := busReadSlot_replay p.bus
  have hb2 := busReadSlot_replay (busReadSlot p.bus).2
  rw [hid] at hb1
  rw [hcmp, hb1] at hb2
  rw [hb1] at hcmp
  rw [walkPositions_succ]
  dsimp only
  rw [hid, hb1, hcmp, hb2]
  rfl

/-- Settles O33, by the pair read: the idle pair ends the walk, any other makes the position's step. -/
theorem searchPositionByReadPair : Obligations.SearchPositionByReadPair := by
  unfold Obligations.SearchPositionByReadPair
  intro ld n p id cmp rest hn hline
  rw [walkPositions_reads ld n hline]
  refine ⟨fun hid hcmp => by rw [hid, hcmp]; rfl, fun dir zero rom hidle hdir hzero hrom => ?_⟩
  rw [← discrepancyDir_eq] at hdir
  have hstep := positionStep_eq ld (pos := 64 - n) (by omega) id cmp
    { p with bus := busReplay [.read id, .read cmp] p.bus } hdir hzero
  rw [← eq_setAddrBit hrom] at hstep
  dsimp only
  rw [if_neg (by simpa using hidle), hstep]
  rfl

/-! ## The end of a pass (R176, R177) -/

theorem closePass_rom (w : Option Nat × PassState) : (closePass w).rom = w.2.rom := by
  obtain ⟨_ | pos, p⟩ := w
  · simp only [closePass]
    split
    · rfl
    · split <;> rfl
  · rfl

theorem closePass_of_crc_ne {p : PassState} (h : p.crc ≠ 0x00#8) :
    closePass (none, p) = searchFailed .eChecksumMismatch p.rom p.bus := by
  simp [closePass, h]

theorem closePass_of_rom_zero {p : PassState} (hc : p.crc = 0x00#8) (h : p.rom = 0#64) :
    closePass (none, p) = searchFailed .eZeroAddress p.rom p.bus := by
  simp [closePass, hc, h]

theorem closePass_of_accepted {p : PassState} (hc : p.crc = 0x00#8) (h : p.rom ≠ 0#64) :
    closePass (none, p) =
      { found := true, code := .eNone, ss := { ld := p.lastZero, lfd := p.lfd, ldf := p.lastZero == 0 }, rom := p.rom
        bus := p.bus } := by
  simp [closePass, hc, h]

theorem crcBytes_replicate_zero (n : Nat) : crcBytes 0x00#8 (List.replicate n 0x00#8) = 0x00#8 := by
  induction n with
  | zero => rfl
  | succ n ih => rw [List.replicate_succ', crcBytes_concat, ih, crc8_eq_zero_iff]

theorem crcBytes_addrBytes_zero : crcBytes 0x00#8 (addrBytes 0#64) = 0x00#8 := crcBytes_replicate_zero 8

/-- A call that meets presence ends a walk whose positions are `ps` (R172, R173): up to the idle pair, or all 64, with the
running CRC that of the address in the buffer. -/
theorem searchNext_of_presence (cfg : Config) {ss : SearchState} (hldf : ss.ldf = false) (hlfd : ss.lfd ≤ 8)
    (rom : Address) {b : Bus} (hp : (busReset b).1 = true) :
    ∃ (ps : List PairRead) (p : PassState) (b0 b1 : Bus), ps.length ≤ 64 ∧
      searchNext cfg ss rom b = closePass (if ps.length < 64 then some (ps.length + 1) else none, p) ∧
      p.bus = busReplay (searchPassEvents cfg.cmds ps) b ∧ PassPairs ss.ld rom ss.lfd b0 ps { p with bus := b1 } ∧
      (ps.length = 64 → p.crc = crcBytes 0x00#8 (addrBytes p.rom)) := by
  rw [searchNext_of_not_ldf _ hldf, searchPass_of_presence _ _ _ hp]
  generalize hb0 : busReplay (.reset true :: (byteBits cfg.cmds.searchRom).map .write) b = b0
  obtain ⟨ps, hlen, hidle, hpairs, hbus⟩ := walkPositions_pairs 64 rfl (PassPairs.start ss.ld rom ss.lfd b0)
  have hok := (walkPositions_spec ss.ld 64 (Nat.le_refl 64) _ (passStart_ok hlfd rom b0)).2.2
  refine ⟨ps, _, b0, _, hlen, by rw [← hidle], ?_, hpairs, fun h64 => (hok (by rw [hidle, if_neg (by omega)])).crc⟩
  rw [hbus, ← hb0, ← busReplay_append, searchPassEvents, Config.addrBits, List.append_assoc]

/-! ## The command SRCHNEXT -/

/-- Settles O34, by the lawful answer of a search call (`SearchOk`) and its codes. -/
theorem srchnextOutcomeAndFrame : Obligations.SrchnextOutcomeAndFrame := by
  unfold Obligations.SrchnextOutcomeAndFrame
  rintro s ⟨hld, hlfd, hldf⟩
  have hok := (searchNext_spec s.cfg hld hlfd hldf s.rom s.bus).1
  obtain ⟨hcodes, hfound⟩ := searchNext_code s.cfg s.ss s.rom s.bus
  refine ⟨_, exec_eq .srchnext s, rfl, ⟨hok.legalLd, hok.legalLfd, hok.legalLdf⟩, fun cmds ls hline hf => ?_, hfound,
    hok.failed, fun hf => ?_, hcodes⟩
  · have habsent : (busReset s.bus).1 = false := by
      rcases hline with h | h
      · exact (busReset_script h).1
      · exact busReset_devices h
    rw [commandBody, searchNext_of_no_presence _ hf _ habsent]
    exact ⟨rfl, rfl, rfl, rfl, rfl, rfl⟩
  · obtain ⟨-, hne, hcrc, hlast⟩ := hok.valid hf
    exact ⟨⟨hne, hcrc⟩, hlast⟩

/-- Settles O35, by the events of a search pass (`searchPass_spec`). (`searchPassEvents` is a definition's name.) -/
theorem srchnext_searchPassEvents : Obligations.SearchPassEvents := by
  unfold Obligations.SearchPassEvents
  rintro s ⟨-, hlfd, -⟩ hldf
  have hspec := (searchPass_spec s.cfg.cmds hlfd s.rom s.bus).2.2
  cases hp : (busReset s.bus).1 with
  | false =>
    refine ⟨_, [.reset false], exec_eq .srchnext s, ?_⟩
    rw [commandBody, searchNext_of_no_presence _ hldf _ hp]
    exact ⟨rfl, .inl ⟨rfl, rfl⟩⟩
  | true =>
    obtain ⟨fs, idle, hbus, hreset, hlen, hidle, hdone⟩ := hspec hp
    rw [← searchNext_of_not_ldf s.cfg hldf] at hbus hidle hdone
    refine ⟨_, _, exec_eq .srchnext s, hbus, .inr ⟨fs, rfl, hreset, ?_⟩⟩
    cases idle with
    | none => exact .inl ⟨hlen, by simpa [commandBody, finish] using hdone rfl⟩
    | some q =>
      obtain ⟨hq1, hq64, hcode⟩ := hidle q rfl
      exact .inr ⟨q, hq1, hq64, by simpa [walkLength] using hlen, hcode⟩

/-- Settles O59, by the pairs of the walk and the way the pass ends. -/
theorem srchnextFollowsThePairsItReads : Obligations.SrchnextFollowsThePairsItReads := by
  unfold Obligations.SrchnextFollowsThePairsItReads
  rintro s ⟨-, hlfd, -⟩ hldf
  cases hp : (busReset s.bus).1 with
  | false =>
    refine ⟨_, [.reset false], exec_eq .srchnext s, ?_⟩
    rw [commandBody, searchNext_of_no_presence _ hldf _ hp]
    exact ⟨rfl, .inl ⟨rfl, rfl, rfl, rfl, rfl⟩⟩
  | true =>
    obtain ⟨ps, p, b0, b1, hlen, hcall, hbus, hpairs, hcrc⟩ := searchNext_of_presence s.cfg hldf hlfd s.rom hp
    have hrom : (searchNext s.cfg s.ss s.rom s.bus).rom = p.rom := by rw [hcall, closePass_rom]
    have hbusOut : (searchNext s.cfg s.ss s.rom s.bus).bus = p.bus := by rw [hcall, closePass_bus]
    refine ⟨_, searchPassEvents s.cfg.cmds ps, exec_eq .srchnext s, hbusOut.trans hbus, .inr ⟨ps, hlen, rfl,
      hpairs.chosen, fun i hi => ?_, fun hlt => ?_, fun h64 hne => ?_, fun h64 hzero => ?_, fun h64 hvalid => ?_⟩⟩
    · exact (congrArg (·.getLsbD i) hrom).trans (hpairs.rom i hi)
    · rw [commandBody, hcall, if_pos hlt]
      exact ⟨rfl, rfl, by simp [closePass, searchFailed, finish]⟩
    · have hcrcNe : p.crc ≠ 0x00#8 := by rw [hcrc h64, ← hrom]; exact hne
      rw [commandBody, hcall, if_neg (by omega), closePass_of_crc_ne hcrcNe]
      exact ⟨rfl, rfl, rfl⟩
    · have hromZero : p.rom = 0#64 := hrom.symm.trans hzero
      have hcrcZero : p.crc = 0x00#8 := by rw [hcrc h64, hromZero, crcBytes_addrBytes_zero]
      rw [commandBody, hcall, if_neg (by omega), closePass_of_rom_zero hcrcZero hromZero]
      exact ⟨rfl, rfl, rfl⟩
    · have hromValid : ValidAddress p.rom := hrom ▸ hvalid
      obtain ⟨m, hmark, -, hm⟩ := hpairs.lfd
      rw [commandBody, hcall, if_neg (by omega), closePass_of_accepted ((hcrc h64).trans hromValid.2) hromValid.1]
      exact ⟨rfl, rfl, hpairs.zero.1, ⟨m, hmark, hm⟩, beq_iff_eq⟩

end Sys2Proof.Machine
end

section
/-! The enumeration (42_rom_search.md R183–R185): ENUM as SRCHNEXT calls, and what it finds on the ideal bus
(20_memory.md R97). -/

namespace Sys2Proof.Machine

/-! ## The command ENUM -/

/-- ENUM's values before its first call (R183). -/
def enumStart (s : State) : EnumState :=
  { n := 0, table := Vector.replicate 5 0#64, ss := SearchState.init, rom := s.rom, bus := s.bus }

@[simp] theorem enumStart_n (s : State) : (enumStart s).n = 0 := rfl

theorem enumBody_eq (s : State) :
    enumBody s = ((enumLoop s.cfg 5 (enumStart s)).1, { s with
      count := (enumLoop s.cfg 5 (enumStart s)).2.n
      full := fullFlag (enumLoop s.cfg 5 (enumStart s)).2.n (enumLoop s.cfg 5 (enumStart s)).2.ss
      found := decide (0 < (enumLoop s.cfg 5 (enumStart s)).2.n)
      devtab := (enumLoop s.cfg 5 (enumStart s)).2.table
      ss := (enumLoop s.cfg 5 (enumStart s)).2.ss
      rom := (enumLoop s.cfg 5 (enumStart s)).2.rom
      bus := (enumLoop s.cfg 5 (enumStart s)).2.bus }) := rfl

theorem fullFlag_iff (n : Nat) (ss : SearchState) : fullFlag n ss = true ↔ n = 5 ∧ ss.ldf = false := by
  simp [fullFlag, Config.cap]

/-- Settles O36, by what ENUM writes (`enumBody_spec`) and the calls of which its loop consists (`enumLoop_calls`). -/
theorem enumOutcomeAndFrame : Obligations.EnumOutcomeAndFrame := by
  unfold Obligations.EnumOutcomeAndFrame
  refine ⟨rfl, fun s => ?_⟩
  obtain ⟨hframe, htable, hss, -, -, hfail, es, hbus, hlen⟩ := enumBody_spec s
  obtain ⟨j, hcount, -, -, hfind, hend, hdone, hlast⟩ :=
    enumLoop_calls 5 (enumStart s) (s := { s with ss := SearchState.init }) rfl rfl rfl rfl
  obtain rfl : (enumBody s).2.count = j := hcount.trans (Nat.zero_add j)
  simp only [enumStart_n, Nat.zero_add] at hfind
  refine ⟨_, es, exec_eq .enum s, congrArg (finish _) hframe, hbus, hlen, htable.bound, fun i hi => ?_,
    fullFlag_iff _ _, decide_eq_true_iff, hss, hfail,
    (afterCalls · { s with ss := SearchState.init }), rfl, fun k => exec_afterCalls k _, hfind, hend, hdone, ?_⟩
  · split
    · next hlt => exact htable.valid i hi hlt
    · next hge => exact htable.clear i hi (Nat.le_of_not_lt hge)
  · rintro _ rfl
    exact hlast

/-! ## ENUM on the ideal bus -/

/-- Before the first call no device is found (R183). -/
theorem enumFinds_enumStart {cmds : RomCommands} {ds : List Device} (ks : List Address) {s : State}
    (h : s.bus.line = .devices cmds ds) : EnumFinds cmds (ds.map (·.addr)) ks 0 (enumStart s) :=
  ⟨rfl, Nat.zero_le _, fun _ _ hi => absurd hi (Nat.not_lt_zero _), Nat.zero_le _, ⟨ds, h, rfl⟩, fun _ => rfl,
    fun hi => absurd hi (Nat.not_lt_zero _)⟩

/-- Without presence ENUM ends at its first call (R183). -/
theorem enumLoop_of_no_presence {s : State} (hp : (busReset s.bus).1 = false) :
    enumLoop s.cfg 5 (enumStart s) =
      (.eBusResetTimeout, { enumStart s with bus := busReplay [.reset false] s.bus }) := by
  rw [enumLoop, enumStart, searchNext_of_no_presence _ rfl _ hp]
  rfl

/-- A table that holds the first entries of a list, as many as it has room for. -/
theorem toList_take_eq_take {ks : List Address} {table : Vector Address 5}
    (h : ∀ i (hi : i < 5), i < min ks.length 5 → ks[i]? = some table[i]) :
    table.toList.take (min ks.length 5) = ks.take 5 := by
  refine List.ext_getElem? fun i => ?_
  by_cases hi : i < min ks.length 5
  · rw [List.getElem?_take_of_lt hi, List.getElem?_take_of_lt (by omega), h i (by omega) hi, Vector.getElem?_toList,
      Vector.getElem?_eq_getElem]
  · rw [List.getElem?_eq_none (by simp; omega), List.getElem?_eq_none (by simp; omega)]

/-- Settles O37: an empty bus fails the first call, else the loop finds the devices in the order of their keys. -/
theorem enumFindsDevicesInKeyOrder : Obligations.EnumFindsDevicesInKeyOrder := by
  unfold Obligations.EnumFindsDevicesInKeyOrder
  intro s cmds ds ks hline hcmd hvalid hperm hkeys
  refine ⟨_, exec_eq .enum s, ?_⟩
  rw [commandBody, enumBody_eq]
  by_cases hds : ds = []
  · subst hds
    have hks : ks = [] := List.nil_perm.1 hperm
    rw [enumLoop_of_no_presence (busReset_devices hline), if_pos rfl, if_pos rfl, hks]
    exact ⟨rfl, rfl, iff_of_false Bool.false_ne_true (Nat.not_lt_zero 5), rfl, rfl⟩
  · have hlen : ds.length = ks.length := by simpa using hperm.length_eq
    obtain ⟨hcode, hcount, htable, hldf, hhist⟩ := enumLoop_devices hcmd (by simpa using hds)
      (List.forall_mem_map.2 hvalid) hperm hkeys 5 0 (enumStart s) (enumFinds_enumStart ks hline) rfl
    rw [if_neg hds, if_neg hds, hlen]
    refine ⟨hcount, ?_, (fullFlag_iff _ _).trans ?_, hcode, hhist⟩
    · have htake := toList_take_eq_take htable
      rw [← hcount] at htake
      exact htake
    · rw [hcount, ← Bool.not_eq_true]
      constructor
      · rintro ⟨hfull, hmore⟩
        have hne := mt (hldf (by omega)).2 hmore
        omega
      · intro hgt
        exact ⟨by omega, fun hend => by have := (hldf (by omega)).1 hend; omega⟩

end Sys2Proof.Machine
end

section
/-! MEMRD (43_memory_read.md R200–R205): its code and what it writes in any state, and its attempts on a script of the bus. -/

namespace Sys2Proof.Machine

/-! ## The named entry and its family (R200) -/

theorem deviceOperand_eq_some_iff {idx : Nat} {s : State} {a : Address} :
    deviceOperand idx s = some a ↔ idx < s.count ∧ s.devtab[idx]? = some a :=
  Option.ite_none_right_eq_some

theorem familySupported_iff {cfg : Config} {a : Address} :
    familySupported cfg a = true ↔ a.extractLsb' 0 8 ∈ cfg.families :=
  List.contains_iff_mem

theorem memrdBody_unsupported {idx : Nat} {s : State} {a : Address} (hop : deviceOperand idx s = some a)
    (hfam : familySupported s.cfg a = false) : memrdBody idx s = (.eUnsupportedFamily, { s with attempts := 0 }) := by
  simp [memrdBody, hop, hfam]

/-- MEMRD of a supported entry answers what its ten attempts answer (R200, R203). -/
theorem memrdBody_attempts {idx : Nat} {s : State} {a : Address} {o : ReadOut} (hop : deviceOperand idx s = some a)
    (hfam : familySupported s.cfg a = true) (ho : readAttempts s.cfg.cmds a 10 0 s.bus = o) :
    memrdBody idx s = (o.code, { s with attempts := o.attempts, recbuf := o.record.getD s.recbuf, bus := o.bus }) := by
  simp [memrdBody, hop, hfam, ho]

/-- Different events leave different bus ports, since H records them (R95). -/
theorem busReplay_inj {es fs : List BusEvent} {b : Bus} (h : busReplay es b = busReplay fs b) : es = fs := by
  simpa using congrArg Bus.history h

section Attempts

variable {cmds : RomCommands} {a : Address} {b : Bus}

/-! ## One attempt (R202, R204) -/

/-- An attempt of two complete passes succeeds when they read one record, and leaves the rest to the attempts left when they
do not (R202). -/
theorem readAttempts_of_passes (n att : Nat) {b1 b2 : Bus} {r r' : Record} (h1 : readPass cmds a b = (some r, b1))
    (h2 : readPass cmds a b1 = (some r', b2)) :
    readAttempts cmds a (n + 1) att b =
      if r = r' then { code := .eNone, attempts := att + 1, record := some r, bus := b2 }
      else readAttempts cmds a n (att + 1) b2 := by
  simp only [readAttempts, h1, h2, Vector.toList_inj]

/-- An attempt whose first pass sees no presence is the last one (R204). -/
theorem readAttempts_of_first_absent (n att : Nat) {b1 : Bus} (h : readPass cmds a b = (none, b1)) :
    readAttempts cmds a (n + 1) att b =
      { code := .eBusResetTimeout, attempts := att + 1, record := none, bus := b1 } := by
  simp only [readAttempts, h]

/-- An attempt whose second pass sees no presence is the last one (R204). -/
theorem readAttempts_of_second_absent (n att : Nat) {b1 b2 : Bus} {r : Record}
    (h1 : readPass cmds a b = (some r, b1)) (h2 : readPass cmds a b1 = (none, b2)) :
    readAttempts cmds a (n + 1) att b =
      { code := .eBusResetTimeout, attempts := att + 1, record := none, bus := b2 } := by
  simp only [readAttempts, h1, h2]

/-! ## Success is two equal passes (R202, R203) -/

/-- Attempts that end with code 0x0 end with one whose two passes read the record they answer. -/
theorem readAttempts_success (n : Nat) {att : Nat} (h : (readAttempts cmds a n att b).code = .eNone) :
    att < (readAttempts cmds a n att b).attempts ∧
    ∃ r fs, (readAttempts cmds a n att b).record = some r ∧
      (readAttempts cmds a n att b).bus = busReplay (fs ++ attemptEvents cmds a (r, r)) b := by
  induction n generalizing att b with
  | zero => simp [readAttempts] at h
  | succ n ih =>
    rcases readPass_spec cmds a b with h1 | ⟨r, h1⟩
    · simp [readAttempts_of_first_absent n att h1] at h
    rcases readPass_spec cmds a (busReplay (readPassEvents cmds a r) b) with h2 | ⟨r', h2⟩
    · simp [readAttempts_of_second_absent n att h1 h2] at h
    rw [readAttempts_of_passes n att h1 h2] at h ⊢
    split at h
    case isTrue heq =>
      subst heq
      rw [if_pos rfl]
      exact ⟨Nat.lt_succ_self att, r, [], rfl, (busReplay_append _ _ _).symm⟩
    case isFalse hne =>
      obtain ⟨hatt, q, fs, hrec, hbus⟩ := ih h
      rw [if_neg hne]
      refine ⟨Nat.lt_of_succ_lt hatt, q, attemptEvents cmds a (r, r') ++ fs, hrec, ?_⟩
      simpa only [attemptEvents, busReplay_append] using hbus

/-! ## Attempts on a script (R204, R205) -/

/-- The events of a complete read pass take its levels from the script (R201). -/
theorem busReplay_readPassEvents_script {r : Record} {rest : List Bool}
    (h : b.line = .script (passLevels r ++ rest)) : (busReplay (readPassEvents cmds a r) b).line = .script rest := by
  obtain ⟨hpass, hline⟩ := readPass_script (cmds := cmds) (a := a) h
  rwa [hpass] at hline

/-- An attempt on a script that holds the levels of its two passes (R202). -/
theorem readAttempts_script (n att : Nat) {p : Record × Record} {rest : List Bool}
    (h : b.line = .script (attemptLevels p ++ rest)) :
    readAttempts cmds a (n + 1) att b =
        (if p.1 = p.2 then
          { code := .eNone, attempts := att + 1, record := some p.1, bus := busReplay (attemptEvents cmds a p) b }
        else readAttempts cmds a n (att + 1) (busReplay (attemptEvents cmds a p) b)) ∧
      (busReplay (attemptEvents cmds a p) b).line = .script rest := by
  rw [attemptLevels, List.append_assoc] at h
  have hmid := busReplay_readPassEvents_script (cmds := cmds) (a := a) h
  rw [attemptEvents, busReplay_append]
  exact ⟨readAttempts_of_passes n att (readPass_script h).1 (readPass_script hmid).1,
    busReplay_readPassEvents_script hmid⟩

/-- Attempts that compare unequal are counted, and those left go on after their events (R202, R205). -/
theorem readAttempts_unequal (n : Nat) {att : Nat} {pairs : List (Record × Record)} {rest : List Bool}
    (hne : ∀ p ∈ pairs, p.1 ≠ p.2) (h : b.line = .script (pairs.flatMap attemptLevels ++ rest)) :
    readAttempts cmds a (pairs.length + n) att b =
        readAttempts cmds a n (att + pairs.length) (busReplay (pairs.flatMap (attemptEvents cmds a)) b) ∧
      (busReplay (pairs.flatMap (attemptEvents cmds a)) b).line = .script rest := by
  induction pairs generalizing att b with
  | nil => exact ⟨by simp, h⟩
  | cons p pairs ih =>
    obtain ⟨hp, hpairs⟩ := List.forall_mem_cons.1 hne
    rw [List.flatMap_cons, List.append_assoc] at h
    obtain ⟨hstep, hline⟩ := readAttempts_script (cmds := cmds) (a := a) (pairs.length + n) att h
    obtain ⟨hrest, hend⟩ := ih hpairs (att := att + 1) hline
    rw [List.flatMap_cons, busReplay_append, List.length_cons, Nat.add_right_comm, hstep, if_neg hp, hrest,
      Nat.add_assoc, Nat.add_comm 1]
    exact ⟨rfl, hend⟩

/-- An attempt on a script that answers no presence in the first or the second pass ends with that reset (R204). -/
theorem readAttempts_script_absent (n att : Nat) {mid rest : List Bool} (hmid : mid = [] ∨ ∃ r, mid = passLevels r)
    (h : b.line = .script (mid ++ true :: rest)) :
    ∃ es, readAttempts cmds a (n + 1) att b =
        { code := .eBusResetTimeout, attempts := att + 1, record := none, bus := busReplay (es ++ [.reset false]) b } ∧
      es.length = (if mid = [] then 0 else 353) ∧ (busReplay es b).line = .script (true :: rest) := by
  rcases hmid with rfl | ⟨r, rfl⟩
  · exact ⟨[], readAttempts_of_first_absent n att (readPass_script_absent h), rfl, h⟩
  · have hline := busReplay_readPassEvents_script (cmds := cmds) (a := a) h
    refine ⟨readPassEvents cmds a r, ?_, by simp [passLevels], hline⟩
    rw [busReplay_append]
    exact readAttempts_of_second_absent n att (readPass_script h).1 (readPass_script_absent hline)

theorem flatMap_attemptEvents_length (pairs : List (Record × Record)) :
    (pairs.flatMap (attemptEvents cmds a)).length = 706 * pairs.length := by
  simp [List.length_flatMap, Nat.mul_comm]

end Attempts

/-! ## MEMRD (R200, R203–R205) -/

/-- MEMRD with code 0x0 has read the record now in RECBUF in the two passes of its last attempt. -/
theorem memrdBody_success {idx : Nat} {s : State} (h : (memrdBody idx s).1 = .eNone) :
    1 ≤ (memrdBody idx s).2.attempts ∧ ∃ a fs, deviceOperand idx s = some a ∧
      (memrdBody idx s).2.bus =
        busReplay (fs ++ attemptEvents s.cfg.cmds a ((memrdBody idx s).2.recbuf, (memrdBody idx s).2.recbuf)) s.bus := by
  cases hop : deviceOperand idx s with
  | none => simp [memrdBody, hop] at h
  | some a =>
    cases hfam : familySupported s.cfg a with
    | false => simp [memrdBody_unsupported hop hfam] at h
    | true =>
      rw [memrdBody_attempts hop hfam rfl] at h ⊢
      obtain ⟨hatt, r, fs, hrec, hbus⟩ := readAttempts_success 10 h
      rw [hrec, Option.getD_some]
      exact ⟨hatt, a, fs, rfl, hbus⟩

/-- Settles O39: the family check comes before the first attempt. -/
theorem memrdUnsupportedFamily : Obligations.MemrdUnsupportedFamily := by
  unfold Obligations.MemrdUnsupportedFamily
  intro s idx a hidx hentry hfam
  have hbody := memrdBody_unsupported (deviceOperand_eq_some_iff.2 ⟨hidx, hentry⟩)
    (Bool.eq_false_iff.2 (mt familySupported_iff.1 hfam))
  rw [exec_eq, commandBody, hbody, finish]

/-- Settles O40, by what MEMRD writes (`memrdBody_spec`) and the attempt with which it succeeds. -/
theorem memrdOutcomeAndFrame : Obligations.MemrdOutcomeAndFrame := by
  unfold Obligations.MemrdOutcomeAndFrame
  intro s idx
  obtain ⟨hframe, ⟨es, hbus, hlen⟩, hatt, hrec, hcode⟩ := memrdBody_spec idx s
  refine ⟨_, es, exec_eq (.memrd idx) s, ?_, hbus, hlen, hatt, hrec, fun hok => ?_, hcode⟩
  · exact congrArg (finish (memrdBody idx s).1) hframe
  · obtain ⟨hpos, a, fs, hop, hlast⟩ := memrdBody_success hok
    obtain ⟨hidx, hentry⟩ := deviceOperand_eq_some_iff.1 hop
    refine ⟨hpos, a, fs, hentry, hidx, ?_⟩
    rw [List.append_assoc]
    exact busReplay_inj (hbus.symm.trans hlast)

/-- Settles O41: the unequal attempts are passed over, and the failed reset is the last event of the next. -/
theorem memrdStopsAtResetFailure : Obligations.MemrdStopsAtResetFailure := by
  unfold Obligations.MemrdStopsAtResetFailure
  intro s idx a pairs mid rest hidx hentry hfam hk hne hmid hline
  obtain ⟨n, hn⟩ : ∃ n, 10 = pairs.length + (n + 1) := ⟨9 - pairs.length, by omega⟩
  rw [List.append_assoc] at hline
  obtain ⟨hskip, hnext⟩ := readAttempts_unequal (cmds := s.cfg.cmds) (a := a) (n + 1) (att := 0) hne hline
  obtain ⟨es, hlast, hlen, hreset⟩ := readAttempts_script_absent (cmds := s.cfg.cmds) (a := a) n (0 + pairs.length) hmid hnext
  have hbody := memrdBody_attempts (deviceOperand_eq_some_iff.2 ⟨hidx, hentry⟩) (familySupported_iff.2 hfam)
    (hn ▸ hskip.trans hlast)
  refine ⟨_, exec_eq (.memrd idx) s, ?_⟩
  rw [commandBody, hbody]
  refine ⟨by simp [finish], ?_, ?_, ?_, ?_⟩
  · simp [busReplay_append, presentAfter]
  · simp [busReplay_append, hreset, lineAfter, sampled]
  · simp
  · simp only [finish_bus, busReplay_history, List.length_append, List.length_reverse, flatMap_attemptEvents_length, hlen,
      List.length_singleton]
    omega

/-- Settles O42: after the unequal attempts comes one that compares equal, or no attempt is left. -/
theorem memrdRetriesUntilTwoPassesAgree : Obligations.MemrdRetriesUntilTwoPassesAgree := by
  unfold Obligations.MemrdRetriesUntilTwoPassesAgree
  intro s idx a pairs r rest hidx hentry hfam hne
  have hop := deviceOperand_eq_some_iff.2 ⟨hidx, hentry⟩
  have hsup := familySupported_iff.2 hfam
  refine ⟨fun hk hline => ?_, fun hk hline => ⟨?_, by rw [flatMap_attemptEvents_length, hk]⟩⟩
  · obtain ⟨n, hn⟩ : ∃ n, 10 = pairs.length + (n + 1) := ⟨9 - pairs.length, by omega⟩
    rw [List.append_assoc] at hline
    obtain ⟨hskip, hnext⟩ := readAttempts_unequal (cmds := s.cfg.cmds) (a := a) (n + 1) (att := 0) hne hline
    obtain ⟨hlast, -⟩ := readAttempts_script (cmds := s.cfg.cmds) (a := a) n (0 + pairs.length) hnext
    rw [if_pos rfl] at hlast
    rw [exec_eq, commandBody, memrdBody_attempts hop hsup (hn ▸ hskip.trans hlast)]
    simp [finish, busReplay_append]
  · obtain ⟨hskip, -⟩ := readAttempts_unequal (cmds := s.cfg.cmds) (a := a) 0 (att := 0) hne hline
    rw [exec_eq, commandBody, memrdBody_attempts hop hsup (hk ▸ hskip)]
    simp [finish, readAttempts]

end Sys2Proof.Machine
end

section
/-! DECODE (44_identity.md R220–R228): the catalog lookups as first matches, the bytes the decoder reads, and the
normalisation of the revision characters. -/

namespace Sys2Proof.Machine

/-! ## The lookups (R222) -/

section Lookup

variable {E : Type} {nameOf : E → List Byte} {cat : List E} {name : List Byte}

/-- A lookup finds nothing exactly when no entry's name begins the given one. -/
theorem find?_startsWith_eq_none_iff :
    cat.find? (fun e => startsWith name (nameOf e)) = none ↔ ∀ e ∈ cat, ¬ nameOf e <+: name := by
  simp [startsWith]

/-- A lookup finds the first entry whose name begins the given one. -/
theorem find?_startsWith_eq_some_iff {e : E} :
    cat.find? (fun e => startsWith name (nameOf e)) = some e ↔
      ∃ pre post, cat = pre ++ e :: post ∧ nameOf e <+: name ∧ ∀ x ∈ pre, ¬ nameOf x <+: name := by
  simp only [List.find?_eq_some_iff_append, startsWith, List.isPrefixOf_iff_prefix, Bool.not_eq_true',
    ← Bool.not_eq_true]
  constructor
  · rintro ⟨hbegins, pre, post, hcat, hfirst⟩
    exact ⟨pre, post, hcat, hbegins, hfirst⟩
  · rintro ⟨pre, post, hcat, hbegins, hfirst⟩
    exact ⟨hbegins, pre, post, hcat, hfirst⟩

end Lookup

theorem lookupBoard_eq_none_iff {cat : List BoardEntry} {name : List Byte} :
    lookupBoard cat name = none ↔ ∀ e ∈ cat, ¬ e.name <+: name :=
  find?_startsWith_eq_none_iff

theorem lookupBoard_eq_some_iff {cat : List BoardEntry} {name : List Byte} {e : BoardEntry} :
    lookupBoard cat name = some e ↔ FirstBoard cat name e :=
  find?_startsWith_eq_some_iff

theorem lookupVendor_eq_none_iff {cat : List VendorEntry} {name : List Byte} :
    lookupVendor cat name = none ↔ ∀ e ∈ cat, ¬ e.name <+: name :=
  find?_startsWith_eq_none_iff

theorem lookupVendor_eq_some_iff {cat : List VendorEntry} {name : List Byte} {e : VendorEntry} :
    lookupVendor cat name = some e ↔ FirstVendor cat name e :=
  find?_startsWith_eq_some_iff

/-! ## The revision characters (R223–R225) -/

theorem normCode_upper {c : Byte} (h : 0x41#8 ≤ c ∧ c ≤ 0x5A#8) : normCode c = c := if_pos h

theorem normCode_lower {c : Byte} (h : 0x61#8 ≤ c ∧ c ≤ 0x7A#8) : normCode c = c - 0x20#8 := by
  have hupper : ¬ (0x41#8 ≤ c ∧ c ≤ 0x5A#8) := by bv_omega
  rw [normCode, if_neg hupper, if_pos h]

theorem normCode_other {c : Byte} (hupper : ¬ (0x41#8 ≤ c ∧ c ≤ 0x5A#8)) (hlower : ¬ (0x61#8 ≤ c ∧ c ≤ 0x7A#8)) :
    normCode c = 0x41#8 := by
  rw [normCode, if_neg hupper, if_neg hlower]

theorem normId_digit {c : Byte} (h : 0x30#8 ≤ c ∧ c ≤ 0x39#8) : normId c = c := if_pos h

theorem normId_hex {c : Byte} (h : (0x41#8 ≤ c ∧ c ≤ 0x46#8) ∨ (0x61#8 ≤ c ∧ c ≤ 0x66#8)) : normId c = 0x39#8 := by
  have hdigit : ¬ (0x30#8 ≤ c ∧ c ≤ 0x39#8) := by bv_omega
  rw [normId, if_neg hdigit, if_pos h]

theorem normId_other {c : Byte} (hdigit : ¬ (0x30#8 ≤ c ∧ c ≤ 0x39#8))
    (hhex : ¬ ((0x41#8 ≤ c ∧ c ≤ 0x46#8) ∨ (0x61#8 ≤ c ∧ c ≤ 0x66#8))) : normId c = 0x30#8 := by
  rw [normId, if_neg hdigit, if_neg hhex]

/-- A mapping byte of 'B' swaps the roles of bytes 28 and 29. -/
theorem revisionMapping_swapped {r : Record} (h : r[30] = 0x42#8) :
    revisionMapping r = (normId r[29], normCode r[28]) := if_pos h

theorem revisionMapping_unswapped {r : Record} (h : r[30] ≠ 0x42#8) : revisionMapping r = (normId r[28], r[29]) :=
  if_neg h

/-- Settles O45, by the branches of the two normalisations and of the mapping; the fold does not read `bomRev`. -/
theorem revisionCharactersNormalise : Obligations.RevisionCharactersNormalise := by
  unfold Obligations.RevisionCharactersNormalise
  refine ⟨fun c => ⟨normCode_upper, normCode_lower, normCode_other, normCode_range c⟩,
    fun c => ⟨normId_digit, normId_hex, normId_other, normId_range c⟩,
    fun r => ⟨revisionMapping_swapped, revisionMapping_unswapped⟩, fun r d b w => ?_⟩
  cases r <;> rfl

/-! ## DECODE (R226, R227) -/

theorem decodeBody_of_error {s : State} {c : ErrCode} (h : decodeRecord s.cfg s.recbuf = .error c) :
    decodeBody s = (c, { s with ident := Identity.zero }) := by
  rw [decodeBody, h]

theorem decodeBody_of_ok {s : State} {d : Identity} (h : decodeRecord s.cfg s.recbuf = .ok d) :
    decodeBody s = (.eNone, { s with ident := d }) := by
  rw [decodeBody, h]

theorem decodeRecord_unknown_board {cfg : Config} {r : Record}
    (h : lookupBoard cfg.boardCatalog (trimName (boardField r)) = none) :
    decodeRecord cfg r = .error .eUnknownBoardName := by
  rw [decodeRecord, h]

theorem decodeRecord_unknown_vendor {cfg : Config} {r : Record} {be : BoardEntry}
    (hb : lookupBoard cfg.boardCatalog (trimName (boardField r)) = some be)
    (hv : lookupVendor cfg.vendorCatalog (trimName (vendorField r)) = none) :
    decodeRecord cfg r = .error .eUnknownVendorName := by
  simp only [decodeRecord, hb, hv]

theorem decodeRecord_known {cfg : Config} {r : Record} {be : BoardEntry} {ve : VendorEntry}
    (hb : lookupBoard cfg.boardCatalog (trimName (boardField r)) = some be)
    (hv : lookupVendor cfg.vendorCatalog (trimName (vendorField r)) = some ve) :
    decodeRecord cfg r = .ok
      { role := be.role, boardId := be.boardId, vendorId := ve.vendorId, revCode := normCode r[27]
        revId := (revisionMapping r).1, bomRev := (revisionMapping r).2 } := by
  simp only [decodeRecord, hb, hv]

/-- Settles O44: the two lookups decide which of the three outcomes DECODE has. -/
theorem decodeLooksUpFirstMatches : Obligations.DecodeLooksUpFirstMatches := by
  unfold Obligations.DecodeLooksUpFirstMatches
  refine ⟨rfl, fun s bname vname hbname hvname => ?_⟩
  obtain rfl : bname = trimName (boardField s.recbuf) := hbname
  obtain rfl : vname = trimName (vendorField s.recbuf) := hvname
  simp only [exec_eq, commandBody]
  refine ⟨fun hboard => ?_, fun be hboard => ⟨fun hvendor => ?_, fun ve hvendor => ?_⟩⟩
  · rw [decodeBody_of_error (decodeRecord_unknown_board (lookupBoard_eq_none_iff.2 hboard))]
    rfl
  · rw [decodeBody_of_error
      (decodeRecord_unknown_vendor (lookupBoard_eq_some_iff.2 hboard) (lookupVendor_eq_none_iff.2 hvendor))]
    rfl
  · rw [decodeBody_of_ok (decodeRecord_known (lookupBoard_eq_some_iff.2 hboard) (lookupVendor_eq_some_iff.2 hvendor))]
    by_cases hswap : s.recbuf[30] = 0x42#8
    · simp only [revisionMapping_swapped hswap, if_pos hswap, finish]
    · simp only [revisionMapping_unswapped hswap, if_neg hswap, finish]

/-! ## The bytes DECODE reads (R228) -/

/-- A field depends on its own bytes only. -/
theorem recordField_congr {r r' : Record} {lo hi : Nat} (h : ∀ j (hj : j < 32), lo ≤ j → j ≤ hi → r[j] = r'[j]) :
    recordField r lo hi = recordField r' lo hi := by
  refine List.ext_getElem (by simp [recordField]) fun k hk hk' => ?_
  have hlen : lo + k < 32 ∧ lo + k ≤ hi := by
    simp [recordField] at hk; omega
  simpa [recordField] using h (lo + k) hlen.1 (Nat.le_add_right lo k) hlen.2

/-- `DecodeRecord` depends on the names and the four revision characters only. -/
theorem decodeRecord_congr (cfg : Config) {r r' : Record}
    (h : ∀ j (hj : j < 32), recordByteUsed j = true → r[j] = r'[j]) : decodeRecord cfg r = decodeRecord cfg r' := by
  have hboard : boardField r = boardField r' :=
    recordField_congr fun j hj hlo hhi => h j hj (by simp [recordByteUsed]; omega)
  have hvendor : vendorField r = vendorField r' :=
    recordField_congr fun j hj hlo hhi => h j hj (by simp [recordByteUsed]; omega)
  have h27 : r[27] = r'[27] := h 27 (by decide) (by decide)
  have hmap : revisionMapping r = revisionMapping r' := by
    simp only [revisionMapping, h 28 (by decide) (by decide), h 29 (by decide) (by decide), h 30 (by decide) (by decide)]
  simp only [decodeRecord, hboard, hvendor, h27, hmap]

/-- Settles O46: DECODE's identity and code are a function of what `DecodeRecord` answers. -/
theorem decodeIgnoresUnusedBytes : Obligations.DecodeIgnoresUnusedBytes := by
  unfold Obligations.DecodeIgnoresUnusedBytes
  intro s t hcfg hbytes
  have hrecord : decodeRecord s.cfg s.recbuf = decodeRecord t.cfg t.recbuf := hcfg ▸ decodeRecord_congr s.cfg hbytes
  refine ⟨_, _, exec_eq .decode s, exec_eq .decode t, ?_⟩
  cases hd : decodeRecord t.cfg t.recbuf with
  | error c => simp [commandBody, decodeBody_of_error hd, decodeBody_of_error (hrecord.trans hd)]
  | ok d => simp [commandBody, decodeBody_of_ok hd, decodeBody_of_ok (hrecord.trans hd)]

end Sys2Proof.Machine
end

section
/-! The fold of identities into the two words, read back through the accessors (44_identity.md R229–R232, R238, R240). -/

namespace Sys2Proof.Machine

/-! ## Fields -/

@[simp] theorem fieldAt_zero (w lo : Nat) : fieldAt (0#w) lo = 0x00000000#32 := by
  simp [fieldAt]

/-- A field cut from the OR of two words. -/
theorem fieldAt_extractLsb'_or (x y : Word) (a n lo : Nat) :
    fieldAt ((x ||| y).extractLsb' a n) lo = fieldAt (x.extractLsb' a n) lo ||| fieldAt (y.extractLsb' a n) lo := by
  simp only [fieldAt, BitVec.extractLsb'_or, BitVec.setWidth_or, BitVec.shiftLeft_or_distrib]

/-- A masked and shifted byte is a field as wide as its mask. -/
theorem masked_shiftLeft_eq_fieldAt (n : Nat) (x : Byte) (lo : Nat) :
    (x.setWidth 32 &&& (BitVec.allOnes n).setWidth 32) <<< lo = fieldAt (x.setWidth n) lo := by
  have hmask : x.setWidth 32 &&& (BitVec.allOnes n).setWidth 32 = (x.setWidth n).setWidth 32 := by
    refine BitVec.eq_of_getLsbD_eq fun i hi => ?_
    simp [hi, Bool.and_comm]
  rw [fieldAt, hmask]

/-- The fields of an identity at its role's offsets (R230): its ids, its revision code less 'A', its revision id less '0'. -/
def packIdentity (r : Role) (d : Identity) : Word × Word :=
  (fieldAt (d.boardId.setWidth 5) (roleOffsets r).1 ||| fieldAt (d.vendorId.setWidth 5) (roleOffsets r).2.1,
   fieldAt ((d.revCode - 0x41#8).setWidth 5) (roleOffsets r).2.2.1 |||
     fieldAt ((d.revId - 0x30#8).setWidth 3) (roleOffsets r).2.2.2)

/-- The fold ORs the packed identity into the words (R230). -/
theorem foldIdentity_eq (r : Role) (d : Identity) (w : Word × Word) :
    foldIdentity r d w = (w.1 ||| (packIdentity r d).1, w.2 ||| (packIdentity r d).2) := by
  simp only [packIdentity, ← masked_shiftLeft_eq_fieldAt, ← BitVec.or_assoc]
  rfl

/-! ## The accessors and the fold (R230, R238) -/

/-- The accessor register of a role: ACC_CPU, ACC_DISPLAY or ACC_CARRIER (R47, R238). -/
def roleAccessor (r : Role) (w : Word × Word) : Word :=
  accessorWord (roleOffsets r).1 (roleOffsets r).2.1 (roleOffsets r).2.2.1 (roleOffsets r).2.2.2 w.1 w.2

/-- What the accessor of its role shows of an identity (R240). -/
def identityWord (d : Identity) : Word :=
  fieldAt (d.boardId.setWidth 5) 0 ||| fieldAt (d.vendorId.setWidth 5) 8 |||
  fieldAt ((d.revCode - 0x41#8).setWidth 5) 16 ||| fieldAt ((d.revId - 0x30#8).setWidth 3) 24

@[simp] theorem roleAccessor_zero (r : Role) : roleAccessor r (0#32, 0#32) = 0x00000000#32 := by
  simp [roleAccessor, accessorWord]

theorem or_interleave (a a' b b' c c' d d' : Word) :
    (a ||| a') ||| (b ||| b') ||| (c ||| c') ||| (d ||| d') = (a ||| b ||| c ||| d) ||| (a' ||| b' ||| c' ||| d') := by
  ac_rfl

/-- An accessor takes the OR of words apart. -/
theorem roleAccessor_or (r : Role) (w x : Word × Word) :
    roleAccessor r (w.1 ||| x.1, w.2 ||| x.2) = roleAccessor r w ||| roleAccessor r x := by
  simp only [roleAccessor, accessorWord, fieldAt_extractLsb'_or, or_interleave]

theorem roleAccessor_packIdentity_self (r : Role) (d : Identity) : roleAccessor r (packIdentity r d) = identityWord d := by
  cases r
  all_goals
    simp (disch := omega) only [roleAccessor, accessorWord, packIdentity, roleOffsets, identityWord, BitVec.extractLsb'_or,
      extractLsb'_fieldAt, extractLsb'_fieldAt_apart, BitVec.or_zero, BitVec.zero_or]

/-- The fields of the roles do not overlap (R231, R232). -/
theorem roleAccessor_packIdentity_ne {q r : Role} (h : q ≠ r) (d : Identity) :
    roleAccessor q (packIdentity r d) = 0x00000000#32 := by
  cases q <;> cases r <;> try contradiction
  all_goals
    simp (disch := omega) only [roleAccessor, accessorWord, packIdentity, roleOffsets, BitVec.extractLsb'_or,
      extractLsb'_fieldAt_apart, BitVec.or_zero, fieldAt_zero]

/-- The fold ORs an identity into the accessor of its role. -/
theorem roleAccessor_foldIdentity_self (r : Role) (d : Identity) (w : Word × Word) :
    roleAccessor r (foldIdentity r d w) = roleAccessor r w ||| identityWord d := by
  rw [foldIdentity_eq, roleAccessor_or, roleAccessor_packIdentity_self]

/-- The fold leaves the accessors of the other roles. -/
theorem roleAccessor_foldIdentity_ne {q r : Role} (h : q ≠ r) (d : Identity) (w : Word × Word) :
    roleAccessor q (foldIdentity r d w) = roleAccessor q w := by
  rw [foldIdentity_eq, roleAccessor_or, roleAccessor_packIdentity_ne h, BitVec.or_zero]

/-- The bits of the words that belong to no role: SERIAL 31..30 and REVISION 31..24 (R231, R232). -/
def spareBits (w : Word × Word) : BitVec 2 × BitVec 8 := (w.1.extractLsb' 30 2, w.2.extractLsb' 24 8)

@[simp] theorem spareBits_foldIdentity (r : Role) (d : Identity) (w : Word × Word) :
    spareBits (foldIdentity r d w) = spareBits w := by
  rw [foldIdentity_eq]
  cases r
  all_goals
    simp (disch := omega) only [spareBits, packIdentity, roleOffsets, BitVec.extractLsb'_or, extractLsb'_fieldAt_apart, BitVec.or_zero]

/-! ## Folding several identities (R240) -/

/-- The words after these identities are folded in, each as of its role. -/
def foldAll (ds : List (Role × Identity)) (w : Word × Word) : Word × Word :=
  ds.foldl (fun w x => foldIdentity x.1 x.2 w) w

@[simp] theorem foldAll_nil (w : Word × Word) : foldAll [] w = w := rfl

@[simp] theorem foldAll_cons (x : Role × Identity) (ds : List (Role × Identity)) (w : Word × Word) :
    foldAll (x :: ds) w = foldAll ds (foldIdentity x.1 x.2 w) := rfl

/-- Identities of other roles leave a role's accessor. -/
theorem roleAccessor_foldAll_of_absent {r : Role} {ds : List (Role × Identity)} (h : ∀ x ∈ ds, r ≠ x.1) (w : Word × Word) :
    roleAccessor r (foldAll ds w) = roleAccessor r w := by
  induction ds generalizing w with
  | nil => rfl
  | cons x ds ih =>
    obtain ⟨hx, hds⟩ := List.forall_mem_cons.1 h
    rw [foldAll_cons, ih hds, roleAccessor_foldIdentity_ne hx]

/-- Of identities of different roles, in any order, each is ORed into the accessor of its own role. -/
theorem roleAccessor_foldAll_of_mem {r : Role} {d : Identity} {ds : List (Role × Identity)}
    (hnodup : (ds.map Prod.fst).Nodup) (hmem : (r, d) ∈ ds) (w : Word × Word) :
    roleAccessor r (foldAll ds w) = roleAccessor r w ||| identityWord d := by
  induction ds generalizing w with
  | nil => simp at hmem
  | cons x ds ih =>
    obtain ⟨hx, hds⟩ := List.nodup_cons.1 hnodup
    rw [foldAll_cons]
    rcases List.mem_cons.1 hmem with rfl | hmem
    · have habsent : ∀ y ∈ ds, r ≠ y.1 := fun y hy hr => hx (List.mem_map.2 ⟨y, hy, hr.symm⟩)
      rw [roleAccessor_foldAll_of_absent habsent, roleAccessor_foldIdentity_self]
    · have hne : r ≠ x.1 := fun hr => hx (List.mem_map.2 ⟨(r, d), hmem, hr⟩)
      rw [ih hds hmem, roleAccessor_foldIdentity_ne hne]

theorem spareBits_foldAll (ds : List (Role × Identity)) (w : Word × Word) : spareBits (foldAll ds w) = spareBits w := by
  induction ds generalizing w with
  | nil => rfl
  | cons x ds ih => rw [foldAll_cons, ih, spareBits_foldIdentity]

/-! ## Reading back (R240) -/

/-- A byte that fits 5 bits survives the field. -/
theorem setWidth_field_of_lt {x : Byte} (h : x < 0x20#8) : (x.setWidth 5).setWidth 8 = x := by
  refine BitVec.eq_of_toNat_eq ?_
  have hlt : x.toNat < 32 := h
  simp only [BitVec.toNat_setWidth]
  omega

/-- A 3-bit field keeps a byte modulo 8. -/
theorem setWidth_field_eq_and (x : Byte) : (x.setWidth 3).setWidth 8 = x &&& 0x07#8 := by
  refine BitVec.eq_of_toNat_eq ?_
  have hmask : x.toNat &&& 7 = x.toNat % 8 := Nat.and_two_pow_sub_one_eq_mod x.toNat 3
  simp only [BitVec.toNat_setWidth, BitVec.toNat_and, BitVec.toNat_ofNat, Nat.reducePow, Nat.reduceMod, hmask]
  omega

/-- The slices of what an accessor shows of an identity. -/
theorem identityWord_fields (d : Identity) :
    (identityWord d).extractLsb' 0 5 = d.boardId.setWidth 5 ∧
    (identityWord d).extractLsb' 8 5 = d.vendorId.setWidth 5 ∧
    (identityWord d).extractLsb' 16 5 = (d.revCode - 0x41#8).setWidth 5 ∧
    (identityWord d).extractLsb' 24 3 = (d.revId - 0x30#8).setWidth 3 := by
  refine ⟨?_, ?_, ?_, ?_⟩
  all_goals
    simp (disch := omega) only [identityWord, BitVec.extractLsb'_or, extractLsb'_fieldAt, extractLsb'_fieldAt_apart,
      BitVec.zero_or, BitVec.or_zero]

/-- Settles O47: in any order, each role's accessor shows the identity of that role. -/
theorem foldReadsBackThroughAccessors : Obligations.FoldReadsBackThroughAccessors := by
  unfold Obligations.FoldReadsBackThroughAccessors
  intro dc dd dk ds w hperm hw hranges
  change w = foldAll ds (0#32, 0#32) at hw
  have hnodup : (ds.map Prod.fst).Nodup :=
    (hperm.map Prod.fst).nodup_iff.2 (show [Role.cpu, .display, .carrier].Nodup by decide)
  have hacc : ∀ r d, (r, d) ∈ [(Role.cpu, dc), (.display, dd), (.carrier, dk)] → roleAccessor r w = identityWord d := by
    intro r d hmem
    rw [hw, roleAccessor_foldAll_of_mem hnodup (hperm.mem_iff.2 hmem), roleAccessor_zero, BitVec.zero_or]
  refine ⟨fun d acc hmem => ?_, Prod.mk.inj (hw ▸ spareBits_foldAll ds (0#32, 0#32))⟩
  have hd : d ∈ [dc, dd, dk] := List.mem_map_of_mem (f := Prod.fst) hmem
  have hword : acc = identityWord d := by
    simp only [List.mem_cons, Prod.mk.injEq, List.not_mem_nil, or_false] at hmem
    rcases hmem with ⟨rfl, rfl⟩ | ⟨rfl, rfl⟩ | ⟨rfl, rfl⟩
    · exact hacc .cpu d (by simp)
    · exact hacc .display d (by simp)
    · exact hacc .carrier d (by simp)
  obtain ⟨hboard, hvendor, hlo, hhi, -⟩ := hranges d hd
  have hcode : d.revCode - 0x41#8 < 0x20#8 := by bv_omega
  obtain ⟨sboard, svendor, scode, sid⟩ := identityWord_fields d
  rw [hword, sboard, svendor, scode, sid]
  exact ⟨setWidth_field_of_lt hboard, setWidth_field_of_lt hvendor, setWidth_field_of_lt hcode, setWidth_field_eq_and _⟩

end Sys2Proof.Machine
end

section
/-! The pure `Aggregate` (44_identity.md R233–R235, R239): when it falls back to the default words, and the words, MISSING and
OKCOUNT it answers otherwise. -/

namespace Sys2Proof.Machine

/-! ## Roles and outcomes -/

/-- The role code of a role (R229). -/
def roleCode : Role → Byte
  | .cpu => 0x01#8
  | .display => 0x02#8
  | .carrier => 0x03#8

/-- The number of a role's bit in `seen` and MISSING (R46, R233). -/
def roleIndex : Role → Nat
  | .cpu => 0
  | .display => 1
  | .carrier => 2

theorem roleIndex_lt (r : Role) : roleIndex r < 3 := by
  cases r <;> decide

theorem roleOf_eq_some_iff {c : Byte} {r : Role} : roleOf c = some r ↔ c = roleCode r := by
  constructor
  · intro h
    unfold roleOf at h
    split_ifs at h with hcpu hdisplay hcarrier
    · cases h; exact hcpu
    · cases h; exact hdisplay
    · cases h; exact hcarrier
  · rintro rfl
    cases r <;> rfl

theorem roleOf_eq_none_iff {c : Byte} : roleOf c = none ↔ c ∉ [0x01#8, 0x02#8, 0x03#8] := by
  rw [Option.eq_none_iff_forall_ne_some]
  constructor
  · intro h
    have hne := fun r => mt roleOf_eq_some_iff.2 (h r)
    simpa using ⟨hne .cpu, hne .display, hne .carrier⟩
  · intro h r hr
    obtain rfl := roleOf_eq_some_iff.1 hr
    cases r <;> simp [roleCode] at h

theorem roleBit_getLsbD (q r : Role) : (roleBit q).getLsbD (roleIndex r) = decide (q = r) := by
  cases q <;> cases r <;> rfl

/-- MISSING has the bits that `seen` lacks (R236). -/
theorem missingFlags_getLsbD (seen : BitVec 3) (r : Role) :
    (missingFlags seen).getLsbD (roleIndex r) = !seen.getLsbD (roleIndex r) := by
  simp [missingFlags, roleIndex_lt]

/-- The outcome is a decoded identity, not the code that skips the device (R233). -/
def outcomeDecoded : Except ErrCode Identity → Bool
  | .ok _ => true
  | .error _ => false

/-- The roles seen after a device's outcome (R233). -/
def seenOutcome (seen : BitVec 3) : Except ErrCode Identity → BitVec 3
  | .error _ => seen
  | .ok d =>
    match roleOf d.role with
    | none => seen
    | some r => seen ||| roleBit r

@[simp] theorem outcomeDecoded_error (c : ErrCode) : outcomeDecoded (.error c) = false := rfl
@[simp] theorem countP_outcomeDecoded_ok (d : Identity) (os : List (Except ErrCode Identity)) :
    (.ok d :: os).countP outcomeDecoded = os.countP outcomeDecoded + 1 := List.countP_cons_of_pos rfl
@[simp] theorem outcomeFatal_error (c : ErrCode) : outcomeFatal (.error c) = false := rfl
@[simp] theorem foldOutcome_error (w : Word × Word) (c : ErrCode) : foldOutcome w (.error c) = w := rfl
@[simp] theorem seenOutcome_error (seen : BitVec 3) (c : ErrCode) : seenOutcome seen (.error c) = seen := rfl

section Decoded

variable {d : Identity} {r : Role}

theorem outcomeFatal_of_none (h : roleOf d.role = none) : outcomeFatal (.ok d) = true := by simp [outcomeFatal, h]
theorem outcomeFatal_of_some (h : roleOf d.role = some r) : outcomeFatal (.ok d) = false := by simp [outcomeFatal, h]

theorem foldOutcome_of_some (h : roleOf d.role = some r) (w : Word × Word) : foldOutcome w (.ok d) = foldIdentity r d w := by
  simp [foldOutcome, h]

theorem seenOutcome_of_some (h : roleOf d.role = some r) (seen : BitVec 3) :
    seenOutcome seen (.ok d) = seen ||| roleBit r := by
  simp [seenOutcome, h]

end Decoded

section Outcomes

variable (cfg : Config) {os : List (Except ErrCode Identity)}

theorem any_outcomeFatal_iff : os.any outcomeFatal = true ↔ ∃ d, .ok d ∈ os ∧ d.role ∉ [0x01#8, 0x02#8, 0x03#8] := by
  simp only [List.any_eq_true, ← roleOf_eq_none_iff]
  constructor
  · rintro ⟨_ | d, hmem, hfatal⟩
    · simp at hfatal
    · exact ⟨d, hmem, by simpa [outcomeFatal] using hfatal⟩
  · rintro ⟨d, hmem, hrole⟩
    exact ⟨.ok d, hmem, outcomeFatal_of_none hrole⟩

theorem countP_outcomeDecoded_eq_zero_iff : os.countP outcomeDecoded = 0 ↔ ∀ d, .ok d ∉ os := by
  rw [List.countP_eq_zero]
  constructor
  · exact fun h d hmem => h (.ok d) hmem rfl
  · rintro h (_ | d) hmem
    · simp
    · exact absurd hmem (h d)

/-! ## `Aggregate` (R233) -/

/-- The identities decoded before the first fatal outcome: OKCOUNT (R233). -/
def decodedBeforeFatal (os : List (Except ErrCode Identity)) : Nat :=
  (os.takeWhile (fun o => !outcomeFatal o)).countP outcomeDecoded

/-- With a fatal outcome `Aggregate` falls back, having counted the identities decoded before the first one (R233, R234). -/
theorem aggregateFrom_of_fatal (h : os.any outcomeFatal = true) (w : Word × Word) (ok : Nat) (seen : BitVec 3) :
    aggregateFrom cfg os w ok seen = fallback cfg (ok + decodedBeforeFatal os) .eUnknownBoardRole := by
  unfold decodedBeforeFatal
  induction os generalizing w ok seen with
  | nil => simp at h
  | cons o os ih =>
    cases o with
    | error c => simpa [aggregateFrom] using ih (by simpa using h) w ok seen
    | ok d =>
      cases hr : roleOf d.role with
      | none => simp [aggregateFrom, hr, outcomeFatal_of_none hr]
      | some r =>
        have hos := ih (by simpa [outcomeFatal_of_some hr] using h) (foldIdentity r d w) (ok + 1) (seen ||| roleBit r)
        simpa [aggregateFrom, hr, outcomeFatal_of_some hr, Nat.add_assoc, Nat.add_comm 1] using hos

/-- Without a fatal outcome `Aggregate` folds, counts and notes the roles of all outcomes (R233). -/
theorem aggregateFrom_of_no_fatal (h : os.any outcomeFatal = false) (w : Word × Word) (ok : Nat) (seen : BitVec 3) :
    aggregateFrom cfg os w ok seen =
      aggregateFrom cfg [] (os.foldl foldOutcome w) (ok + os.countP outcomeDecoded) (os.foldl seenOutcome seen) := by
  induction os generalizing w ok seen with
  | nil => simp
  | cons o os ih =>
    obtain ⟨ho, hos⟩ : outcomeFatal o = false ∧ os.any outcomeFatal = false := by simpa using h
    cases o with
    | error c => simpa [aggregateFrom] using ih hos w ok seen
    | ok d =>
      cases hr : roleOf d.role with
      | none => simp [outcomeFatal_of_none hr] at ho
      | some r =>
        simpa [aggregateFrom, hr, foldOutcome_of_some hr, seenOutcome_of_some hr, Nat.add_assoc, Nat.add_comm 1] using
          ih hos (foldIdentity r d w) (ok + 1) (seen ||| roleBit r)

/-- The outcomes make `Aggregate` fall back (R234): one is fatal, or none is decoded. -/
def FallsBack (os : List (Except ErrCode Identity)) : Prop := os.any outcomeFatal = true ∨ os.countP outcomeDecoded = 0

theorem fallsBack_iff :
    FallsBack os ↔ (∃ d, .ok d ∈ os ∧ d.role ∉ [0x01#8, 0x02#8, 0x03#8]) ∨ (∀ d, .ok d ∉ os) := by
  rw [FallsBack, any_outcomeFatal_iff, countP_outcomeDecoded_eq_zero_iff]

theorem decodedBeforeFatal_le : decodedBeforeFatal os ≤ os.countP outcomeDecoded :=
  (List.takeWhile_sublist _).countP_le

theorem decodedBeforeFatal_of_no_fatal (h : os.any outcomeFatal = false) :
    decodedBeforeFatal os = os.countP outcomeDecoded := by
  rw [decodedBeforeFatal, List.takeWhile_eq_self_iff.2 (by simpa using h)]

theorem aggregate_of_fallsBack (h : FallsBack os) :
    aggregate cfg os = fallback cfg (decodedBeforeFatal os)
      (if os.any outcomeFatal then .eUnknownBoardRole else .eNoDeviceDecoded) := by
  cases hfatal : os.any outcomeFatal with
  | true => rw [aggregate, aggregateFrom_of_fatal cfg hfatal, Nat.zero_add, if_pos rfl]
  | false =>
    have hdec : os.countP outcomeDecoded = 0 := h.resolve_left (by simp [hfatal])
    rw [aggregate, aggregateFrom_of_no_fatal cfg hfatal, decodedBeforeFatal_of_no_fatal hfatal, hdec]
    rfl

theorem aggregate_of_not_fallsBack (h : ¬ FallsBack os) :
    aggregate cfg os =
      { serial := (os.foldl foldOutcome (0#32, 0#32)).1
        revision := (os.foldl foldOutcome (0#32, 0#32)).2
        defaults := false
        missing := missingFlags (os.foldl seenOutcome 0b000#3)
        okcount := os.countP outcomeDecoded
        code := .eNone } := by
  obtain ⟨hfatal, hdec⟩ := not_or.1 h
  rw [aggregate, aggregateFrom_of_no_fatal cfg (Bool.not_eq_true _ ▸ hfatal), Nat.zero_add, aggregateFrom, if_neg hdec]

/-! ## A role that no outcome has (R235, R239) -/

/-- A role is seen exactly when it was, or an outcome has it. -/
theorem foldl_seenOutcome_getLsbD (r : Role) (seen : BitVec 3) :
    (os.foldl seenOutcome seen).getLsbD (roleIndex r) = true ↔
      seen.getLsbD (roleIndex r) = true ∨ ∃ d, .ok d ∈ os ∧ d.role = roleCode r := by
  induction os generalizing seen with
  | nil => simp
  | cons o os ih =>
    rw [List.foldl_cons, ih]
    cases o with
    | error c => simp
    | ok d =>
      cases hr : roleOf d.role with
      | none =>
        have hne : d.role ≠ roleCode r := fun he => by simp [roleOf_eq_some_iff.2 he] at hr
        simp [seenOutcome, hr, hne]
      | some q =>
        have hq : d.role = roleCode r ↔ q = r := by rw [← roleOf_eq_some_iff, hr, Option.some_inj]
        simp [seenOutcome_of_some hr, roleBit_getLsbD, hq, or_assoc]

/-- The accessor of a role that no outcome has stays as it is. -/
theorem roleAccessor_foldl_foldOutcome_of_absent {r : Role} (h : ∀ d, .ok d ∈ os → d.role ≠ roleCode r) (w : Word × Word) :
    roleAccessor r (os.foldl foldOutcome w) = roleAccessor r w := by
  induction os generalizing w with
  | nil => rfl
  | cons o os ih =>
    have hos := fun d hd => h d (List.mem_cons_of_mem o hd)
    rw [List.foldl_cons, ih hos]
    cases o with
    | error c => rfl
    | ok d =>
      cases hr : roleOf d.role with
      | none => simp [foldOutcome, hr]
      | some q =>
        have hne : r ≠ q := fun he => h d (by simp) (he ▸ roleOf_eq_some_iff.1 hr)
        rw [foldOutcome_of_some hr, roleAccessor_foldIdentity_ne hne]

/-- The MISSING bit of a role is set exactly when no outcome has it. -/
theorem missing_iff (r : Role) : (missingFlags (os.foldl seenOutcome 0b000#3)).getLsbD (roleIndex r) = true ↔
    ∀ d, .ok d ∈ os → d.role ≠ roleCode r := by
  rw [missingFlags_getLsbD, Bool.not_eq_true', ← Bool.not_eq_true, foldl_seenOutcome_getLsbD]
  simp

end Outcomes

/-- Settles O48, by whether `Aggregate` falls back. -/
theorem fallbackAndMissingRoles : Obligations.FallbackAndMissingRoles := by
  unfold Obligations.FallbackAndMissingRoles
  rintro cfg os g rfl
  rw [← fallsBack_iff, ← countP_outcomeDecoded_eq_zero_iff]
  by_cases hback : FallsBack os
  · rw [aggregate_of_fallsBack cfg hback]
    refine ⟨iff_of_true rfl hback, fun _ => ⟨rfl, rfl, rfl, rfl⟩, fun hd => absurd hd.symm Bool.false_ne_true,
      List.countP_eq_length_filter, fun hnone => Nat.eq_zero_of_le_zero (hnone ▸ decodedBeforeFatal_le)⟩
  · obtain ⟨hfatal, hdec⟩ := not_or.1 hback
    rw [aggregate_of_not_fallsBack cfg hback]
    refine ⟨iff_of_false Bool.false_ne_true hback, fun hd => absurd hd Bool.false_ne_true,
      fun _ => ⟨rfl, List.countP_eq_length_filter, fun bit role acc hacc => ?_⟩, ?_, fun hnone => absurd hnone hdec⟩
    · have hrole : ∃ r, bit = roleIndex r ∧ role = roleCode r ∧
          acc = roleAccessor r (os.foldl foldOutcome (0#32, 0#32)) := by
        simp only [List.mem_cons, Prod.mk.injEq, List.not_mem_nil, or_false] at hacc
        rcases hacc with ⟨rfl, rfl, rfl⟩ | ⟨rfl, rfl, rfl⟩ | ⟨rfl, rfl, rfl⟩
        · exact ⟨.cpu, rfl, rfl, rfl⟩
        · exact ⟨.display, rfl, rfl, rfl⟩
        · exact ⟨.carrier, rfl, rfl, rfl⟩
      obtain ⟨r, rfl, rfl, rfl⟩ := hrole
      exact ⟨missing_iff r, fun hmissing =>
        (roleAccessor_foldl_foldOutcome_of_absent ((missing_iff r).1 hmissing) _).trans (roleAccessor_zero r)⟩
    · exact (decodedBeforeFatal_of_no_fatal (by simpa using hfatal)).symm.trans List.countP_eq_length_filter

end Sys2Proof.Machine
end

section
/-! IDENTIFY (44_identity.md R233, R236, R237): it folds as the pure `Aggregate` does, its frame, and the devices it
processes. -/

namespace Sys2Proof.Machine

/-! ## IDENTIFY's parts (R236) -/

/-- The values of IDENTIFY's device loop before its first device, from the state `s` that ENUM leaves. -/
def identifyStart (s : State) : IdentifyState :=
  { st := { s with deverr := Vector.replicate 5 .eNotProcessed }
    words := (0#32, 0#32)
    ok := 0
    seen := 0b000#3
    fatal := false }

/-- The values of the device loop after the last device of the table that ENUM leaves. -/
def identifyEnd (s : State) : IdentifyState := identifyLoop s.count 0 (identifyStart s)

/-- IDENTIFY is ENUM, the device loop and its last step. -/
theorem identifyBody_eq (s : State) : identifyBody s = identifyClose (identifyEnd (enumBody s).2) := rfl

/-- The device loop starts from all that processing a device reads or leaves. -/
theorem sameDevice_identifyStart (c : ErrCode) (s : State) : SameDevice (finish c s) (identifyStart s).st :=
  ⟨⟨rfl, rfl, rfl, rfl, rfl⟩, rfl, rfl⟩

theorem deviceOutcomes_identifyStart (c : ErrCode) (s : State) (n : Nat) :
    deviceOutcomes n 0 (identifyStart s).st = deviceOutcomes n 0 (finish c s) :=
  (deviceOutcomes_congr n 0 (sameDevice_identifyStart c s).toSameInputs).symm

/-- The last step of IDENTIFY leaves everything but the items it writes. -/
theorem identifyClose_frame (a : IdentifyState) :
    (identifyClose a).2 = { a.st with
      okcount := (identifyClose a).2.okcount
      serial := (identifyClose a).2.serial
      revision := (identifyClose a).2.revision
      defaults := (identifyClose a).2.defaults
      missing := (identifyClose a).2.missing
      idValid := true } := by
  unfold identifyClose; split <;> rfl

/-! ## IDENTIFY as `Aggregate` (R233) -/

/-- What a command's code and state show of `Aggregate`'s answer. -/
def summaryOf (x : ErrCode × State) : Summary :=
  ⟨x.2.serial, x.2.revision, x.2.defaults, x.2.missing, x.2.okcount, x.1⟩

theorem summaryOf_identifyClose_fatal {a : IdentifyState} (h : a.fatal = true) :
    summaryOf (identifyClose a) = fallback a.st.cfg a.ok .eUnknownBoardRole := by
  simp [identifyClose, h, summaryOf, fallback]

theorem summaryOf_identifyClose {a : IdentifyState} (h : a.fatal = false) :
    summaryOf (identifyClose a) = aggregateFrom a.st.cfg [] a.words a.ok a.seen := by
  by_cases hok : a.ok = 0 <;> simp [identifyClose, h, hok, summaryOf, aggregateFrom, fallback]

/-- The device loop folds while it reads what `Aggregate` folds from the outcomes (R233, R236). -/
theorem summaryOf_identifyLoop (n i : Nat) {a : IdentifyState} (h : a.fatal = false) :
    summaryOf (identifyClose (identifyLoop n i a)) =
      aggregateFrom a.st.cfg (deviceOutcomes n i a.st) a.words a.ok a.seen := by
  induction n generalizing i a with
  | zero => exact summaryOf_identifyClose h
  | succ n ih =>
    obtain ⟨hcfg, -⟩ := deviceOutcome_frame i a.st
    rcases ho : deviceOutcome i a.st with ⟨c | d, u⟩
    · simp only [ho] at hcfg
      rw [identifyLoop_error ho, ih (i + 1) (by exact h), deviceOutcomes_congr n (i + 1) (setDeverr_same i c u),
        deviceOutcomes, ho, aggregateFrom, setDeverr_cfg, hcfg]
    · simp only [ho] at hcfg
      cases hr : roleOf d.role with
      | none =>
        rw [identifyLoop_fatal ho hr, summaryOf_identifyClose_fatal rfl, deviceOutcomes, ho, aggregateFrom, hr,
          setDeverr_cfg, hcfg]
      | some r =>
        rw [identifyLoop_fold ho hr, ih (i + 1) (by exact h), deviceOutcomes_congr n (i + 1) (setDeverr_same i .eNone u),
          deviceOutcomes, ho, aggregateFrom, hr, setDeverr_cfg, hcfg]

/-- Settles O50: ENUM's code and `finish` change nothing that the outcomes depend on. -/
theorem identifyRefinesAggregate : Obligations.IdentifyRefinesAggregate := by
  unfold Obligations.IdentifyRefinesAggregate
  intro s u hu
  obtain rfl := exec_next hu
  refine ⟨_, exec_eq .identify s, ?_⟩
  have hcfg : (enumBody s).2.cfg = s.cfg := commandBody_cfg .enum s
  have hloop := summaryOf_identifyLoop (enumBody s).2.count 0 (a := identifyStart (enumBody s).2) rfl
  rw [deviceOutcomes_identifyStart (enumBody s).1] at hloop
  exact hcfg ▸ hloop

/-! ## The frame and the chain of devices (R236, R237) -/

/-- The device loop leaves the enumeration's results. -/
theorem identifyBody_enumeration (s : State) :
    (identifyBody s).2.full = (enumBody s).2.full ∧ (identifyBody s).2.found = (enumBody s).2.found ∧
    (identifyBody s).2.rom = (enumBody s).2.rom := by
  have hloop : LoopFrame (identifyStart (enumBody s).2).st (identifyEnd (enumBody s).2).st := (identifyLoop_spec _ 0 _).1
  rw [identifyBody_eq, identifyClose_frame, hloop]
  exact ⟨rfl, rfl, rfl⟩

/-- IDENTIFY's devices are a chain of commands after ENUM, whose last leaves ATTEMPTS, RECBUF, the identity and the bus. -/
theorem identifyBody_chain (s : State) : ∃ n us, us 0 = finish (enumBody s).1 (enumBody s).2 ∧
    DeviceChain 0 (deviceOutcomes (enumBody s).2.count 0 (finish (enumBody s).1 (enumBody s).2)) n us ∧
    SameDevice (us n) (identifyBody s).2 := by
  obtain ⟨n, us, hstart, hchain, hend⟩ := identifyLoop_chain (enumBody s).2.count 0 (identifyStart (enumBody s).2)
    (sameDevice_identifyStart (enumBody s).1 (enumBody s).2)
  rw [deviceOutcomes_identifyStart (enumBody s).1] at hchain
  refine ⟨n, us, hstart, hchain, ?_⟩
  rw [identifyBody_eq, identifyClose_frame]
  exact ⟨⟨hend.cfg, hend.count, hend.devtab, hend.bus, hend.recbuf⟩, hend.attempts, hend.ident⟩

/-- Settles O49, by what IDENTIFY writes (`identifyBody_spec`), the words it folds and the chain of its devices. -/
theorem identifyOutcomeAndFrame : Obligations.IdentifyOutcomeAndFrame := by
  unfold Obligations.IdentifyOutcomeAndFrame
  refine ⟨rfl, fun s => ?_⟩
  obtain ⟨hframe, ⟨es, hbus, hlen⟩, hend, hok, hcount, hdevtab, hss, -⟩ := identifyBody_spec s
  obtain ⟨hfull, hfound, hrom⟩ := identifyBody_enumeration s
  obtain ⟨n, us, hstart, hchain, hlast⟩ := identifyBody_chain s
  have hle : (enumBody s).2.count ≤ 5 := (enumBody_spec s).2.1.bound
  have hos := deviceOutcomes_congr (enumBody s).2.count 0 (s := finish (enumBody s).1 (enumBody s).2)
    (t := (enumBody s).2) ⟨rfl, rfl, rfl, rfl, rfl⟩
  have henum : exec .enum s = .next (finish (enumBody s).1 (enumBody s).2) := exec_eq .enum s
  refine ⟨_, es, exec_eq .identify s, congrArg (finish _) hframe, hbus, hlen, hok, hcount ▸ hle, ?_, hend⟩
  refine ⟨_, henum, hcount, hdevtab, hfull, hfound, hss, hrom, fun herr => ?_, n, us, hstart, ?_, ?_, ?_,
    hlast.attempts.symm, hlast.recbuf.symm, hlast.ident.symm, hlast.bus.symm⟩
  · have hwords := identifyBody_words herr
    rwa [← hos] at hwords
  · simpa using hchain.bound
  · intro hn
    simpa using congrArg List.length (hchain.start hn)
  · intro k hk
    simpa using hchain.device k hk

end Sys2Proof.Machine
end

section
/-! Acceptance and completion of a command (60_exceptions.md R261, R266), which command can end with `E_BAD_OPERAND` (R267), and
the idle engine (R274). -/

namespace Sys2Proof.Machine

/-! ## Bad operands (R267) -/

/-- MEMRD of an index that names no device ends before its first attempt. -/
theorem memrdBody_badOperand {idx : Nat} {s : State} (hop : deviceOperand idx s = none) :
    memrdBody idx s = (.eBadOperand, { s with attempts := 0 }) := by
  simp [memrdBody, hop]

theorem readAttempts_code_ne_badOperand (cmds : RomCommands) (a : Address) (n att : Nat) (b : Bus) :
    (readAttempts cmds a n att b).code ≠ .eBadOperand := by
  obtain ⟨-, -, -, -, hc | hc | ⟨hc, -⟩⟩ := readAttempts_spec cmds a n att b <;> simp [hc]

theorem memrdBody_code_eq_badOperand_iff {idx : Nat} {s : State} :
    (memrdBody idx s).1 = .eBadOperand ↔ deviceOperand idx s = none := by
  cases hop : deviceOperand idx s with
  | none => simp [memrdBody_badOperand hop]
  | some a =>
    cases hfam : familySupported s.cfg a with
    | false => simp [memrdBody_unsupported hop hfam]
    | true => simp [memrdBody_attempts hop hfam rfl, readAttempts_code_ne_badOperand]

/-- While COUNT is in its range, an index names no device exactly from COUNT up (R40, R267). -/
theorem deviceOperand_eq_none_iff {idx : Nat} {s : State} (h : s.count ≤ 5) :
    deviceOperand idx s = none ↔ s.count ≤ idx := by
  refine ⟨fun hnone => ?_, deviceOperand_none⟩
  by_contra hlt
  have hsome := deviceOperand_some (idx := idx) (s := s) (by omega) (by omega)
  simp [hsome] at hnone

/-- Every other command answers codes of its own (R137, R177, R226, R236). -/
theorem commandBody_badOperand {i : Instr} {s : State} (h : (commandBody i s).1 = .eBadOperand) :
    ∃ idx, i = .memrd idx ∧ deviceOperand idx s = none := by
  cases i with
  | memrd idx => exact ⟨idx, rfl, memrdBody_code_eq_badOperand_iff.1 h⟩
  | owreset =>
    simp only [commandBody] at h
    split at h <;> nomatch h
  | srchnext =>
    have hmem := (searchNext_code s.cfg s.ss s.rom s.bus).1
    rw [show (searchNext s.cfg s.ss s.rom s.bus).code = .eBadOperand from h] at hmem
    simp at hmem
  | enum =>
    have hmem : (enumBody s).1 ∈ _ := enumLoop_code s.cfg 5 _
    rw [show (enumBody s).1 = .eBadOperand from h] at hmem
    simp at hmem
  | decode =>
    obtain ⟨-, ⟨hc, -⟩ | ⟨hc | hc, -⟩⟩ := decodeBody_spec s <;> nomatch hc.symm.trans h
  | identify =>
    obtain ⟨-, -, ⟨hc, -⟩ | ⟨hc | hc, -⟩, -⟩ := identifyBody_spec s <;> nomatch hc.symm.trans h
  | owwbit _ | owrbit | owwbyte _ | owrbyte | crc8 _ | srchinit => nomatch h

/-- Settles O38: the code is MEMRD's for an index that names no device, and while COUNT is in its range only the indices from
COUNT up name none. -/
theorem onlyMemrdHasBadOperands : Obligations.OnlyMemrdHasBadOperands := by
  unfold Obligations.OnlyMemrdHasBadOperands
  refine ⟨fun s idx hidx => ?_, fun i s t hcount hexec herr => ?_⟩
  · rw [exec_eq, commandBody, memrdBody_badOperand (deviceOperand_none hidx), finish]
  · obtain rfl := exec_next hexec
    obtain ⟨idx, rfl, hop⟩ := commandBody_badOperand herr
    exact ⟨idx, rfl, (deviceOperand_eq_none_iff hcount).1 hop⟩

/-! ## Acceptance and completion (R261, R266) -/

/-- Settles O6, by the step that starts a command and what `finish` writes. -/
theorem acceptanceAndCompletionFields : Obligations.AcceptanceAndCompletionFields := by
  unfold Obligations.AcceptanceAndCompletionFields
  refine ⟨fun s w rest i hp hr hidle hd => ⟨step_startsCommand hp hr hidle hd, busy_of_idle hidle, ?_⟩, fun c s => ?_⟩
  · exact acceptCommand_busy w i s
  · exact ⟨rfl, finish_busy c s⟩

/-- A step that writes an illegal word to CMD of an idle OWID, whichever way the host writes it, completes it at once (R266). -/
theorem step_refusesIllegalWord {s : State} {w : Word} {rest : List Turn}
    (hp : s.pending = .access (.write 0x00 4 w) :: rest ∨ s.pending = .issue w :: rest) (hr : s.inReset = false)
    (hidle : s.engine = .idle) (hd : decodeWord w = none) :
    step s = .next (acceptIllegal w { s with pending := rest }) := by
  have hbusy : State.busy { s with pending := rest } = false := busy_of_idle hidle
  rcases hp with hp | hp
  · rw [step_write hp hr rfl (by decide), serveAccess_cmd, writeCmd_illegal hbusy hd]
  · rw [step_issue hp hr, writeCmd_illegal hbusy hd]

/-- STATUS after an illegal word: DONE, the code, and the flags that the word leaves (R35, R266). -/
theorem statusWord_acceptIllegal {w : Word} {s : State} (hidle : s.engine = .idle) :
    statusWord (acceptIllegal w s) =
      0x00000C02#32 ||| flagAt s.bus.present 2 ||| flagAt s.found 3 ||| flagAt s.ovr 4 ||| flagAt s.idValid 5 |||
        flagAt s.defaults 6 := by
  have hbusy : (acceptIllegal w s).busy = false := busy_of_idle hidle
  simp only [statusWord, hbusy, acceptIllegal_done, acceptIllegal_bus, acceptIllegal_found, acceptIllegal_ovr,
    acceptIllegal_idValid, acceptIllegal_defaults, acceptIllegal_err]
  rw [show 0x00000C02#32 = flagAt false 0 ||| flagAt true 1 ||| fieldAt (errBits .eIllegalCommand) 8 by decide]
  ac_rfl

/-- Settles O7: with every other flag clear only DONE and the code are left in STATUS. -/
theorem illegalWordCompletesAtOnce : Obligations.IllegalWordCompletesAtOnce := by
  unfold Obligations.IllegalWordCompletesAtOnce
  refine ⟨fun s w rest hp hr hidle hd => step_refusesIllegalWord hp hr hidle hd, ?_⟩
  intro s hidle hpresent hfound hovr hvalid hdefaults
  rw [statusWord_acceptIllegal hidle, hpresent, hfound, hovr, hvalid, hdefaults]
  decide

/-! ## The idle engine (R274) -/

/-- An engine turn of an idle engine changes nothing, in reset as well as out of it. -/
theorem runTurn_engine_idle {s : State} (h : s.engine = .idle) : runTurn .engine s = .next s := by
  cases hr : s.inReset with
  | true => simp [runTurn, hr]
  | false => simp [runTurn, hr, engineTurn_idle h]

/-- Settles O60: with or without a turn pending, the engine's turn holds the state. -/
theorem idleEngineHoldsItsState : Obligations.IdleEngineHoldsItsState := by
  unfold Obligations.IdleEngineHoldsItsState
  refine fun s rest hidle => ⟨fun hp => ?_, fun hp => ?_⟩
  · rw [step_cons hp, runTurn_engine_idle (by exact hidle)]
  · rw [step_nil hp, runTurn_engine_idle hidle]

end Sys2Proof.Machine
end

section
/-! Reset and accesses that are not taken (10_state.md R32, R35, R49; 70_reset_and_hazards.md R290–R292, R295, R296): what reset
leaves, what is served while the reset input is asserted, and what a host access does while BUSY = 1. -/

namespace Sys2Proof.Machine

/-! ## The reset state (R290) -/

/-- Every register reads 0 in the reset state. -/
theorem regRead_reset (r : Reg) : regRead r State.reset = 0x00000000#32 := by
  cases r with
  | devtab i hi =>
    have hentry : State.reset.devtab[i]?.getD 0#64 = 0#64 := by
      simp only [State.reset, Vector.getElem?_replicate]
      split <;> rfl
    simp only [regRead, hentry]
    cases hi <;> rfl
  | recbuf k =>
    have hbyte (j : Nat) : State.reset.recbuf[j]?.getD 0x00#8 = 0x00#8 := by
      simp only [State.reset, Vector.getElem?_replicate]
      split <;> rfl
    simp only [regRead, recbufWord, hbyte]
    rfl
  | _ => rfl

/-- Settles O20: the items are the literals of the reset state, and every register's word is made of zero items. -/
theorem resetStateIsAllZero : Obligations.ResetStateIsAllZero := by
  unfold Obligations.ResetStateIsAllZero
  have hdevtab : ∀ i (h : i < 5), State.reset.devtab[i] = 0#64 := by simp [State.reset]
  have hrecbuf : ∀ j (h : j < 32), State.reset.recbuf[j] = 0x00#8 := by simp [State.reset]
  have hdeverr : ∀ i (h : i < 5), errBits State.reset.deverr[i] = 0x0#4 := by simp [State.reset, errBits]
  exact ⟨rfl, rfl, rfl, rfl, rfl, rfl, rfl, rfl, rfl, rfl, rfl, rfl, ⟨rfl, rfl, rfl⟩, rfl, rfl, rfl, hdevtab, hrecbuf,
    rfl, rfl, rfl, rfl, hdeverr, rfl, rfl, rfl, rfl, fun k _ => regRead_reset _⟩

/-- Settles O53, by the ranges of the reset values. -/
theorem resetStateIsLegal : Obligations.ResetStateIsLegal := State.Legal.reset

/-! ## The reset input (R291, R292) -/

/-- A step that changes the level of the reset input. -/
theorem step_resetPin {s : State} {asserted : Bool} {rest : List Turn} (hp : s.pending = .resetPin asserted :: rest) :
    step s = .next (resetInput asserted { s with pending := rest }) := step_cons hp

/-- Settles O21: asserting the input is the hardware reset of OWID, releasing it moves the input only. -/
theorem resetInputFromAnyState : Obligations.ResetInputFromAnyState := by
  unfold Obligations.ResetInputFromAnyState
  exact fun s rest => ⟨step_resetPin, step_resetPin⟩

/-- A legal host access while the reset input is asserted is not served. -/
theorem step_access_notServed {s : State} {a : HostAccess} {rest : List Turn} (hp : s.pending = .access a :: rest)
    (hr : s.inReset = true) (h : checkAccess (accessPlace a).1 (accessPlace a).2 = none) :
    step s = .next (notServed a { s with pending := rest }) := by
  rw [step_cons hp, runTurn_access]
  simp [hostAccess, h, hr]

theorem runTurn_issue_inReset {s : State} (hr : s.inReset = true) (w : Word) : runTurn (.issue w) s = .next s := if_pos hr

theorem runTurn_engine_inReset {s : State} (hr : s.inReset = true) : runTurn .engine s = .next s := if_pos hr

/-- Settles O22, turn by turn. -/
theorem nothingIsServedInReset : Obligations.NothingIsServedInReset := by
  unfold Obligations.NothingIsServedInReset
  intro s rest off w hr h hlt
  refine ⟨fun hp => ?_, fun hp => ?_, fun hp => ?_, fun hp => ?_, fun hp => ?_⟩
  · exact step_access_notServed hp hr (checkAccess_ok h hlt)
  · exact (step_cons hp).trans (runTurn_issue_inReset (by exact hr) w)
  · exact (step_cons hp).trans (runTurn_engine_inReset (by exact hr))
  · exact step_access_notServed hp hr (checkAccess_ok h hlt)
  · exact (step_nil hp).trans (runTurn_engine_inReset hr)

/-! ## Writes that accept no command (R49, R295) -/

theorem writeCrc_busy {s : State} (h : s.busy = true) (w : Word) : writeCrc w s = setOverrun s := by
  simp [writeCrc, h]

/-- Settles O8: the offset decides which register takes the write, and BUSY whether CMD and CRC take theirs. -/
theorem writesThatAcceptNoCommand : Obligations.WritesThatAcceptNoCommand := by
  unfold Obligations.WritesThatAcceptNoCommand
  refine ⟨fun s off w rest hp hr h hlt => ?_, fun s w rest hp hr hbusy => ?_⟩
  · rw [step_write hp hr h hlt]
    refine ⟨fun hoff hbusy => ?_, fun hoff => ?_, fun h0 h4 hc => ?_⟩
    · have hbusy : State.busy { s with pending := rest } = true := hbusy
      rcases hoff with rfl | rfl
      · rw [serveAccess_cmd, writeCmd_busy hbusy]; rfl
      · rw [serveAccess_write (by decide)]
        exact congrArg Host.Outcome.next (writeCrc_busy hbusy w)
    · subst hoff
      exact serveAccess_write (by decide) w _
    · obtain ⟨hcmd, hstatus, hcrc⟩ := regAt_plain hlt h0 h4 hc
      rw [serveAccess_write hcmd, regWrite_ignored ⟨hstatus, hcrc⟩]
  · rw [step_issue hp hr, writeCmd_busy (by exact hbusy)]; rfl

/-! ## Reads while BUSY = 1 (R296) -/

/-- STATUS is at offset 0x04 only (R33). -/
theorem regAt_eq_status_iff {off : Nat} : regAt off = .status ↔ off = 0x04 := by
  simp only [regAt, ite_eq_iff, reduceCtorEq, and_false, or_false, false_or, and_true]
  omega

theorem regReadBusy_of_ne_status {r : Reg} (h : r ≠ .status) (free : Word) (s : State) : regReadBusy r free s = free := by
  cases r with
  | status => exact absurd rfl h
  | _ => rfl

/-- The bits of STATUS that R296 defines are bit 0 and bit 4. -/
theorem statusDefinedWhileBusy_getLsbD {n : Nat} (hn : n < 32) :
    statusDefinedWhileBusy.getLsbD n = decide (n = 0 ∨ n = 4) := by
  have h : ∀ m : Fin 32, statusDefinedWhileBusy.getLsbD m = decide (m.val = 0 ∨ m.val = 4) := by decide
  exact h ⟨n, hn⟩

/-- A bit of STATUS read while busy is the bit of the status word where R296 defines it, and else the free bit. -/
theorem regReadBusy_status_getLsbD (free : Word) (s : State) {n : Nat} (hn : n < 32) :
    (regReadBusy .status free s).getLsbD n = if n = 0 ∨ n = 4 then (statusWord s).getLsbD n else free.getLsbD n := by
  simp only [regReadBusy, BitVec.getLsbD_or, BitVec.getLsbD_and, BitVec.getLsbD_not, statusDefinedWhileBusy_getLsbD hn, hn]
  split
  · next hdefined => simp [hdefined]
  · next hfree => simp [hfree]

/-- Settles O11: bits 0 and 4 of STATUS are BUSY and OVR (R35), and every other bit read is the free one. -/
theorem readsWhileBusyAreFree : Obligations.ReadsWhileBusyAreFree := by
  unfold Obligations.ReadsWhileBusyAreFree
  intro s off rest hp hr hbusy h hlt
  obtain ⟨-, hbit0, -, -, -, hbit4, -⟩ := statusWordLayout { s with pending := rest }
  refine ⟨_, (step_read hp hr h hlt).trans (congrArg Host.Outcome.next (hostRead_busy (by exact hbusy) off)), fun hoff => ?_,
    fun n hn hfree => ?_⟩
  · rw [regAt_eq_status_iff.2 hoff]
    exact ⟨(regReadBusy_status_getLsbD _ _ (by decide)).trans (hbit0.trans hbusy),
      (regReadBusy_status_getLsbD _ _ (by decide)).trans hbit4⟩
  · by_cases hoff : off = 0x04
    · have hbit : ¬ (n = 0 ∨ n = 4) := by omega
      rw [regAt_eq_status_iff.2 hoff, regReadBusy_status_getLsbD _ _ hn, if_neg hbit]
    · rw [regReadBusy_of_ne_status (mt regAt_eq_status_iff.1 hoff)]

end Sys2Proof.Machine
end

section
/-! What holds of every command and every step: the parameters stay (70_reset_and_hazards.md R294), the events are bounded (R143,
R301), and the commands outside the search touch neither SearchState nor the working buffer (R299). -/

namespace Sys2Proof.Machine

/-! ## The parameters (R294) -/

theorem stepEffect_cfg {s t : State} (e : StepEffect s t) : t.cfg = s.cfg := by
  cases e with
  | whole w i rest hp hidle hr hd => rw [finish_cfg, commandBody_cfg]; rfl
  | complete i start k he hr => rw [finish_cfg, commandBody_cfg]; rfl
  | reset asserted rest hp => cases asserted <;> rfl
  | _ => rfl

/-- Settles O54, effect by effect of a step, and by what every command writes. -/
theorem parametersNeverChange : Obligations.ParametersNeverChange := by
  unfold Obligations.ParametersNeverChange
  refine ⟨fun s t hstep => stepEffect_cfg (step_effect hstep), fun i s t hexec => ?_⟩
  rw [exec_next hexec, finish_cfg, commandBody_cfg]

/-! ## The number of events (R143, R301) -/

/-- The events of a command are as many as R301 lists for it: exactly so for the commands with a fixed number, else at most. -/
theorem commandBody_events (i : Instr) {s : State} (h : s.ss.legal) :
    ∃ es, (commandBody i s).2.bus = busReplay es s.bus ∧ es.length ≤ maxEvents i ∧
      (eventsFixed i = true → es.length = maxEvents i) := by
  cases i with
  | owreset => exact ⟨_, busReset_replay s.bus, Nat.le_refl _, fun _ => rfl⟩
  | owwbit bit => exact ⟨_, busWriteSlot_replay bit s.bus, Nat.le_refl _, fun _ => rfl⟩
  | owrbit => exact ⟨_, busReadSlot_replay s.bus, Nat.le_refl _, fun _ => rfl⟩
  | owwbyte v => exact ⟨_, busWriteByte_replay v s.bus, Nat.le_refl _, fun _ => rfl⟩
  | owrbyte => exact ⟨_, busReadByte_replay s.bus, Nat.le_refl _, fun _ => rfl⟩
  | crc8 v => exact ⟨[], rfl, Nat.le_refl _, fun _ => rfl⟩
  | srchinit => exact ⟨[], rfl, Nat.le_refl _, fun _ => rfl⟩
  | decode =>
    have hbus : (decodeBody s).2.bus = s.bus := by rw [(decodeBody_spec s).1]
    exact ⟨[], hbus, Nat.le_refl _, fun _ => rfl⟩
  | srchnext =>
    obtain ⟨hld, hlfd, hldf⟩ := h
    obtain ⟨-, es, hbus, hlen⟩ := searchNext_spec s.cfg hld hlfd hldf s.rom s.bus
    exact ⟨es, hbus, hlen, nofun⟩
  | enum =>
    obtain ⟨-, -, -, -, -, -, es, hbus, hlen⟩ := enumBody_spec s
    exact ⟨es, hbus, hlen, nofun⟩
  | memrd idx =>
    obtain ⟨-, ⟨es, hbus, hlen⟩, -⟩ := memrdBody_spec idx s
    exact ⟨es, hbus, hlen, nofun⟩
  | identify =>
    obtain ⟨-, ⟨es, hbus, hlen⟩, -⟩ := identifyBody_spec s
    exact ⟨es, hbus, hlen, nofun⟩

/-- Settles O56: replayed events are appended to H and leave a released DQ released. -/
theorem eventsPerCommandAreBounded : Obligations.EventsPerCommandAreBounded := by
  unfold Obligations.EventsPerCommandAreBounded
  intro i s h
  obtain ⟨es, hbus, hle, hfixed⟩ := commandBody_events i h
  refine ⟨_, es, exec_eq i s, hbus, ?_, hle, hfixed, commandBody_dqOe i⟩
  rw [finish_bus, hbus, busHistory_replay]

/-! ## The commands outside the search (R299) -/

/-- `s` with other values in SearchState and the working buffer. -/
def withSearch (ss : SearchState) (rom : Address) (s : State) : State := { s with ss := ss, rom := rom }

theorem memrdBody_withSearch (ss : SearchState) (rom : Address) (idx : Nat) (s : State) :
    memrdBody idx (withSearch ss rom s) = ((memrdBody idx s).1, withSearch ss rom (memrdBody idx s).2) := by
  cases hop : deviceOperand idx s with
  | none => rw [memrdBody_badOperand hop, memrdBody_badOperand (s := withSearch ss rom s) hop]; rfl
  | some a =>
    cases hfam : familySupported s.cfg a with
    | false => rw [memrdBody_unsupported hop hfam, memrdBody_unsupported (s := withSearch ss rom s) hop hfam]; rfl
    | true => rw [memrdBody_attempts hop hfam rfl, memrdBody_attempts (s := withSearch ss rom s) hop hfam rfl]; rfl

theorem decodeBody_withSearch (ss : SearchState) (rom : Address) (s : State) :
    decodeBody (withSearch ss rom s) = ((decodeBody s).1, withSearch ss rom (decodeBody s).2) := by
  cases hd : decodeRecord s.cfg s.recbuf with
  | error c => rw [decodeBody_of_error hd, decodeBody_of_error (s := withSearch ss rom s) hd]; rfl
  | ok d => rw [decodeBody_of_ok hd, decodeBody_of_ok (s := withSearch ss rom s) hd]; rfl

/-- A command outside the search neither reads nor writes SearchState and the working buffer. -/
theorem commandBody_withSearch {i : Instr} (h : outsideSearch i = true) (ss : SearchState) (rom : Address) (s : State) :
    commandBody i (withSearch ss rom s) = ((commandBody i s).1, withSearch ss rom (commandBody i s).2) := by
  cases i with
  | memrd idx => exact memrdBody_withSearch ss rom idx s
  | decode => exact decodeBody_withSearch ss rom s
  | srchinit | srchnext | enum | identify => nomatch h
  | owreset | owwbit _ | owrbit | owwbyte _ | owrbyte | crc8 _ => rfl

/-- So it keeps the values that are there. -/
theorem commandBody_keepsSearch {i : Instr} (h : outsideSearch i = true) (s : State) :
    (commandBody i s).2.ss = s.ss ∧ (commandBody i s).2.rom = s.rom := by
  have hself : (commandBody i s).2 = withSearch s.ss s.rom (commandBody i s).2 :=
    congrArg Prod.snd (commandBody_withSearch h s.ss s.rom s)
  rw [hself]
  exact ⟨rfl, rfl⟩

/-- Settles O57: whatever values stand there, such a command passes them through. -/
theorem otherCommandsIgnoreTheSearch : Obligations.OtherCommandsIgnoreTheSearch := by
  unfold Obligations.OtherCommandsIgnoreTheSearch
  intro i s ss rom h
  obtain ⟨hss, hrom⟩ := commandBody_keepsSearch h s
  have hbody : commandBody i { s with ss := ss, rom := rom } = _ := commandBody_withSearch h ss rom s
  refine ⟨_, exec_eq i s, hss, hrom, ?_⟩
  rw [exec_eq, hbody]
  rfl

end Sys2Proof.Machine
end
